-- ==== Sys2Proof/Word.lean ====
section
/-! DEFINITION. The word types and the record types of the spec: bytes, durations, bands, signals, decode results, protocols and transmit requests. -/

namespace Sys2Proof

/-- One byte of a name (spec 30_encoding.md R86: names are opaque bytes). -/
abbrev Byte := BitVec 8

/-- One edge sample or one entry of a timing buffer, in microseconds (R20, R81). -/
abbrev Duration := BitVec 32

/-- A signal's name: a byte string of length 0..NAME_MAX (R16). -/
abbrev Name := List Byte

/-- The two radio bands (R14): 433 has code 0 and 315 has code 1. -/
inductive Band where
  | b433
  | b315
  deriving DecidableEq, Repr, Inhabited

/-- One value for each band (`X[b]` in the spec). -/
structure PerBand (α : Type) where
  b433 : α
  b315 : α
  deriving DecidableEq, Repr

/-- A ratio pair `{high, low}` in multiples of the unit (R17). -/
structure Ratio where
  high : BitVec 8
  low  : BitVec 8
  deriving DecidableEq, Repr, Inhabited

/-- One entry of the protocol table (R17). -/
structure Protocol where
  id       : BitVec 8
  unitUs   : BitVec 16
  sync     : Ratio
  zero     : Ratio
  one      : Ratio
  inverted : Bool
  deriving DecidableEq, Repr, Inhabited

/-- What a decoder publishes (R15). -/
structure DecodeResult where
  code        : BitVec 32
  bitLength   : BitVec 8
  protocolId  : BitVec 8
  unitDelayUs : BitVec 16
  deriving DecidableEq, Repr

/-- A stored or captured signal (R16); `name = none` differs from the empty name. -/
structure Signal where
  address     : BitVec 24
  key         : BitVec 8
  band        : Band
  protocolId  : BitVec 8
  unitDelayUs : BitVec 16
  name        : Option Name
  deriving DecidableEq, Repr, Inhabited

/-- The request handed to the Encoder outside the block (R18). -/
structure TxRequest where
  code        : BitVec 32
  bitLength   : BitVec 8
  protocolId  : BitVec 8
  unitDelayUs : BitVec 16
  repeatCount : BitVec 8
  band        : Band
  deriving DecidableEq, Repr

end Sys2Proof
end

