-- ==== Sys2Proof/Config.lean ====
section
/-! DEFINITION. The implementation parameters of 00_scope.md R5 to R8, the constants of the parameters it leaves open, and the free values. -/

namespace Sys2Proof

/-- The parameters of one instance of the block. Those of R5 carry the source's default; those of R6
(`pt`, `nameMax`, `defaultProto`, `defaultUnit`) are OPEN and have none. `N` of the spec is `pt.length`. -/
structure Config where
  /-- `CAP`: entries in each timing buffer. -/
  cap : Nat := 67
  /-- `SEPARATION_LIMIT_US`: a longer duration is a sync-gap candidate. -/
  separationLimitUs : Nat := 4300
  /-- `SYNC_MATCH_US`: largest difference of two consistent gaps. -/
  syncMatchUs : Nat := 200
  /-- `TOLERANCE_PCT`: matching tolerance, a percentage of the unit delay. -/
  tolerancePct : Nat := 60
  /-- `MIN_PAIRS`: a match needs more pairs than this. -/
  minPairs : Nat := 3
  /-- `MAX`: slots in the signal store. -/
  maxSlots : Nat := 10
  /-- `DEFAULT_REPEAT`: repeat count of a transmit request. -/
  defaultRepeat : BitVec 8 := 3
  /-- `PT[1..N]`, in ascending id order (OPEN). -/
  pt : List Protocol
  /-- `NAME_MAX`: largest length of a name in bytes (OPEN). -/
  nameMax : Nat
  /-- `DEFAULT_PROTO[b]` (OPEN). -/
  defaultProto : PerBand (BitVec 8)
  /-- `DEFAULT_UNIT[b]` (OPEN). -/
  defaultUnit : PerBand (BitVec 16)
  deriving DecidableEq, Repr

/-- `TX_BITS`: bit length placed in every transmit request (R7). -/
def Config.txBits : BitVec 8 := 24

/-- The constraints of R8 between the parameters, and R6's bound on `NAME_MAX`. -/
structure Config.Sized (c : Config) : Prop where
  cap_ge : 2 ≤ c.cap
  cap_le : c.cap ≤ 256
  max_ge : 1 ≤ c.maxSlots
  max_le : c.maxSlots ≤ 255
  tolerance_le : c.tolerancePct ≤ 255
  separation_lt : c.separationLimitUs < 2 ^ 32
  sync_lt : c.syncMatchUs < 2 ^ 32
  minPairs_le : c.minPairs ≤ 255
  nameMax_le : c.nameMax ≤ 255

/-- A well-formed protocol table (R6, R43): `1 ≤ N ≤ 255`, entry `p` carries id `p`, and its sync pair is not `{0, 0}`. -/
structure Config.TableOk (c : Config) : Prop where
  size_ge : 1 ≤ c.pt.length
  size_le : c.pt.length ≤ 255
  ids : ∀ k P, c.pt[k]? = some P → P.id.toNat = k + 1
  sync : ∀ P ∈ c.pt, 1 ≤ max P.sync.high.toNat P.sync.low.toNat

/-- The constraint of R6 on the protocols that `SENDR` uses: `1 ≤ DEFAULT_PROTO[b] ≤ N` for both bands. -/
structure Config.DefaultsOk (c : Config) : Prop where
  b433_ge : 1 ≤ c.defaultProto.b433.toNat
  b433_le : c.defaultProto.b433.toNat ≤ c.pt.length
  b315_ge : 1 ≤ c.defaultProto.b315.toNat
  b315_le : c.defaultProto.b315.toNat ≤ c.pt.length

/-- A configuration that meets every constraint of R6 and R8. -/
structure Config.Legal (c : Config) : Prop where
  sized : c.Sized
  table : c.TableOk
  defaults : c.DefaultsOk

/-- OPEN parameter `N` of the platform (R6): `N - 1` is some number in `0..254`. -/
opaque Config.openLast : Fin 255

/-- OPEN entries of the platform's table (R6, 91_not_in_source.md N1): the unit, the ratios of the symbols and the
inversion of the entry at index `k`. -/
opaque Config.openEntry : Nat → Protocol

/-- OPEN sync pair of the entry at index `k`: `256 * high + low - 1`, any pair but `{0, 0}` (R43). -/
opaque Config.openSync : Nat → Fin 65535

/-- The entry at index `k` of the platform's table: it carries id `k + 1` and a sync pair that is not `{0, 0}` (R43). -/
def Config.openProtocol (k : Nat) : Protocol :=
  let sync := (Config.openSync k).val + 1
  { Config.openEntry k with
    id := BitVec.ofNat 8 (k + 1)
    sync := { high := BitVec.ofNat 8 (sync / 256), low := BitVec.ofNat 8 sync } }

/-- OPEN parameter `PT` of the platform (R6): some well-formed table. -/
def Config.openTable : List Protocol := (List.range (Config.openLast.val + 1)).map Config.openProtocol

/-- OPEN parameter `NAME_MAX` of the platform (R6): some number in `0..255`. -/
opaque Config.openNameMax : Fin 256

/-- OPEN parameter `DEFAULT_PROTO[b]` of the platform (R6): the index of some entry of its table. -/
opaque Config.openDefaultProto : Band → Fin (Config.openLast.val + 1)

/-- `DEFAULT_PROTO[b]` of the platform: an id in `1..N` (R6). -/
def Config.openDefaultId (b : Band) : BitVec 8 := BitVec.ofNat 8 ((Config.openDefaultProto b).val + 1)

/-- OPEN parameter `DEFAULT_UNIT[b]` of the platform (R6). -/
opaque Config.openDefaultUnit : Band → BitVec 16

/-- The configuration `State.reset` starts with: the source's defaults (R5), and the open parameters left open within
the constraints of R6 (log 2). -/
def Config.platform : Config where
  pt := Config.openTable
  nameMax := Config.openNameMax.val
  defaultProto := ⟨Config.openDefaultId .b433, Config.openDefaultId .b315⟩
  defaultUnit := ⟨Config.openDefaultUnit .b433, Config.openDefaultUnit .b315⟩

/-- FREE VALUE: whether the surrounding software saves the list after a `CLEAR` (91_not_in_source.md N10 has neither
answer assumed, log 16). -/
opaque Config.saveAfterClear : Bool

/-- FREE VALUE: what entry `i` of `T[b]` reads as before anything has been written to it (R275, log 7). -/
opaque Config.unwrittenTiming : Band → Nat → Duration

/-- FREE VALUE: what slot `k` of `S` reads as before anything has been written to it (R275, log 7). -/
opaque Config.unwrittenSlot : Nat → Signal

end Sys2Proof
end

