-- ==== Sys2Proof/Syntax.lean ====
section
/-! DEFINITION. The operations (one constructor per row of spec/opcode_table.json), and the transactions and responses that cross the ports. -/

namespace Sys2Proof

/-- The operations of RFDEC. A command's operands are the fields it uses (30_encoding.md R84); fields it ignores are not operands. -/
inductive Instr where
  /-- `FEED(b, d)`, edge port `b` (R110). -/
  | feed (b : Band) (d : Duration)
  /-- `APPEND sig` (R204). -/
  | append (sig : Signal)
  /-- `GET u` (R205). -/
  | get (u : BitVec 8)
  /-- `REMOVE u` (R206). -/
  | remove (u : BitVec 8)
  /-- `RENAME u, name` (R207). -/
  | rename (u : BitVec 8) (name : Name)
  /-- `FIND name` (R208). -/
  | find (name : Name)
  /-- `CLEAR` (R209). -/
  | clear
  /-- `STAT` (R210). -/
  | stat
  /-- `CAPEN` (R169). -/
  | capen
  /-- `CAPDIS` (R170). -/
  | capdis
  /-- `POLL b` (R168). -/
  | poll (b : Band)
  /-- `SENDS sig` (R171): the signal without its name, which is not used. -/
  | sends (address : BitVec 24) (key : BitVec 8) (band : Band) (protocolId : BitVec 8) (unitDelayUs : BitVec 16)
  /-- `SENDR address, key, band` (R172). -/
  | sendr (address : BitVec 24) (key : BitVec 8) (band : Band)
  /-- `RDCTR` (R174). -/
  | rdctr
  /-- `RDLRX` (R175). -/
  | rdlrx
  /-- `RDLCAP` (R176). -/
  | rdlcap
  /-- `CTRRST` (R177). -/
  | ctrrst
  deriving DecidableEq, Repr

/-- The three ports (R80). -/
inductive Port where
  | edge (b : Band)
  | command
  deriving DecidableEq, Repr

/-- Format C, one transaction on the command port (R83). `nbytes` is the name operand read as one number,
byte `i` at bits `8i+7:8i`; its width is `8 * NAME_MAX`, a parameter, so it is a number and not a word (log 10). -/
structure Transaction where
  cw     : BitVec 16
  sigw   : BitVec 64
  nlen   : BitVec 8
  nbytes : Nat
  deriving DecidableEq, Repr

/-- A whole request on one port: a format-E word or a format-C transaction (R80). -/
inductive Request where
  | edge (b : Band) (word : BitVec 32)
  | command (t : Transaction)
  deriving DecidableEq, Repr

/-- Why a command transaction is illegal: R93 (a) to (e), in that order. -/
inductive Illegal where
  /-- (a) `op` is not in the opcode map. -/
  | unknownOpcode
  /-- (b) `arg` is not 0 where it must be. -/
  | nonzeroArg
  /-- (c) `arg[7:1]` is not 0 for `POLL`. -/
  | pollArg
  /-- (d) `sigw[63:58]` is not 0 and `sigw` is used. -/
  | reservedBits
  /-- (e) `nlen > NAME_MAX` and the name operand is used. -/
  | nameTooLong
  deriving DecidableEq, Repr

/-- The status codes of R90. -/
inductive Status where
  | ok
  | none
  | okEvict
  | tx
  | received
  | captured
  | duplicate
  | indexOutOfRange
  | nameNotFound
  | illegalCmd
  deriving DecidableEq, Repr

/-- Format CR, the response of a command (R89). A field a response does not use is zero. -/
structure CmdResponse where
  status : Status
  idx    : BitVec 8 := 0
  flags  : BitVec 8 := 0
  w0     : BitVec 64 := 0
  nlen   : BitVec 8 := 0
  nbytes : Nat := 0
  c0     : BitVec 32 := 0
  c1     : BitVec 32 := 0
  deriving DecidableEq, Repr

/-- Format ER, the response of `FEED` (R82). -/
structure EdgeResponse where
  valid : Bool
  resw  : BitVec 64
  deriving DecidableEq, Repr

end Sys2Proof
end

