-- ==== Sys2Proof/WellFormed.lean ====
section
/-! DEFINITION. Which instructions a transaction can carry: a name operand is no longer than NAME_MAX (30_encoding.md R86, R93 (e)); every other operand field is as wide as its type. -/

namespace Sys2Proof

/-- A name that fits the name operand (R86). -/
def nameFits (nameMax : Nat) (name : Name) : Bool := decide (name.length ≤ nameMax)

/-- The instructions that some legal request carries, for a given `NAME_MAX`. -/
def wellFormed (nameMax : Nat) : Instr → Bool
  | .feed _ _ => true
  | .append sig => match sig.name with
    | none => true
    | some name => nameFits nameMax name
  | .get _ => true
  | .remove _ => true
  | .rename _ name => nameFits nameMax name
  | .find name => nameFits nameMax name
  | .clear => true
  | .stat => true
  | .capen => true
  | .capdis => true
  | .poll _ => true
  | .sends _ _ _ _ _ => true
  | .sendr _ _ _ => true
  | .rdctr => true
  | .rdlrx => true
  | .rdlcap => true
  | .ctrrst => true

end Sys2Proof
end

