-- ==== Sys2Proof/Decode.lean ====
section
/-! DEFINITION. The encodings of 30_encoding.md: band and status codes, the opcode map, record packing, the decoder (total, rejecting by name) and the encoder. -/

namespace Sys2Proof

/-! ### Codes -/

/-- The band code (R14): 433 is 0, 315 is 1. -/
def Band.code : Band → BitVec 1
  | .b433 => 0
  | .b315 => 1

/-- The band a code stands for (R14). -/
def Band.ofCode (c : BitVec 1) : Band := if c = 0 then .b433 else .b315

/-- The status codes (R90). -/
def Status.code : Status → BitVec 8
  | .ok => 0x00
  | .none => 0x01
  | .okEvict => 0x02
  | .tx => 0x03
  | .received => 0x04
  | .captured => 0x05
  | .duplicate => 0x10
  | .indexOutOfRange => 0x11
  | .nameNotFound => 0x12
  | .illegalCmd => 0x1F

/-- The commands of the opcode map (R84). -/
inductive Opcode where
  | append | get | remove | rename | find | clear | stat
  | capen | capdis | poll | sends | sendr | rdctr | rdlrx | rdlcap | ctrrst
  deriving DecidableEq, Repr

/-- The opcode map (R84). -/
def Opcode.code : Opcode → BitVec 8
  | .append => 0x01
  | .get => 0x02
  | .remove => 0x03
  | .rename => 0x04
  | .find => 0x05
  | .clear => 0x06
  | .stat => 0x07
  | .capen => 0x10
  | .capdis => 0x11
  | .poll => 0x12
  | .sends => 0x13
  | .sendr => 0x14
  | .rdctr => 0x15
  | .rdlrx => 0x16
  | .rdlcap => 0x17
  | .ctrrst => 0x18

/-- Every command of the opcode map. -/
def Opcode.all : List Opcode :=
  [.append, .get, .remove, .rename, .find, .clear, .stat,
   .capen, .capdis, .poll, .sends, .sendr, .rdctr, .rdlrx, .rdlcap, .ctrrst]

/-- The command an `op` field names, if any (R84; R93 (a) otherwise). -/
def Opcode.ofCode (c : BitVec 8) : Option Opcode := Opcode.all.find? fun op => op.code == c

/-! ### Record packing -/

/-- A bit as a one-bit field. -/
def bit1 (b : Bool) : BitVec 1 := if b then 1 else 0

/-- A name as the number its bytes make, byte `i` at bits `8i+7:8i` (R64, R86). -/
def packName : Name → Nat
  | [] => 0
  | b :: rest => b.toNat + 256 * packName rest

/-- The first `len` bytes of a name operand (R86, R91). -/
def unpackName : Nat → Nat → Name
  | 0, _ => []
  | len + 1, n => BitVec.ofNat 8 n :: unpackName len (n / 256)

/-- `SIGW` from its fields (R85); the reserved bits 63:58 are 0. -/
def packSigFields (address : BitVec 24) (key : BitVec 8) (band : Band) (protocolId : BitVec 8)
    (unitDelayUs : BitVec 16) (nameValid : Bool) : BitVec 64 :=
  0#6 ++ bit1 nameValid ++ band.code ++ unitDelayUs ++ protocolId ++ key ++ address

/-- `SIGW` of a signal (R85). -/
def packSig (s : Signal) : BitVec 64 :=
  packSigFields s.address s.key s.band s.protocolId s.unitDelayUs s.name.isSome

/-- `address`, bits 23:0 of `SIGW` (R85). -/
def sigAddress (w : BitVec 64) : BitVec 24 := w.extractLsb' 0 24

/-- `key`, bits 31:24 of `SIGW` (R85). -/
def sigKey (w : BitVec 64) : BitVec 8 := w.extractLsb' 24 8

/-- `protocol_id`, bits 39:32 of `SIGW` (R85). -/
def sigProtocol (w : BitVec 64) : BitVec 8 := w.extractLsb' 32 8

/-- `unit_delay_us`, bits 55:40 of `SIGW` (R85). -/
def sigUnit (w : BitVec 64) : BitVec 16 := w.extractLsb' 40 16

/-- `band`, bit 56 of `SIGW` (R85). -/
def sigBand (w : BitVec 64) : Band := Band.ofCode (w.extractLsb' 56 1)

/-- `name_valid`, bit 57 of `SIGW` (R85). -/
def sigNameValid (w : BitVec 64) : Bool := w.extractLsb' 57 1 == 1

/-- The reserved bits 63:58 of `SIGW` (R85). -/
def sigReserved (w : BitVec 64) : BitVec 6 := w.extractLsb' 58 6

/-- `RESW` (R87). -/
def packResult (r : DecodeResult) : BitVec 64 :=
  r.unitDelayUs ++ r.protocolId ++ r.bitLength ++ r.code

/-- `TXW` (R88): the fields it shares with `RESW`, at the same bits. -/
def packTx (t : TxRequest) : BitVec 64 :=
  t.unitDelayUs ++ t.protocolId ++ t.bitLength ++ t.code

/-! ### The decoder -/

/-- `op`, bits 15:8 of the command word (R83). -/
def opField (cw : BitVec 16) : BitVec 8 := cw.extractLsb' 8 8

/-- `arg`, bits 7:0 of the command word (R83). -/
def argField (cw : BitVec 16) : BitVec 8 := cw.extractLsb' 0 8

/-- The name operand of a transaction (R86, R91). -/
def Transaction.name (t : Transaction) : Name := unpackName t.nlen.toNat t.nbytes

/-- The signal operand of a transaction (R91). -/
def Transaction.signal (t : Transaction) : Signal where
  address := sigAddress t.sigw
  key := sigKey t.sigw
  band := sigBand t.sigw
  protocolId := sigProtocol t.sigw
  unitDelayUs := sigUnit t.sigw
  name := if sigNameValid t.sigw then some t.name else none

/-- The commands whose `arg` must be 0 (R83, R84). -/
def Opcode.argMustBeZero : Opcode → Bool
  | .get | .remove | .rename | .poll => false
  | _ => true

/-- The commands that use `sigw` (R93 (d)). -/
def Opcode.usesSigw : Opcode → Bool
  | .append | .sends | .sendr => true
  | _ => false

/-- The commands that use the name operand (R93 (e)); `APPEND` does when `name_valid = 1`. -/
def Opcode.usesName (op : Opcode) (sigw : BitVec 64) : Bool :=
  match op with
  | .rename | .find => true
  | .append => sigNameValid sigw
  | _ => false

/-- Why a transaction with a known opcode is illegal, if it is (R93 (b) to (e), in that order). -/
def illegalCause (nameMax : Nat) (op : Opcode) (t : Transaction) : Option Illegal :=
  if op.argMustBeZero && argField t.cw != 0 then some .nonzeroArg
  else if op == .poll && (argField t.cw).extractLsb' 1 7 != 0 then some .pollArg
  else if op.usesSigw && sigReserved t.sigw != 0 then some .reservedBits
  else if op.usesName t.sigw && decide (nameMax < t.nlen.toNat) then some .nameTooLong
  else none

/-- The instruction a legal transaction carries (R84, R91). -/
def instrOf (op : Opcode) (t : Transaction) : Instr :=
  match op with
  | .append => .append t.signal
  | .get => .get (argField t.cw)
  | .remove => .remove (argField t.cw)
  | .rename => .rename (argField t.cw) t.name
  | .find => .find t.name
  | .clear => .clear
  | .stat => .stat
  | .capen => .capen
  | .capdis => .capdis
  | .poll => .poll (Band.ofCode ((argField t.cw).extractLsb' 0 1))
  | .sends => .sends (sigAddress t.sigw) (sigKey t.sigw) (sigBand t.sigw) (sigProtocol t.sigw) (sigUnit t.sigw)
  | .sendr => .sendr (sigAddress t.sigw) (sigKey t.sigw) (sigBand t.sigw)
  | .rdctr => .rdctr
  | .rdlrx => .rdlrx
  | .rdlcap => .rdlcap
  | .ctrrst => .ctrrst

/-- The command decoder (R93, R94): one of the 16 commands, or the cause that makes the transaction illegal. -/
def decodeCommand (nameMax : Nat) (t : Transaction) : Except Illegal Instr :=
  match Opcode.ofCode (opField t.cw) with
  | none => .error .unknownOpcode
  | some op =>
    match illegalCause nameMax op t with
    | some e => .error e
    | none => .ok (instrOf op t)

/-- The decoder: total on any request; every word on an edge port is a `FEED` (R81, R94, R95). -/
def decode (nameMax : Nat) : Request → Except Illegal Instr
  | .edge b w => .ok (.feed b w)
  | .command t => decodeCommand nameMax t

/-! ### The encoder -/

/-- The command word of an opcode and an argument (R83). -/
def commandWord (op : Opcode) (arg : BitVec 8) : BitVec 16 := op.code ++ arg

/-- A transaction with no operand. -/
def plainCommand (op : Opcode) (arg : BitVec 8) : Request :=
  .command { cw := commandWord op arg, sigw := 0, nlen := 0, nbytes := 0 }

/-- A transaction with a signal operand and no name. -/
def sigwCommand (op : Opcode) (sigw : BitVec 64) : Request :=
  .command { cw := commandWord op 0, sigw := sigw, nlen := 0, nbytes := 0 }

/-- A transaction with a name operand (R86). For a name longer than 255 bytes, which no 8-bit `nlen` carries, the spec
says nothing; the model sends `nlen` modulo 256, and so a shorter name (DESIGN CHOICE, log 12, log 13). -/
def nameCommand (op : Opcode) (arg : BitVec 8) (sigw : BitVec 64) (name : Name) : Request :=
  .command { cw := commandWord op arg, sigw := sigw, nlen := BitVec.ofNat 8 name.length, nbytes := packName name }

/-- The request that carries an instruction; operand fields it does not use are 0 (R81, R83 to R86). -/
def encode : Instr → Request
  | .feed b d => .edge b d
  | .append sig => match sig.name with
    | none => sigwCommand .append (packSig sig)
    | some name => nameCommand .append 0 (packSig sig) name
  | .get u => plainCommand .get u
  | .remove u => plainCommand .remove u
  | .rename u name => nameCommand .rename u 0 name
  | .find name => nameCommand .find 0 0 name
  | .clear => plainCommand .clear 0
  | .stat => plainCommand .stat 0
  | .capen => plainCommand .capen 0
  | .capdis => plainCommand .capdis 0
  | .poll b => plainCommand .poll (b.code.setWidth 8)
  | .sends address key band protocolId unitDelayUs =>
    sigwCommand .sends (packSigFields address key band protocolId unitDelayUs false)
  | .sendr address key band => sigwCommand .sendr (packSigFields address key band 0 0 false)
  | .rdctr => plainCommand .rdctr 0
  | .rdlrx => plainCommand .rdlrx 0
  | .rdlcap => plainCommand .rdlcap 0
  | .ctrrst => plainCommand .ctrrst 0

/-! ### One number for a whole request -/

/-- A request laid out in one number (log 8): 32 bits are a format-E word on edge port 0; otherwise a format-C
transaction with `cw` at bits 15:0, then `sigw`, `nlen` and `nbytes`. -/
def Request.ofWord (nbits w : Nat) : Request :=
  if nbits = 32 then .edge .b433 (BitVec.ofNat 32 w)
  else .command {
    cw := BitVec.ofNat 16 w
    sigw := BitVec.ofNat 64 (w >>> 16)
    nlen := BitVec.ofNat 8 (w >>> 80)
    nbytes := w >>> 88 }

end Sys2Proof

/-- The instruction the decoder reads from an opcode-table word. `NAME_MAX` is taken as 0: a table word has no name
operand, and a request that is legal for `NAME_MAX = 0` is read the same for every `NAME_MAX`. -/
def Sys2Proof.decodeTableWord (nbits w : Nat) : Option Sys2Proof.Instr :=
  match Sys2Proof.decode 0 (Sys2Proof.Request.ofWord nbits w) with
  | .ok i => some i
  | .error _ => none
end

