-- ==== Sys2Proof/Machine/State.lean ====
section
/-! DEFINITION. The state of RFDEC as plain data, the reasons a step can stop (none), and the state after reset. -/

namespace Sys2Proof.Machine

/-- An element-addressed storage space (R60): pairs of an index and an element, indexes strictly rising; an index
nothing has been written to is not listed (log 7). -/
abbrev Memory (α : Type) := List (Nat × α)

/-- RFDEC has no faults (R255, 93_implementation_defined.md Part 1: "No behaviour of RFDEC is treated as a reachable
**fault**"). Safe: nothing stops. -/
inductive Fault where
  deriving DecidableEq, Repr

/-- Why a step can have no meaning. -/
inductive Refusal where
  /-- An instruction without a meaning, raised by `exec`'s arm alone; no arm of this model uses it. Safe. -/
  | notModelled (mnemonic : String)
  deriving DecidableEq, Repr

/-- A decoder instance: `(T[b], cc[b], rc[b])` and nothing else (R20, R21, R22, R47). -/
structure Decoder where
  timing : Memory Duration
  cc     : Nat
  rc     : Nat
  deriving DecidableEq, Repr

/-- The result handoff of one band: `(rdy[b], shadow[b])` (R28, R44, R75). -/
structure Handoff where
  rdy    : Bool
  shadow : DecodeResult
  deriving DecidableEq, Repr

/-- The signal store: `S`, `widx`, `count` (R30, R31, R42). -/
structure Store where
  slots : Memory Signal
  widx  : Nat
  count : Nat
  deriving DecidableEq, Repr

/-- The capture sequencer's registers (R26, R33 to R36). -/
structure Sequencer where
  capMode      : Bool
  lastReceived : Option Signal
  lastCaptured : Option Signal
  sendCount    : BitVec 32
  receiveCount : BitVec 32
  deriving DecidableEq, Repr

/-- The outside of the block, the MODEL's own (log 3, log 5): the streams of operations the three ports are presented
with, each in arrival order (R72), whose turn comes next (R71), and the last response of each port (R82, R89). -/
structure Ports where
  schedule : List Port
  edgeIn   : PerBand (List (BitVec 32))
  cmdIn    : List Transaction
  edgeOut  : PerBand (Option EdgeResponse)
  cmdOut   : Option CmdResponse
  deriving DecidableEq, Repr

/-- The state of RFDEC. `cfg` is the configuration of this instance, fixed (R276, log 1); `ports` is the outside. -/
structure State where
  cfg   : Config
  dec   : PerBand Decoder
  hand  : PerBand Handoff
  store : Store
  seq   : Sequencer
  ports : Ports
  deriving DecidableEq, Repr

/-- What the body of `APPEND` answers: its status and index, and the store after it (R204). -/
structure AppendOutcome where
  status : Status
  index  : Nat
  store  : Store
  deriving DecidableEq, Repr

/-- A decoder after reset (R271, R275). -/
def Decoder.reset : Decoder := { timing := [], cc := 0, rc := 0 }

/-- A handoff after reset (R274); the spec gives `shadow[b]` no reset value, all zero is a DESIGN CHOICE (log 6). -/
def Handoff.reset : Handoff :=
  { rdy := false, shadow := { code := 0, bitLength := 0, protocolId := 0, unitDelayUs := 0 } }

/-- The store after reset (R272, R275). -/
def Store.reset : Store := { slots := [], widx := 0, count := 0 }

/-- The sequencer after reset (R273). -/
def Sequencer.reset : Sequencer :=
  { capMode := false, lastReceived := none, lastCaptured := none, sendCount := 0, receiveCount := 0 }

/-- The ports after reset: nothing presented, nothing answered (log 3, log 5). -/
def Ports.reset : Ports :=
  { schedule := [], edgeIn := ⟨[], []⟩, cmdIn := [], edgeOut := ⟨none, none⟩, cmdOut := none }

/-- The state after reset of an instance with configuration `c` (R270 to R277). -/
def State.resetWith (c : Config) : State where
  cfg := c
  dec := ⟨Decoder.reset, Decoder.reset⟩
  hand := ⟨Handoff.reset, Handoff.reset⟩
  store := Store.reset
  seq := Sequencer.reset
  ports := Ports.reset

/-- The state after reset of the platform's instance (log 2). -/
def State.reset : State := State.resetWith Config.platform

end Sys2Proof.Machine
end

