-- ==== Sys2Proof/Machine/Ops.lean ====
section
/-! DEFINITION. The named operations over storage spaces and registers, the taking of a request from a port, and the response that an error is (the spec's counterpart of taking an exception, R255). -/

namespace Sys2Proof

/-- `X[b]`. -/
def PerBand.get {α : Type} (p : PerBand α) : Band → α
  | .b433 => p.b433
  | .b315 => p.b315

/-- `X[b] <- v`. -/
def PerBand.set {α : Type} (p : PerBand α) (b : Band) (v : α) : PerBand α :=
  match b with
  | .b433 => { p with b433 := v }
  | .b315 => { p with b315 := v }

namespace Machine

/-! ### Arithmetic (R10, R179) -/

/-- `absdiff(a, b)` (R10). -/
def absdiff (a b : Nat) : Nat := if b ≤ a then a - b else b - a

/-- `SatInc(c)` (R179). -/
def satInc (c : BitVec 32) : BitVec 32 := if c.toNat < 2 ^ 32 - 1 then c + 1 else c

/-! ### Storage spaces (R60, R66) -/

/-- The canonical form: indexes strictly rising. -/
def Memory.wf {α : Type} : Memory α → Bool
  | [] => true
  | [_] => true
  | (i, _) :: (j, v) :: rest => decide (i < j) && Memory.wf ((j, v) :: rest)

/-- The element at index `i`, if one has been written. -/
def Memory.read? {α : Type} : Memory α → Nat → Option α
  | [], _ => none
  | (j, v) :: rest, i => if i = j then some v else Memory.read? rest i

/-- `MemWrite(space, i, v)` (R11). -/
def Memory.write {α : Type} : Memory α → Nat → α → Memory α
  | [], i, v => [(i, v)]
  | (j, w) :: rest, i, v =>
    if i < j then (i, v) :: (j, w) :: rest
    else if i = j then (i, v) :: rest
    else (j, w) :: Memory.write rest i v

/-- `T[b][i]`; an entry nothing has been written to reads as a free value (R24, R275, log 7). -/
def timingAt (b : Band) (d : Decoder) (i : Nat) : Duration :=
  (d.timing.read? i).getD (Config.unwrittenTiming b i)

/-- `S[k]`; a slot nothing has been written to reads as a free value (R42, R275, log 7). -/
def slotAt (st : Store) (k : Nat) : Signal :=
  (st.slots.read? k).getD (Config.unwrittenSlot k)

/-! ### Registers, by owner (R46) -/

/-- Decoder `b`'s state becomes `d`. -/
def State.setDec (s : State) (b : Band) (d : Decoder) : State := { s with dec := s.dec.set b d }

/-- Band `b`'s handoff becomes `h`. -/
def State.setHand (s : State) (b : Band) (h : Handoff) : State := { s with hand := s.hand.set b h }

/-- The store becomes `st`. -/
def State.setStore (s : State) (st : Store) : State := { s with store := st }

/-- The sequencer's registers become `q`. -/
def State.setSeq (s : State) (q : Sequencer) : State := { s with seq := q }

/-- The level output `rdy[b]` (R249). -/
def State.rdyOutput (s : State) (b : Band) : Bool := (s.hand.get b).rdy

/-! ### Responses (R82, R89) and errors (R12, R255) -/

/-- Edge port `b` answers `r`. -/
def State.respondEdge (s : State) (b : Band) (r : EdgeResponse) : State :=
  { s with ports := { s.ports with edgeOut := s.ports.edgeOut.set b r } }

/-- The command port answers `r`. -/
def State.respond (s : State) (r : CmdResponse) : State :=
  { s with ports := { s.ports with cmdOut := some r } }

/-- `raise X(info)` (R12, R255, R256): the command port answers the error `X`, with an index where the error carries
one (R241); nothing else is written and nothing is saved. There is no return from it. -/
def State.raise (s : State) (e : Status) (idx : BitVec 8) : State :=
  s.respond { status := e, idx := idx }

/-- What an illegal transaction does (R93, R244): `ILLEGAL_CMD`, every other response field zero, no state change. -/
def answerIllegal (s : State) : State := s.raise .illegalCmd 0

/-! ### Requests (R71, R72, R80) -/

/-- The agent whose turn it is takes the oldest operation presented on its port. With no turn left nothing happens;
an agent with nothing presented lets its turn pass (log 4). -/
def fetch (s : State) : Option Request × State :=
  match s.ports.schedule with
  | [] => (none, s)
  | .edge b :: turns =>
    match s.ports.edgeIn.get b with
    | [] => (none, { s with ports := { s.ports with schedule := turns } })
    | w :: more =>
      (some (.edge b w), { s with ports := { s.ports with schedule := turns, edgeIn := s.ports.edgeIn.set b more } })
  | .command :: turns =>
    match s.ports.cmdIn with
    | [] => (none, { s with ports := { s.ports with schedule := turns } })
    | t :: more => (some (.command t), { s with ports := { s.ports with schedule := turns, cmdIn := more } })

/-- The request is presented on its port ahead of what waits there, and its agent has the next turn. -/
def present (s : State) : Request → State
  | .edge b w =>
    { s with ports := { s.ports with
        schedule := .edge b :: s.ports.schedule
        edgeIn := s.ports.edgeIn.set b (w :: s.ports.edgeIn.get b) } }
  | .command t =>
    { s with ports := { s.ports with
        schedule := .command :: s.ports.schedule
        cmdIn := t :: s.ports.cmdIn } }

end Machine

end Sys2Proof
end

