-- ==== Sys2Proof/Machine/Operands.lean ====
section
/-! DEFINITION. The operand forms of the commands: an age-ordered index (R91, R200, R201), a signal and its identity (R202, R203), a name (R215), and a signal in a response (R92). -/

namespace Sys2Proof.Machine

/-- `u = zext(arg)` (R91). -/
def indexOperand (u : BitVec 8) : Nat := u.toNat

/-- `Valid(u)`: `1 ≤ u ≤ count` (R201). -/
def validIndex (st : Store) (u : Nat) : Bool := decide (1 ≤ u ∧ u ≤ st.count)

/-- `Slot(u) = (widx + MAX - 1 - (count - u)) mod MAX` (R200). -/
def slot (maxSlots : Nat) (st : Store) (u : Nat) : Nat :=
  (st.widx + maxSlots - 1 - (st.count - u)) % maxSlots

/-- `S[Slot(u)]`. -/
def signalAt (maxSlots : Nat) (st : Store) (u : Nat) : Signal := slotAt st (slot maxSlots st u)

/-- The age-ordered indexes `1, 2, ..., count`, oldest first. -/
def ages (st : Store) : List Nat := List.range' 1 st.count

/-- `SameId(x, y)` (R203). -/
def sameId (x y : Signal) : Bool := x.address == y.address && x.key == y.key && x.band == y.band

/-- `FindDup(sig)` (R202): the least `u` in `1..count` whose signal has the same identity. -/
def findDup (maxSlots : Nat) (st : Store) (sig : Signal) : Option Nat :=
  (ages st).find? fun u => sameId (signalAt maxSlots st u) sig

/-- The least `u` in `1..count` whose signal carries the name (R208, R215: no name equals `none`). -/
def findName (maxSlots : Nat) (st : Store) (name : Name) : Option Nat :=
  (ages st).find? fun u => (signalAt maxSlots st u).name == some name

/-- An age-ordered index as a response field (R92). -/
def indexField (u : Nat) : BitVec 8 := BitVec.ofNat 8 u

/-- The bytes of a signal's name in a response; none for `name = none` (R85, R89). -/
def nameField (sig : Signal) : Name := sig.name.getD []

/-- A response that carries a signal: `w0 = SIGW(sig)` and its name (R89, R92). -/
def sigResponse (status : Status) (idx : BitVec 8) (sig : Signal) : CmdResponse where
  status := status
  idx := idx
  w0 := packSig sig
  nlen := BitVec.ofNat 8 (nameField sig).length
  nbytes := packName (nameField sig)

/-- A response that carries a transmit request: `TXW` in `w0`, `repeat_count` in `idx`, `band` in `flags[0]` (R88). -/
def txResponse (t : TxRequest) : CmdResponse where
  status := .tx
  idx := t.repeatCount
  flags := t.band.code.setWidth 8
  w0 := packTx t

/-- The response of `FEED` (R82). -/
def edgeResponse : Option DecodeResult → EdgeResponse
  | some r => { valid := true, resw := packResult r }
  | none => { valid := false, resw := 0 }

end Sys2Proof.Machine
end

