-- ==== Sys2Proof/Machine/Decoder.lean ====
section
/-! DEFINITION. The decoder family (40_decoder.md): FEED, the sync-gap detector, the edge accumulator, the protocol matcher, and the publishing of a result. -/

namespace Sys2Proof.Machine

/-! ### The protocol matcher (R119 to R126) -/

/-- `sp`: the longer ratio of the sync pair (R120). -/
def syncPulses (P : Protocol) : Nat := max P.sync.low.toNat P.sync.high.toNat

/-- `tol = (ud * TOLERANCE_PCT) / 100`, multiply first (R120). -/
def tolerance (c : Config) (ud : Nat) : Nat := ud * c.tolerancePct / 100

/-- `i0`: the first data index (R121). -/
def firstData (P : Protocol) : Nat := if P.inverted then 2 else 1

/-- The complete pairs of a list of durations; an entry without a partner is ignored (R122). -/
def pairsOf : List Duration → List (Duration × Duration)
  | a :: c :: rest => (a, c) :: pairsOf rest
  | _ => []

/-- Both elements of a pair are within `tol` of the ratio pair's durations, inclusively (R123). -/
def fits (ud tol : Nat) (r : Ratio) (pair : Duration × Duration) : Bool :=
  decide (absdiff pair.1.toNat (ud * r.high.toNat) ≤ tol) &&
  decide (absdiff pair.2.toNat (ud * r.low.toNat) ≤ tol)

/-- The bit a pair stands for, zero tested first; `none` when it is neither (R123). -/
def classify (P : Protocol) (ud tol : Nat) (pair : Duration × Duration) : Option Bool :=
  if fits ud tol P.zero pair then some false
  else if fits ud tol P.one pair then some true
  else none

/-- The bits of a list of pairs; `none` as soon as one pair is neither symbol (R123, R126). -/
def classifyAll (P : Protocol) (ud tol : Nat) : List (Duration × Duration) → Option (List Bool)
  | [] => some []
  | pair :: rest =>
    match classify P ud tol pair with
    | none => none
    | some bit =>
      match classifyAll P ud tol rest with
      | none => none
      | some bits => some (bit :: bits)

/-- `code <- ((code << 1) | bit) mod 2^32` (R124). -/
def pushBit (code : BitVec 32) (bit : Bool) : BitVec 32 := (code <<< 1) ||| (bit1 bit).setWidth 32

/-- The code of a list of bits, the first the most significant (R124). -/
def codeOf (bits : List Bool) : BitVec 32 := bits.foldl pushBit 0

/-- `TryMatch(P, T[0..n-1], n)` (R120 to R126). The window is the list of its `n` entries; an empty one has no gap and
no pair, so it matches nothing. -/
def tryMatch (c : Config) (window : List Duration) (P : Protocol) : Option DecodeResult :=
  match window with
  | [] => none
  | gap :: _ =>
    let sp := syncPulses P
    let ud := gap.toNat / sp
    if sp = 0 then none
    else if 0xFFFF < ud then none
    else
      match classifyAll P ud (tolerance c ud) (pairsOf (window.drop (firstData P))) with
      | none => none
      | some bits =>
        if c.minPairs < bits.length then
          some {
            code := codeOf bits
            bitLength := BitVec.ofNat 8 bits.length
            protocolId := P.id
            unitDelayUs := BitVec.ofNat 16 ud }
        else none

/-- `MatchAll`: the first success in ascending id order (R119). -/
def matchAll (c : Config) (window : List Duration) : Option DecodeResult := c.pt.findSome? (tryMatch c window)

/-! ### The sync-gap detector and the edge accumulator (R112 to R116) -/

/-- `T[b][0 .. cc[b]-1]`: the capture window. -/
def window (b : Band) (d : Decoder) : List Duration := (List.range d.cc).map (timingAt b d)

/-- A sync-gap candidate: strictly longer than the separation limit (R112). -/
def isGap (c : Config) (x : Duration) : Bool := decide (c.separationLimitUs < x.toNat)

/-- The gap counts toward the repeat count (R113, inclusive). -/
def gapCounts (c : Config) (b : Band) (d : Decoder) (x : Duration) : Bool :=
  d.rc == 0 || decide (absdiff x.toNat (timingAt b d 0).toNat ≤ c.syncMatchUs)

/-- The gap brings the repeat count to 2 (R114). -/
def gapCloses (c : Config) (b : Band) (d : Decoder) (x : Duration) : Bool :=
  gapCounts c b d x && d.rc + 1 == 2

/-- `rc[b]` after a gap (R113, R114). -/
def gapRepeat (c : Config) (b : Band) (d : Decoder) (x : Duration) : Nat :=
  if gapCloses c b d x then 0 else if gapCounts c b d x then d.rc + 1 else d.rc

/-- The decoder after a gap: the gap is entry 0 of a fresh window (R115). -/
def gapStep (c : Config) (b : Band) (d : Decoder) (x : Duration) : Decoder :=
  { timing := d.timing.write 0 x, cc := 1, rc := gapRepeat c b d x }

/-- The decoder after a data edge: appended, and the window abandoned when the buffer is full (R116). -/
def dataStep (c : Config) (d : Decoder) (x : Duration) : Decoder :=
  { timing := d.timing.write d.cc x
    cc := if d.cc + 1 = c.cap then 0 else d.cc + 1
    rc := if d.cc + 1 = c.cap then 0 else d.rc }

/-- The decoder after a sample (R111). -/
def feedDecoder (c : Config) (b : Band) (d : Decoder) (x : Duration) : Decoder :=
  if isGap c x then gapStep c b d x else dataStep c d x

/-- The result of a sample: the match on the window the previous gap opened (R111, R114, R117). -/
def feedResult (c : Config) (b : Band) (d : Decoder) (x : Duration) : Option DecodeResult :=
  if isGap c x && gapCloses c b d x then matchAll c (window b d) else none

/-! ### Delivery (R117, R118) and the operation -/

/-- `Publish(b, r)` (R118): the newest result wins. -/
def publish (s : State) (b : Band) (r : DecodeResult) : State := s.setHand b { rdy := true, shadow := r }

/-- A result, if there is one, is published. -/
def deliver (s : State) (b : Band) : Option DecodeResult → State
  | some r => publish s b r
  | none => s

/-- The state after `FEED(b, x)` (R111). -/
def feed (b : Band) (x : Duration) (s : State) : State :=
  let r := feedResult s.cfg b (s.dec.get b) x
  (deliver (s.setDec b (feedDecoder s.cfg b (s.dec.get b) x)) b r).respondEdge b (edgeResponse r)

/-- `FEED(b, x)` (R111). -/
def execFeed (b : Band) (x : Duration) (s : State) : Host.Outcome State Fault Refusal := .next (feed b x s)

end Sys2Proof.Machine
end

