-- ==== Sys2Proof/Machine/Flags.lean ====
section
/-! DEFINITION. The flag computations: RFDEC has no condition codes (R29); its flags are bit 0 of a response's `flags` field (R89). -/

namespace Sys2Proof.Machine

/-- `flags` with bit 0 as given and the other bits 0 (R89). -/
def flag0 (b : Bool) : BitVec 8 := (bit1 b).setWidth 8

/-- `full`: `count = MAX` (R27). -/
def full (maxSlots : Nat) (st : Store) : Bool := decide (st.count = maxSlots)

end Sys2Proof.Machine
end

