-- ==== Sys2Proof/Machine/Store.lean ====
section
/-! DEFINITION. The signal store family (43_signal_store.md): APPEND, GET, REMOVE, RENAME, FIND, CLEAR, STAT. -/

namespace Sys2Proof.Machine

/-- `Append(sig)` (R204): refused when a live signal has the same identity, else written at `widx`. -/
def appendSignal (maxSlots : Nat) (sig : Signal) (st : Store) : AppendOutcome :=
  match findDup maxSlots st sig with
  | some u => { status := .duplicate, index := u, store := st }
  | none =>
    let count := if st.count < maxSlots then st.count + 1 else st.count
    { status := if full maxSlots st then .okEvict else .ok
      index := count
      store := { slots := st.slots.write st.widx sig, widx := (st.widx + 1) % maxSlots, count := count } }

/-- `APPEND` (R204). -/
def execAppend (sig : Signal) (s : State) : Host.Outcome State Fault Refusal :=
  let o := appendSignal s.cfg.maxSlots sig s.store
  .next ((s.setStore o.store).respond { status := o.status, idx := indexField o.index })

/-- `GET u` (R205). -/
def execGet (u : BitVec 8) (s : State) : Host.Outcome State Fault Refusal :=
  if validIndex s.store (indexOperand u) then
    .next (s.respond (sigResponse .ok u (signalAt s.cfg.maxSlots s.store (indexOperand u))))
  else .next (s.raise .indexOutOfRange 0)

/-- `S[Slot(k)] <- S[Slot(k+1)]`, with the `widx` and `count` of entry (R206). -/
def shiftOne (maxSlots : Nat) (st : Store) (slots : Memory Signal) (k : Nat) : Memory Signal :=
  slots.write (slot maxSlots st k) (slotAt { st with slots := slots } (slot maxSlots st (k + 1)))

/-- The shift of `REMOVE u`, for `k = u, ..., count - 1`, ascending (R206). -/
def shiftDown (maxSlots : Nat) (st : Store) (u : Nat) : Memory Signal :=
  (List.range' u (st.count - u)).foldl (shiftOne maxSlots st) st.slots

/-- The store after `REMOVE u` (R206). -/
def removeSignal (maxSlots : Nat) (u : Nat) (st : Store) : Store where
  slots := shiftDown maxSlots st u
  widx := (st.widx + maxSlots - 1) % maxSlots
  count := st.count - 1

/-- `REMOVE u` (R206). -/
def execRemove (u : BitVec 8) (s : State) : Host.Outcome State Fault Refusal :=
  if validIndex s.store (indexOperand u) then
    .next ((s.setStore (removeSignal s.cfg.maxSlots (indexOperand u) s.store)).respond { status := .ok })
  else .next (s.raise .indexOutOfRange 0)

/-- The store after `RENAME u, name`: `S[Slot(u)].name <- some name` (R207). -/
def renameSignal (maxSlots : Nat) (u : Nat) (name : Name) (st : Store) : Store :=
  { st with slots := st.slots.write (slot maxSlots st u) { signalAt maxSlots st u with name := some name } }

/-- `RENAME u, name` (R207). -/
def execRename (u : BitVec 8) (name : Name) (s : State) : Host.Outcome State Fault Refusal :=
  if validIndex s.store (indexOperand u) then
    .next ((s.setStore (renameSignal s.cfg.maxSlots (indexOperand u) name s.store)).respond { status := .ok })
  else .next (s.raise .indexOutOfRange 0)

/-- `FIND name` (R208). -/
def execFind (name : Name) (s : State) : Host.Outcome State Fault Refusal :=
  match findName s.cfg.maxSlots s.store name with
  | some u => .next (s.respond (sigResponse .ok (indexField u) (signalAt s.cfg.maxSlots s.store u)))
  | none => .next (s.raise .nameNotFound 0)

/-- `CLEAR` (R209): the slots keep their contents (R48). -/
def execClear (s : State) : Host.Outcome State Fault Refusal :=
  .next ((s.setStore { s.store with widx := 0, count := 0 }).respond { status := .ok })

/-- `STAT` (R210). -/
def execStat (s : State) : Host.Outcome State Fault Refusal :=
  .next (s.respond { status := .ok, idx := indexField s.store.count, flags := flag0 (full s.cfg.maxSlots s.store) })

end Sys2Proof.Machine
end

