-- ==== Sys2Proof/Machine/Sequencer.lean ====
section
/-! DEFINITION. The capture sequencer family (42_capture_sequencer.md): POLL, CAPEN, CAPDIS, SENDS, SENDR, RDCTR, RDLRX, RDLCAP, CTRRST. -/

namespace Sys2Proof.Machine

/-- `SignalOf(r, b)` (R166): the low 24 bits of the code, key 0, no name. -/
def signalOf (r : DecodeResult) (b : Band) : Signal where
  address := r.code.extractLsb' 0 24
  key := 0
  band := b
  protocolId := r.protocolId
  unitDelayUs := r.unitDelayUs
  name := none

/-- What every delivered result does to the sequencer (R167). -/
def recordReceived (sig : Signal) (q : Sequencer) : Sequencer :=
  { q with lastReceived := some sig, receiveCount := satInc q.receiveCount }

/-- What a capture does to the sequencer beside that (R167): it disarms, whatever the append answers. -/
def recordCaptured (sig : Signal) (q : Sequencer) : Sequencer :=
  { q with lastCaptured := some sig, capMode := false }

/-- The response of a capture: the signal, and the append's index and status (R89, R167). -/
def capturedResponse (sig : Signal) (o : AppendOutcome) : CmdResponse :=
  { sigResponse .captured (indexField o.index) sig with c0 := o.status.code.setWidth 32 }

/-- `OnDecoded(sig)` (R167). -/
def onDecoded (sig : Signal) (s : State) : State :=
  let q := recordReceived sig s.seq
  if s.seq.capMode then
    let o := appendSignal s.cfg.maxSlots sig s.store
    ((s.setSeq (recordCaptured sig q)).setStore o.store).respond (capturedResponse sig o)
  else (s.setSeq q).respond (sigResponse .received 0 sig)

/-- `POLL b` (R168). -/
def execPoll (b : Band) (s : State) : Host.Outcome State Fault Refusal :=
  let h := s.hand.get b
  if h.rdy then .next (onDecoded (signalOf h.shadow b) (s.setHand b { h with rdy := false }))
  else .next (s.respond { status := .none })

/-- `CAPEN` (R169). -/
def execCapen (s : State) : Host.Outcome State Fault Refusal :=
  .next ((s.setSeq { s.seq with capMode := true, lastCaptured := none }).respond { status := .ok })

/-- `CAPDIS` (R170). -/
def execCapdis (s : State) : Host.Outcome State Fault Refusal :=
  .next ((s.setSeq { s.seq with capMode := false }).respond { status := .ok })

/-- `MakeTx(address, band, protocol_id, unit_delay_us)` (R173). -/
def makeTx (c : Config) (address : BitVec 24) (band : Band) (protocolId : BitVec 8) (unitDelayUs : BitVec 16) :
    TxRequest where
  code := address.setWidth 32
  bitLength := Config.txBits
  protocolId := protocolId
  unitDelayUs := unitDelayUs
  repeatCount := c.defaultRepeat
  band := band

/-- A transmit request is handed out and counted (R171, R172). -/
def sendTx (t : TxRequest) (s : State) : State :=
  (s.setSeq { s.seq with sendCount := satInc s.seq.sendCount }).respond (txResponse t)

/-- `SENDS sig` (R171); the key takes no part (R173). -/
def execSends (address : BitVec 24) (_key : BitVec 8) (band : Band) (protocolId : BitVec 8)
    (unitDelayUs : BitVec 16) (s : State) : Host.Outcome State Fault Refusal :=
  .next (sendTx (makeTx s.cfg address band protocolId unitDelayUs) s)

/-- `SENDR address, key, band` (R172): the per-band defaults; the key takes no part (R173). -/
def execSendr (address : BitVec 24) (_key : BitVec 8) (band : Band) (s : State) :
    Host.Outcome State Fault Refusal :=
  .next (sendTx (makeTx s.cfg address band (s.cfg.defaultProto.get band) (s.cfg.defaultUnit.get band)) s)

/-- `RDCTR` (R174). -/
def execRdctr (s : State) : Host.Outcome State Fault Refusal :=
  .next (s.respond {
    status := .ok, flags := flag0 s.seq.capMode, c0 := s.seq.sendCount, c1 := s.seq.receiveCount })

/-- The response of reading an optional signal register (R175, R176). -/
def optionResponse : Option Signal → CmdResponse
  | some sig => sigResponse .ok 0 sig
  | none => { status := .none }

/-- `RDLRX` (R175). -/
def execRdlrx (s : State) : Host.Outcome State Fault Refusal :=
  .next (s.respond (optionResponse s.seq.lastReceived))

/-- `RDLCAP` (R176). -/
def execRdlcap (s : State) : Host.Outcome State Fault Refusal :=
  .next (s.respond (optionResponse s.seq.lastCaptured))

/-- `CTRRST` (R177). -/
def execCtrrst (s : State) : Host.Outcome State Fault Refusal :=
  .next ((s.setSeq { s.seq with sendCount := 0, receiveCount := 0 }).respond { status := .ok })

end Sys2Proof.Machine
end

