-- ==== Sys2Proof/Machine/Dispatch.lean ====
section
/-! DEFINITION. One arm per constructor of Instr, each one call of its meaning. -/

namespace Sys2Proof.Machine

def exec (i : Instr) (s : State) : Host.Outcome State Fault Refusal :=
  match i with
  | .feed b d => Sys2Proof.Machine.execFeed b d s
  | .append sig => Sys2Proof.Machine.execAppend sig s
  | .get u => Sys2Proof.Machine.execGet u s
  | .remove u => Sys2Proof.Machine.execRemove u s
  | .rename u name => Sys2Proof.Machine.execRename u name s
  | .find name => Sys2Proof.Machine.execFind name s
  | .clear => Sys2Proof.Machine.execClear s
  | .stat => Sys2Proof.Machine.execStat s
  | .capen => Sys2Proof.Machine.execCapen s
  | .capdis => Sys2Proof.Machine.execCapdis s
  | .poll b => Sys2Proof.Machine.execPoll b s
  | .sends address key band protocolId unitDelayUs => Sys2Proof.Machine.execSends address key band protocolId unitDelayUs s
  | .sendr address key band => Sys2Proof.Machine.execSendr address key band s
  | .rdctr => Sys2Proof.Machine.execRdctr s
  | .rdlrx => Sys2Proof.Machine.execRdlrx s
  | .rdlcap => Sys2Proof.Machine.execRdlcap s
  | .ctrrst => Sys2Proof.Machine.execCtrrst s

end Sys2Proof.Machine
end

