-- ==== Sys2Proof/Machine/Step.lean ====
section
/-! DEFINITION. One step: the agent whose turn it is takes its oldest operation, which is decoded and executed (R66, R71, R72); an illegal transaction is answered ILLEGAL_CMD (R93, R244). -/

namespace Sys2Proof.Machine

/-- One atomic step of RFDEC. -/
def step (s : State) : Host.Outcome State Fault Refusal :=
  match fetch s with
  | (none, s') => .next s'
  | (some r, s') =>
    match decode s.cfg.nameMax r with
    | .ok i => exec i s'
    | .error _ => .next (answerIllegal s')

/-- The request of an opcode-table word, presented so that the very next step takes it (log 8, log 9). -/
def State.withFetchWord (s : State) (nbits w : Nat) : State := present s (Request.ofWord nbits w)

end Sys2Proof.Machine
end

