-- ==== Sys2Proof/Machine/Encoder.lean ====
section
/-! DEFINITION. The Encoder reference functions (41_encoder_reference.md): not an operation of RFDEC, but the consumer of its transmit requests and the source of ideal stimulus (R150). -/

namespace Sys2Proof.Machine

/-- The level of an output line (R151). -/
inductive Level where
  | active
  | inactive
  deriving DecidableEq, Repr

/-- A segment of a train (R151). -/
structure Segment where
  level      : Level
  durationUs : Nat
  deriving DecidableEq, Repr

/-- `Pair(P, unit, r)` (R151): for an inverted protocol the levels are exchanged, the durations stay in place. -/
def pulsePair (P : Protocol) (unit : Nat) (r : Ratio) : List Segment :=
  if P.inverted then [⟨.inactive, unit * r.high.toNat⟩, ⟨.active, unit * r.low.toNat⟩]
  else [⟨.active, unit * r.high.toNat⟩, ⟨.inactive, unit * r.low.toNat⟩]

/-- Bits `L-1` down to `0` of a code (R152). -/
def bitsMsbFirst (code : BitVec 32) : Nat → List Bool
  | 0 => []
  | L + 1 => code.getLsbD L :: bitsMsbFirst code L

/-- The ratio pair of a bit (R152). -/
def symbol (P : Protocol) (bit : Bool) : Ratio := if bit then P.one else P.zero

/-- One repetition of a train (R152). -/
def frame (code : BitVec 32) (L : Nat) (P : Protocol) (unit : Nat) : List Segment :=
  pulsePair P unit P.sync
    ++ (bitsMsbFirst code L).flatMap (fun bit => pulsePair P unit (symbol P bit))
    ++ pulsePair P unit P.sync

/-- `Train(code, L, P, unit, reps)` (R152). The domain of R152 is `1 ≤ L ≤ 32`; outside it the model goes on as written
(DESIGN CHOICE, log 14): for `L = 0` a repetition is its two sync pairs, above 32 the bits of the code are 0. -/
def train (code : BitVec 32) (L : Nat) (P : Protocol) (unit reps : Nat) : List Segment :=
  (List.replicate reps (frame code L P unit)).flatten

/-- `Durations(code, L, P, unit, reps)` (R154). -/
def durations (code : BitVec 32) (L : Nat) (P : Protocol) (unit reps : Nat) : List Nat :=
  (train code L P unit reps).map Segment.durationUs

/-- `PT[p]`, if `1 ≤ p ≤ N` (R43). -/
def protocolAt (c : Config) (p : BitVec 8) : Option Protocol :=
  match p.toNat with
  | 0 => none
  | k + 1 => c.pt[k]?

/-- The train a transmit request asks for (R171); none for a protocol id outside the table
(93_implementation_defined.md U6). -/
def trainOf (c : Config) (t : TxRequest) : List Segment :=
  match protocolAt c t.protocolId with
  | some P => train t.code t.bitLength.toNat P t.unitDelayUs.toNat t.repeatCount.toNat
  | none => []

end Sys2Proof.Machine
end

