-- ==== Sys2Proof/Machine/Script.lean ====
section
/-! DEFINITION. What surrounds the ports: scripts and pseudo-operations (30_encoding.md R96, R97), the text of an address and a key (R16), and the host software's restoring and persisting points (R278, R279). -/

namespace Sys2Proof.Machine

/-! ### Text -/

/-- An upper-case hexadecimal digit (R16). -/
def hexDigit (n : Nat) : Char := if n < 10 then Char.ofNat (48 + n) else Char.ofNat (55 + n)

/-- The low `k` hexadecimal digits of a number, the most significant first. -/
def hexText : Nat → Nat → List Char
  | 0, _ => []
  | k + 1, n => hexText k (n / 16) ++ [hexDigit (n % 16)]

/-- `Hex6(address)` (R16). -/
def hex6 (address : BitVec 24) : List Char := hexText 6 address.toNat

/-- `Hex2(key)` (R16). -/
def hex2 (key : BitVec 8) : List Char := hexText 2 key.toNat

/-- The value of an upper-case hexadecimal digit. -/
def hexValue (c : Char) : Option Nat :=
  if 48 ≤ c.toNat ∧ c.toNat ≤ 57 then some (c.toNat - 48)
  else if 65 ≤ c.toNat ∧ c.toNat ≤ 70 then some (c.toNat - 55)
  else none

/-- The value of a decimal digit. -/
def decValue (c : Char) : Option Nat :=
  if 48 ≤ c.toNat ∧ c.toNat ≤ 57 then some (c.toNat - 48) else none

/-- The number a list of digits stands for, continuing from `acc`. -/
def numberFrom (digit : Char → Option Nat) (base : Nat) : Nat → List Char → Option Nat
  | acc, [] => some acc
  | acc, c :: rest =>
    match digit c with
    | none => none
    | some v => numberFrom digit base (base * acc + v) rest

/-- A non-empty number that fits `w` bits. -/
def numberOf (digit : Char → Option Nat) (base w : Nat) (text : List Char) : Option (BitVec w) :=
  match text with
  | [] => none
  | _ =>
    match numberFrom digit base 0 text with
    | none => none
    | some n => if n < 2 ^ w then some (BitVec.ofNat w n) else none

/-- `<n>`, a decimal number. -/
def decOf (w : Nat) (text : List Char) : Option (BitVec w) := numberOf decValue 10 w text

/-- A hexadecimal number of exactly `digits` digits. -/
def hexOf (digits w : Nat) (text : List Char) : Option (BitVec w) :=
  if text.length = digits then numberOf hexValue 16 w text else none

/-- `<433|315>`. -/
def bandOf (text : List Char) : Option Band :=
  if text = ['4', '3', '3'] then some .b433
  else if text = ['3', '1', '5'] then some .b315
  else none

/-- What follows a prefix. -/
def after : List Char → List Char → Option (List Char)
  | [], text => some text
  | _ :: _, [] => none
  | p :: ps, c :: rest => if p = c then after ps rest else none

/-- The bytes of ASCII characters up to the closing double quote, which ends the text (R96). -/
def quotedBytes : List Char → Option Name
  | [] => none
  | c :: rest =>
    if c = '"' then (if rest = [] then some [] else none)
    else if c.toNat < 128 then (quotedBytes rest).map (BitVec.ofNat 8 c.toNat :: ·)
    else none

/-- `"<text>"` (R96). A text of any length is read, also one longer than the 255 bytes that `nlen` carries (DESIGN
CHOICE, log 13: `nameCommand` then sends `nlen` modulo 256). -/
def nameOf : List Char → Option Name
  | '"' :: rest => quotedBytes rest
  | _ => none

/-- A token ends: kept if it is not empty (`cur` holds it backwards). -/
def endToken (cur : List Char) (rest : List (List Char)) : List (List Char) :=
  if cur = [] then rest else cur.reverse :: rest

/-- The tokens of a script line: separated by spaces outside quotes, ended by `#` outside quotes (R96). -/
def tokensFrom : List Char → Bool → List Char → List (List Char)
  | cur, _, [] => endToken cur []
  | cur, quoted, c :: rest =>
    if c = '"' then tokensFrom (c :: cur) (!quoted) rest
    else if quoted then tokensFrom (c :: cur) true rest
    else if c = '#' then endToken cur []
    else if c = ' ' then endToken cur (tokensFrom [] false rest)
    else tokensFrom (c :: cur) false rest

/-- The tokens of a script line. -/
def tokens (line : List Char) : List (List Char) := tokensFrom [] false line

/-! ### Script operations (R96, R97) -/

/-- One line of a script: an operation, or a pseudo-operation. -/
inductive ScriptOp where
  | operation (i : Instr)
  | removeAll
  | list
  | train (b : Band) (code : BitVec 32) (bits : BitVec 8) (proto : BitVec 8) (unit : BitVec 16) (reps : BitVec 8)
  | send (u : BitVec 8)
  deriving DecidableEq, Repr

/-- `addr=<6 hex> key=<2 hex> band=<433|315>`. -/
def rawOf (addr key band : List Char) : Option (BitVec 24 × BitVec 8 × Band) := do
  let a ← hexOf 6 24 (← after "addr=".toList addr)
  let k ← hexOf 2 8 (← after "key=".toList key)
  let b ← bandOf (← after "band=".toList band)
  pure (a, k, b)

/-- The signal of `addr= key= band= proto= unit=`. -/
def signalOfText (addr key band proto unit : List Char) : Option Signal := do
  let (a, k, b) ← rawOf addr key band
  let p ← decOf 8 (← after "proto=".toList proto)
  let n ← decOf 16 (← after "unit=".toList unit)
  pure { address := a, key := k, band := b, protocolId := p, unitDelayUs := n, name := none }

/-- A line without operands. -/
def bareOp (m : List Char) : Option ScriptOp :=
  if m = "CLEAR".toList then some (.operation .clear)
  else if m = "STAT".toList then some (.operation .stat)
  else if m = "CAPEN".toList then some (.operation .capen)
  else if m = "CAPDIS".toList then some (.operation .capdis)
  else if m = "POLL.433".toList then some (.operation (.poll .b433))
  else if m = "POLL.315".toList then some (.operation (.poll .b315))
  else if m = "RDCTR".toList then some (.operation .rdctr)
  else if m = "RDLRX".toList then some (.operation .rdlrx)
  else if m = "RDLCAP".toList then some (.operation .rdlcap)
  else if m = "CTRRST".toList then some (.operation .ctrrst)
  else if m = "LIST".toList then some .list
  else none

/-- A line with one operand. -/
def unaryOp (m x : List Char) : Option ScriptOp :=
  if m = "FEED.433".toList then (decOf 32 x).map fun d => .operation (.feed .b433 d)
  else if m = "FEED.315".toList then (decOf 32 x).map fun d => .operation (.feed .b315 d)
  else if m = "GET".toList then (decOf 8 x).map fun u => .operation (.get u)
  else if m = "REMOVE".toList then
    if x = "all".toList then some .removeAll else (decOf 8 x).map fun u => .operation (.remove u)
  else if m = "FIND".toList then (nameOf x).map fun name => .operation (.find name)
  else if m = "SEND".toList then (decOf 8 x).map .send
  else none

/-- `TRAIN.<band> code=<hex> bits=<L> proto=<p> unit=<n> reps=<r>`. -/
def trainOp (b : Band) (code bits proto unit reps : List Char) : Option ScriptOp := do
  let k ← numberOf hexValue 16 32 (← after "code=".toList code)
  let l ← decOf 8 (← after "bits=".toList bits)
  let p ← decOf 8 (← after "proto=".toList proto)
  let n ← decOf 16 (← after "unit=".toList unit)
  let r ← decOf 8 (← after "reps=".toList reps)
  pure (.train b k l p n r)

/-- The operation the tokens of a line stand for (R96, R97). -/
def opOfTokens : List (List Char) → Option ScriptOp
  | [m] => bareOp m
  | [m, x] => unaryOp m x
  | [m, x, y] =>
    if m = "RENAME".toList then do
      let u ← decOf 8 x
      let name ← nameOf y
      pure (.operation (.rename u name))
    else none
  | [m, addr, key, band] =>
    if m = "SENDR".toList then (rawOf addr key band).map fun (a, k, b) => .operation (.sendr a k b) else none
  | [m, x1, x2, x3, x4, x5] =>
    if m = "APPEND".toList then (signalOfText x1 x2 x3 x4 x5).map fun sig => .operation (.append sig)
    else if m = "SENDS".toList then
      (signalOfText x1 x2 x3 x4 x5).map fun sig =>
        .operation (.sends sig.address sig.key sig.band sig.protocolId sig.unitDelayUs)
    else if m = "TRAIN.433".toList then trainOp .b433 x1 x2 x3 x4 x5
    else if m = "TRAIN.315".toList then trainOp .b315 x1 x2 x3 x4 x5
    else none
  | [m, x1, x2, x3, x4, x5, x6] =>
    if m = "APPEND".toList then do
      let sig ← signalOfText x1 x2 x3 x4 x5
      let name ← nameOf (← after "name=".toList x6)
      pure (.operation (.append { sig with name := some name }))
    else none
  | _ => none

/-- The operation of a script line (R96). -/
def opOfLine (line : List Char) : Option ScriptOp := opOfTokens (tokens line)

/-- The first commands of a script operation's expansion, before any response is known (R97). -/
def ScriptOp.begin (c : Config) : ScriptOp → List Instr
  | .operation i => [i]
  | .removeAll => [.clear]
  | .list => [.stat]
  | .train b code bits proto unit reps =>
    match protocolAt c proto with
    | some P => (durations code bits.toNat P unit.toNat reps.toNat).map fun d => .feed b (BitVec.ofNat 32 d)
    | none => []
  | .send u => [.get u]

/-- The rest of the expansion, from the response to its first command (R97): `LIST` gets what `STAT` counted, and
`SEND u` sends the signal that `GET u` returned. -/
def ScriptOp.continue : ScriptOp → CmdResponse → List Instr
  | .list, r => (List.range' 1 r.idx.toNat).map fun u => .get (BitVec.ofNat 8 u)
  | .send _, r =>
    if r.status = .ok then
      [.sends (sigAddress r.w0) (sigKey r.w0) (sigBand r.w0) (sigProtocol r.w0) (sigUnit r.w0)]
    else []
  | .operation _, _ => []
  | .removeAll, _ => []
  | .train _ _ _ _ _ _, _ => []

/-- An operation is presented behind all that waits, so that a script's lines execute top to bottom (R96). -/
def enqueue (s : State) (i : Instr) : State :=
  match encode i with
  | .edge b w =>
    { s with ports := { s.ports with
        schedule := s.ports.schedule ++ [.edge b]
        edgeIn := s.ports.edgeIn.set b (s.ports.edgeIn.get b ++ [w]) } }
  | .command t =>
    { s with ports := { s.ports with
        schedule := s.ports.schedule ++ [.command]
        cmdIn := s.ports.cmdIn ++ [t] } }

/-! ### The host software's use of the store (R278, R279) -/

/-- Restoring a previous session's signals: one `APPEND` each, oldest first (R278). -/
def restore (signals : List Signal) : List Instr := signals.map .append

/-- The responses after which the surrounding software saves the list (R279). R279 does not list `CLEAR`, and
91_not_in_source.md N10 has neither answer assumed: that one is a free value, the model's own (DESIGN CHOICE, log 16). -/
def savePoint : Instr → CmdResponse → Bool
  | .append _, r => r.status == .ok || r.status == .okEvict
  | .poll _, r =>
    r.status == .captured &&
      (r.c0 == Status.ok.code.setWidth 32 || r.c0 == Status.okEvict.code.setWidth 32)
  | .remove _, r => r.status == .ok
  | .rename _ _, r => r.status == .ok
  | .clear, r => r.status == .ok && Config.saveAfterClear
  | .feed _ _, _ => false
  | .get _, _ => false
  | .find _, _ => false
  | .stat, _ => false
  | .capen, _ => false
  | .capdis, _ => false
  | .sends _ _ _ _ _, _ => false
  | .sendr _ _ _, _ => false
  | .rdctr, _ => false
  | .rdlrx, _ => false
  | .rdlcap, _ => false
  | .ctrrst, _ => false

end Sys2Proof.Machine
end

