-- ==== Sys2Proof/Safety.lean ====
section
/-! DEFINITION. What the spec promises of every state: the live signals of the store, and the invariants of the decoders (R23), the handoffs (R125 to R128), the store (R32) and the sequencer (R169, R175). -/

namespace Sys2Proof.Machine

/-- The live signals, oldest first: `S[Slot(1)], ..., S[Slot(count)]` (R32 (c), R212). -/
def live (maxSlots : Nat) (st : Store) : List Signal := (ages st).map (signalAt maxSlots st)

/-- Every index of a storage space is below its size. -/
def Memory.Below {α : Type} (size : Nat) (m : Memory α) : Prop := ∀ p ∈ m, p.1 < size

/-- The invariants of a decoder (R23), and the canonical form of its timing buffer. -/
structure Decoder.Inv (c : Config) (d : Decoder) : Prop where
  /-- R23 (a). -/
  cc_lt : d.cc < c.cap
  /-- R23 (b). -/
  rc_le : d.rc ≤ 1
  /-- R23 (c): while synced the window is not empty and its entry 0 is a gap. -/
  gap : d.rc = 1 → 1 ≤ d.cc ∧ ∃ x, d.timing.read? 0 = some x ∧ c.separationLimitUs < x.toNat
  /-- R23 (d): every entry of the window has been written. -/
  written : ∀ i, i < d.cc → (d.timing.read? i).isSome = true
  canonical : d.timing.wf = true
  inside : d.timing.Below c.cap

/-- What a pending result is (R125, R126, R128): more than `MIN_PAIRS` bits, no more than a window holds, and a protocol
of the table. -/
structure Handoff.Inv (c : Config) (h : Handoff) : Prop where
  long : h.rdy = true → c.minPairs < h.shadow.bitLength.toNat
  short : h.rdy = true → 2 * h.shadow.bitLength.toNat + 2 ≤ c.cap
  known : h.rdy = true → ∃ P ∈ c.pt, P.id = h.shadow.protocolId

/-- The invariants of the store (R32), the canonical form of its slots, and the bound on names (R16). -/
structure Store.Inv (c : Config) (st : Store) : Prop where
  /-- R32 (a). -/
  widx_lt : st.widx < c.maxSlots
  /-- R32 (b). -/
  count_le : st.count ≤ c.maxSlots
  /-- Every live slot has been written (R48). -/
  written : ∀ u, 1 ≤ u → u ≤ st.count → (st.slots.read? (slot c.maxSlots st u)).isSome = true
  /-- R32 (d): no two live slots hold the same identity. -/
  distinct : ∀ u v, 1 ≤ u → u < v → v ≤ st.count →
    sameId (signalAt c.maxSlots st u) (signalAt c.maxSlots st v) = false
  /-- R16: a stored name fits `NAME_MAX`. -/
  names : ∀ p ∈ st.slots, ∀ name, p.2.name = some name → name.length ≤ c.nameMax
  canonical : st.slots.wf = true
  inside : st.slots.Below c.maxSlots

/-- The invariants of the sequencer: received signals have no name (R166, R175), and an armed sequencer holds no
captured signal (R167, R169). -/
structure Sequencer.Inv (q : Sequencer) : Prop where
  received : ∀ sig, q.lastReceived = some sig → sig.name = none
  captured : ∀ sig, q.lastCaptured = some sig → sig.name = none
  armed : q.capMode = true → q.lastCaptured = none

/-- The invariants of RFDEC: they hold after reset and after every step. -/
structure State.Inv (s : State) : Prop where
  sized : s.cfg.Sized
  dec : ∀ b, (s.dec.get b).Inv s.cfg
  hand : ∀ b, (s.hand.get b).Inv s.cfg
  store : s.store.Inv s.cfg
  seq : s.seq.Inv

/-! ### Terms the statements are written in -/

/-- The operations of a list, one after the other, each one step (R66, R71). -/
def execAll : List Instr → State → Host.Outcome State Fault Refusal
  | [], s => .next s
  | i :: rest, s =>
    match exec i s with
    | .next t => execAll rest t
    | .fault e => .fault e
    | .refused e => .refused e

/-- What a `FEED` of band `b` leaves alone: everything but decoder `b`, handoff `b` and edge port `b`'s response (R46, R130). -/
structure EdgeFrame (b : Band) (s t : State) : Prop where
  cfg : t.cfg = s.cfg
  dec : ∀ b', b' ≠ b → t.dec.get b' = s.dec.get b'
  hand : ∀ b', b' ≠ b → t.hand.get b' = s.hand.get b'
  store : t.store = s.store
  seq : t.seq = s.seq
  schedule : t.ports.schedule = s.ports.schedule
  edgeIn : t.ports.edgeIn = s.ports.edgeIn
  cmdIn : t.ports.cmdIn = s.ports.cmdIn
  edgeOut : ∀ b', b' ≠ b → t.ports.edgeOut.get b' = s.ports.edgeOut.get b'
  cmdOut : t.ports.cmdOut = s.ports.cmdOut

/-- What every command leaves alone: the configuration, both decoders, what waits on the ports, and the edge ports'
responses (R46). -/
structure CommandFrame (s t : State) : Prop where
  cfg : t.cfg = s.cfg
  dec : t.dec = s.dec
  schedule : t.ports.schedule = s.ports.schedule
  edgeIn : t.ports.edgeIn = s.ports.edgeIn
  cmdIn : t.ports.cmdIn = s.ports.cmdIn
  edgeOut : t.ports.edgeOut = s.ports.edgeOut

/-- `a` lies within `tol` of `e`, inclusively. -/
def Near (tol e a : Nat) : Prop := a ≤ e + tol ∧ e ≤ a + tol

/-- A pair of durations fits a ratio pair of a protocol for the unit `ud` (R123). -/
def PairNear (ud tol : Nat) (r : Ratio) (a c : Nat) : Prop :=
  Near tol (ud * r.high.toNat) a ∧ Near tol (ud * r.low.toNat) c

/-- The causes (a) to (e) of an illegal transaction (R93), read off the words. -/
def IllegalTransaction (nameMax : Nat) (t : Transaction) : Prop :=
  let op := t.cw.toNat / 256
  let arg := t.cw.toNat % 256
  op ∉ [0x01, 0x02, 0x03, 0x04, 0x05, 0x06, 0x07, 0x10, 0x11, 0x12, 0x13, 0x14, 0x15, 0x16, 0x17, 0x18]
    ∨ (op ∉ [0x02, 0x03, 0x04, 0x12] ∧ arg ≠ 0)
    ∨ (op = 0x12 ∧ arg / 2 ≠ 0)
    ∨ (op ∈ [0x01, 0x13, 0x14] ∧ t.sigw.toNat / 2 ^ 58 ≠ 0)
    ∨ ((op ∈ [0x04, 0x05] ∨ (op = 0x01 ∧ t.sigw.toNat / 2 ^ 57 % 2 = 1)) ∧ nameMax < t.nlen.toNat)

/-- Two states that differ at most in entries of `T[b]` outside the capture window (R24, R49). -/
def SameWindow (b : Band) (s s' : State) : Prop :=
  ∃ m : Memory Duration, s' = s.setDec b { s.dec.get b with timing := m } ∧
    ∀ i, i < (s.dec.get b).cc → m.read? i = (s.dec.get b).timing.read? i

/-- The two data durations of a bit of an ideal train (R151, R152). -/
def symbolDurations (P : Protocol) (unit : Nat) (bit : Bool) : List Duration :=
  [BitVec.ofNat 32 (unit * (symbol P bit).high.toNat), BitVec.ofNat 32 (unit * (symbol P bit).low.toNat)]

/-- The data durations of an ideal train's `L` bits (R152). -/
def dataDurations (code : BitVec 32) (L : Nat) (P : Protocol) (unit : Nat) : List Duration :=
  (bitsMsbFirst code L).flatMap (symbolDurations P unit)

/-- A one of the protocol, ideally sent, is not taken for a zero (R123). -/
def SymbolsApart (c : Config) (P : Protocol) (unit : Nat) : Prop :=
  ¬ PairNear unit (tolerance c unit) P.zero (unit * P.one.high.toNat) (unit * P.one.low.toNat)

/-! ### The round trip of R156 -/

/-- The sync part that is the gap of a frame (R155): `high` for an inverted protocol, else `low`. -/
def longSync (P : Protocol) : Nat := if P.inverted then P.sync.high.toNat else P.sync.low.toNat

/-- The other part of the sync pair. -/
def shortSync (P : Protocol) : Nat := if P.inverted then P.sync.low.toNat else P.sync.high.toNat

/-- The conditions of R155 on a protocol and a unit, with the window of `L` bits inside the buffer: of all durations of
the train only the long part of a sync exceeds the separation limit. -/
structure TrainFits (c : Config) (P : Protocol) (unit : BitVec 16) (L : Nat) : Prop where
  gap : c.separationLimitUs < unit.toNat * longSync P
  short : unit.toNat * shortSync P ≤ c.separationLimitUs
  data : ∀ bit, unit.toNat * (symbol P bit).high.toNat ≤ c.separationLimitUs ∧
    unit.toNat * (symbol P bit).low.toNat ≤ c.separationLimitUs
  room : 2 * L + 2 < c.cap

/-- The window that one repetition of an ideal train closes (R155): `2L + 2` entries, the gap first; the short part of the
sync follows the data, or for an inverted protocol comes before it. -/
def idealWindow (code : BitVec 32) (L : Nat) (P : Protocol) (unit : BitVec 16) : List Duration :=
  let short := BitVec.ofNat 32 (unit.toNat * shortSync P)
  BitVec.ofNat 32 (unit.toNat * longSync P) ::
    if P.inverted then short :: dataDurations code L P unit.toNat else dataDurations code L P unit.toNat ++ [short]

/-- The index, within a repetition, of the duration whose `FEED` closes the window: the gap of the trailing sync (R155). -/
def closingIndex (P : Protocol) (L : Nat) : Nat := if P.inverted then 2 * L + 2 else 2 * L + 3

/-- The result a round trip gives back (R156). -/
def idealResult (code : BitVec 32) (L : Nat) (P : Protocol) (unit : BitVec 16) : DecodeResult :=
  { code := code, bitLength := BitVec.ofNat 8 L, protocolId := P.id, unitDelayUs := unit }

/-- One `FEED(b, d)` per duration of a list (R154). -/
def feeds (b : Band) (ds : List Nat) : List Instr := ds.map fun d => .feed b (BitVec.ofNat 32 d)

/-- Fed the durations `ds` one after the other from `s`, decoder `b` responds `r` to the one at index `n`. -/
def FeedAnswers (s : State) (b : Band) (ds : List Nat) (n : Nat) (r : Option DecodeResult) : Prop :=
  n < ds.length ∧ ∃ t, execAll (feeds b (ds.take (n + 1))) s = .next t ∧
    t.ports.edgeOut.get b = some (edgeResponse r)

/-- The round trip of R156 for one protocol and unit: whatever the 24-bit code and however many repetitions, an ideal train
fed to a decoder in its reset state makes some `FEED` respond that code, 24 bits, the protocol and the unit. -/
def RoundTripOf (c : Config) (P : Protocol) (unit : BitVec 16) : Prop :=
  ∀ (s : State) (b : Band) (code : BitVec 32) (reps : Nat), s.cfg = c → s.dec.get b = Decoder.reset →
    code.toNat < 2 ^ 24 → 1 ≤ reps →
    ∃ n, FeedAnswers s b (durations code 24 P unit.toNat reps) n (some (idealResult code 24 P unit))

/-- R156, the requirement on a table and a unit (no theorem of the rules): the round trip for every protocol of the table.
`fun _ => u` is one unit for all of them, `Protocol.unitUs` each protocol's own. -/
def RoundTrip (c : Config) (unit : Protocol → BitVec 16) : Prop := ∀ P ∈ c.pt, RoundTripOf c P (unit P)

end Sys2Proof.Machine
end

