-- ==== Sys2Proof/Certificates/Slice0/Obligations.lean ====
section
/-! DEFINITION. The statements about RFDEC: encodings, the step, the decoders, the sequencer, the store, and the invariants. -/

open Sys2Proof Sys2Proof.Machine

/-! ### Encodings -/

/-- Every well-formed instruction, at every operand value, is read back from its encoding (R81 to R86, R91). -/
def Obligations.DecodeReadsBackEveryEncoding : Prop :=
  ∀ (nameMax : Nat) (i : Instr), nameMax ≤ 255 → wellFormed nameMax i = true →
    decode nameMax (encode i) = .ok i

/-- Whatever a request holds, an instruction read from it is well-formed, and a command keeps its command word when it
is encoded again (R83, R84, R86). -/
def Obligations.DecodedInstructionsAreWellFormed : Prop :=
  ∀ (nameMax : Nat) (r : Request) (i : Instr), decode nameMax r = .ok i →
    wellFormed nameMax i = true ∧
    (∀ b w, r = .edge b w → encode i = r) ∧
    (∀ t, r = .command t → ∃ t', encode i = .command t' ∧ t'.cw = t.cw)

/-- Words of every family, written out from the tables of 30_encoding.md, decode to what they stand for. -/
def Obligations.WrittenOutWordsDecode : Prop :=
  decode 16 (.edge .b315 0x00002A62) = .ok (.feed .b315 10850) ∧
  decode 16 (.command { cw := 0x0100, sigw := 0x03028A025AABCDEF, nlen := 6, nbytes := 0x656761726167 }) =
    .ok (.append { address := 0xABCDEF, key := 0x5A, band := .b315, protocolId := 2, unitDelayUs := 650,
                   name := some [0x67, 0x61, 0x72, 0x61, 0x67, 0x65] }) ∧
  decode 16 (.command { cw := 0x0409, sigw := 0, nlen := 6, nbytes := 0x656761726167 }) =
    .ok (.rename 9 [0x67, 0x61, 0x72, 0x61, 0x67, 0x65]) ∧
  decode 16 (.command { cw := 0x1201, sigw := 0, nlen := 0, nbytes := 0 }) = .ok (.poll .b315) ∧
  decode 16 (.command { cw := 0x1400, sigw := 0x02FFFFFF7F00BEEF, nlen := 0, nbytes := 0 }) =
    .ok (.sendr 0x00BEEF 0x7F .b433)

/-- The fields of `SIGW`, `RESW` and a name operand stand at the bits R85, R86 and R87 give them; a signal without a
name is answered with `name_valid`, `nlen` and `nbytes` 0. -/
def Obligations.RecordsArePackedAtTheirBits : Prop :=
  (∀ s : Signal, (packSig s).toNat =
    s.address.toNat + s.key.toNat * 2 ^ 24 + s.protocolId.toNat * 2 ^ 32 + s.unitDelayUs.toNat * 2 ^ 40
      + (if s.band = .b315 then 2 ^ 56 else 0) + (if s.name = none then 0 else 2 ^ 57)) ∧
  (∀ (st : Status) (idx : BitVec 8) (s : Signal), s.name = none →
    (sigResponse st idx s).nlen = 0 ∧ (sigResponse st idx s).nbytes = 0) ∧
  (∀ r : DecodeResult, (packResult r).toNat =
    r.code.toNat + r.bitLength.toNat * 2 ^ 32 + r.protocolId.toNat * 2 ^ 40 + r.unitDelayUs.toNat * 2 ^ 48) ∧
  (∀ (name : Name) (k : Nat), packName name / 2 ^ (8 * k) % 256 = (name.getD k 0).toNat)

/-- The text of an address and of a key: six and two upper-case hexadecimal digits that read back as the number (R16). -/
def Obligations.AddressAndKeyTextReadsBack : Prop :=
  (∀ a : BitVec 24, hexOf 6 24 (hex6 a) = some a) ∧ (∀ k : BitVec 8, hexOf 2 8 (hex2 k) = some k)

/-! ### The step -/

/-- A step takes the oldest operation of the port whose turn it is and is `exec` of what it decodes to (R66, R71, R72,
R80, R94; the streams and turns are the model's own, log 3). -/
def Obligations.StepRunsTheDecodedOperation : Prop :=
  (∀ (s : State) (b : Band) (w : BitVec 32) (turns : List Port) (more : List (BitVec 32)),
    s.ports.schedule = .edge b :: turns → s.ports.edgeIn.get b = w :: more →
    step s = exec (.feed b w)
      { s with ports := { s.ports with schedule := turns, edgeIn := s.ports.edgeIn.set b more } }) ∧
  (∀ (s : State) (t : Transaction) (i : Instr) (turns : List Port) (more : List Transaction),
    s.ports.schedule = .command :: turns → s.ports.cmdIn = t :: more →
    decode s.cfg.nameMax (.command t) = .ok i →
    step s = exec i { s with ports := { s.ports with schedule := turns, cmdIn := more } })

/-- Where no turn is left, or the agent whose turn it is has nothing presented, no operation is executed; this is the
model's own choice (log 4). -/
def Obligations.NothingPresentedChangesNothing : Prop :=
  (∀ s : State, s.ports.schedule = [] → step s = .next s) ∧
  (∀ (s : State) (b : Band) (turns : List Port), s.ports.schedule = .edge b :: turns →
    s.ports.edgeIn.get b = [] → step s = .next { s with ports := { s.ports with schedule := turns } }) ∧
  (∀ (s : State) (turns : List Port), s.ports.schedule = .command :: turns →
    s.ports.cmdIn = [] → step s = .next { s with ports := { s.ports with schedule := turns } })

/-- A command transaction is illegal exactly for the causes (a) to (e) of R93; it is answered `ILLEGAL_CMD` with every
other field zero and changes no other state, whatever index it carries (R244, R252); a legal one is executed. -/
def Obligations.IllegalTransactionsAreAnsweredAndChangeNothing : Prop :=
  ∀ (s : State) (t : Transaction) (turns : List Port) (more : List Transaction),
    s.ports.schedule = .command :: turns → s.ports.cmdIn = t :: more →
    (IllegalTransaction s.cfg.nameMax t →
      step s = .next { s with ports := { s.ports with
        schedule := turns, cmdIn := more,
        cmdOut := some { status := .illegalCmd, idx := 0, flags := 0, w0 := 0, nlen := 0, nbytes := 0, c0 := 0, c1 := 0 } } }) ∧
    (¬ IllegalTransaction s.cfg.nameMax t →
      ∃ i, step s = exec i { s with ports := { s.ports with schedule := turns, cmdIn := more } })

/-- A word of the opcode table, presented at any state, is executed by the very next step on that state (log 8, log 9). -/
def Obligations.PresentedTableWordRunsNext : Prop :=
  ∀ (s : State) (nbits w : Nat) (i : Instr), decodeTableWord nbits w = some i →
    step (s.withFetchWord nbits w) = exec i s

/-- No operation faults or is refused, in any state, and no step stops (93_implementation_defined.md Part 1, R255, R283). -/
def Obligations.EveryOperationAndStepCompletes : Prop :=
  (∀ (i : Instr) (s : State), ∃ t, exec i s = .next t) ∧ (∀ s : State, ∃ t, step s = .next t)

/-! ### Invariants and reset -/

/-- Every step keeps the invariants of R23, R32, R125 to R128, R166, R167 and R169, and the canonical form of both storage
spaces. -/
def Obligations.StepKeepsTheInvariants : Prop :=
  ∀ s t : State, s.Inv → step s = .next t → t.Inv

/-- The invariants hold after reset, for every configuration that satisfies R8, and for the platform's. -/
def Obligations.ResetMeetsTheInvariants : Prop :=
  (∀ c : Config, c.Sized → (State.resetWith c).Inv) ∧ State.reset.Inv

/-- The reset values the spec gives (R271 to R274), for every configuration. -/
def Obligations.ResetValuesAreTheSpecs : Prop :=
  ∀ (c : Config) (b : Band),
    ((State.resetWith c).dec.get b).cc = 0 ∧ ((State.resetWith c).dec.get b).rc = 0 ∧
    (State.resetWith c).store.count = 0 ∧ (State.resetWith c).store.widx = 0 ∧
    (State.resetWith c).seq.capMode = false ∧
    (State.resetWith c).seq.lastCaptured = none ∧ (State.resetWith c).seq.lastReceived = none ∧
    (State.resetWith c).seq.sendCount = 0 ∧ (State.resetWith c).seq.receiveCount = 0 ∧
    ((State.resetWith c).hand.get b).rdy = false

/-! ### The decoders -/

/-- A sample no longer than the separation limit is stored at `T[b][cc[b]]` and counted; a full buffer abandons the
window; nothing is answered and nothing else changes (R112, R116, R117). -/
def Obligations.DataEdgeIsAppendedOrAbandonsTheWindow : Prop :=
  ∀ (s : State) (b : Band) (x : Duration), x.toNat ≤ s.cfg.separationLimitUs →
    ∃ t, exec (.feed b x) s = .next t ∧
      (∀ k, timingAt b (t.dec.get b) k = if k = (s.dec.get b).cc then x else timingAt b (s.dec.get b) k) ∧
      ((s.dec.get b).cc + 1 ≠ s.cfg.cap →
        (t.dec.get b).cc = (s.dec.get b).cc + 1 ∧ (t.dec.get b).rc = (s.dec.get b).rc) ∧
      ((s.dec.get b).cc + 1 = s.cfg.cap → (t.dec.get b).cc = 0 ∧ (t.dec.get b).rc = 0) ∧
      ((s.dec.get b).Inv s.cfg → (s.dec.get b).cc < s.cfg.cap) ∧
      t.hand.get b = s.hand.get b ∧
      t.ports.edgeOut.get b = some { valid := false, resw := 0 } ∧
      EdgeFrame b s t

/-- A longer sample is a gap: it becomes entry 0 of a fresh window; it counts when it is the first or lies within
`SYNC_MATCH_US` of the last gap, and the second counted gap closes the frame whatever the match gives (R112 to R115). -/
def Obligations.GapCountsAndRestartsTheWindow : Prop :=
  ∀ (s : State) (b : Band) (x : Duration), s.cfg.separationLimitUs < x.toNat →
    ∃ t, exec (.feed b x) s = .next t ∧
      (∀ k, timingAt b (t.dec.get b) k = if k = 0 then x else timingAt b (s.dec.get b) k) ∧
      (t.dec.get b).cc = 1 ∧
      ((s.dec.get b).rc = 0 → (t.dec.get b).rc = 1) ∧
      ((s.dec.get b).rc = 1 → Near s.cfg.syncMatchUs (timingAt b (s.dec.get b) 0).toNat x.toNat →
        (t.dec.get b).rc = 0) ∧
      ((s.dec.get b).rc = 1 → ¬ Near s.cfg.syncMatchUs (timingAt b (s.dec.get b) 0).toNat x.toNat →
        (t.dec.get b).rc = 1) ∧
      EdgeFrame b s t

/-- A `FEED` answers the match of the window that the previous gap opened when a second consistent gap closes it, and
then publishes that result over whatever was pending; every other `FEED` answers nothing and leaves the handoff
alone (R114, R117, R118). -/
def Obligations.ClosingGapDeliversTheMatch : Prop :=
  ∀ (s : State) (b : Band) (x : Duration), ∃ t, exec (.feed b x) s = .next t ∧ EdgeFrame b s t ∧
    (∀ r, s.cfg.separationLimitUs < x.toNat → (s.dec.get b).rc = 1 →
      Near s.cfg.syncMatchUs (timingAt b (s.dec.get b) 0).toNat x.toNat →
      matchAll s.cfg ((List.range (s.dec.get b).cc).map (timingAt b (s.dec.get b))) = some r →
      t.hand.get b = { rdy := true, shadow := r } ∧
      t.ports.edgeOut.get b = some { valid := true, resw := packResult r }) ∧
    ((s.dec.get b).rc ≤ 1 →
      (x.toNat ≤ s.cfg.separationLimitUs ∨ (s.dec.get b).rc = 0 ∨
        ¬ Near s.cfg.syncMatchUs (timingAt b (s.dec.get b) 0).toNat x.toNat ∨
        matchAll s.cfg ((List.range (s.dec.get b).cc).map (timingAt b (s.dec.get b))) = none) →
      t.hand.get b = s.hand.get b ∧
      t.ports.edgeOut.get b = some { valid := false, resw := 0 })

/-- The first protocol, in table order, that accepts the window gives the result, and with a well-formed table that is
the lowest accepting id; no result exactly when all reject (R119). -/
def Obligations.LowestAcceptingProtocolWins : Prop :=
  (∀ (c : Config) (w : List Duration) (r : DecodeResult), matchAll c w = some r ↔
    ∃ k P, c.pt[k]? = some P ∧ tryMatch c w P = some r ∧ (c.TableOk → r.protocolId.toNat = k + 1) ∧
      ∀ j Q, j < k → c.pt[j]? = some Q → tryMatch c w Q = none) ∧
  (∀ (c : Config) (w : List Duration), matchAll c w = none ↔ ∀ P ∈ c.pt, tryMatch c w P = none)

/-- When a protocol accepts a window and what it answers, spelled out over the window's entries (R120 to R126). -/
def Obligations.ProtocolMatchIsTheSpecs : Prop :=
  ∀ (c : Config) (P : Protocol) (gap : Duration) (rest : List Duration) (r : DecodeResult),
    let T := gap :: rest
    let n := T.length
    let sp := max P.sync.low.toNat P.sync.high.toNat
    let ud := gap.toNat / sp
    let tol := ud * c.tolerancePct / 100
    let i0 := if P.inverted then 2 else 1
    tryMatch c T P = some r ↔
      sp ≠ 0 ∧ ud ≤ 0xFFFF ∧ ∃ bits : List Bool,
        bits.length = (n - i0) / 2 ∧
        c.minPairs < bits.length ∧
        (∀ k, k < bits.length →
          (PairNear ud tol P.zero (T.getD (i0 + 2 * k) 0).toNat (T.getD (i0 + 2 * k + 1) 0).toNat ∧
            bits[k]? = some false) ∨
          (¬ PairNear ud tol P.zero (T.getD (i0 + 2 * k) 0).toNat (T.getD (i0 + 2 * k + 1) 0).toNat ∧
            PairNear ud tol P.one (T.getD (i0 + 2 * k) 0).toNat (T.getD (i0 + 2 * k + 1) 0).toNat ∧
            bits[k]? = some true)) ∧
        r.code.toNat = bits.foldl (fun v bit => 2 * v + bit.toNat) 0 % 2 ^ 32 ∧
        r.bitLength.toNat = bits.length % 256 ∧
        r.protocolId = P.id ∧
        r.unitDelayUs.toNat = ud

/-- A pair element that deviates by exactly `tol` passes its test and one that deviates by `tol + 1` fails it (R157). -/
def Obligations.ToleranceBoundaryIsInclusive : Prop :=
  ∀ (ud tol : Nat) (r : Ratio) (a c : Duration),
    (Near tol (ud * r.low.toNat) c.toNat →
      (a.toNat = ud * r.high.toNat + tol → fits ud tol r (a, c) = true) ∧
      (a.toNat + tol = ud * r.high.toNat → fits ud tol r (a, c) = true)) ∧
    (Near tol (ud * r.high.toNat) a.toNat →
      (c.toNat = ud * r.low.toNat + tol → fits ud tol r (a, c) = true) ∧
      (c.toNat + tol = ud * r.low.toNat → fits ud tol r (a, c) = true)) ∧
    (a.toNat = ud * r.high.toNat + (tol + 1) ∨ a.toNat + (tol + 1) = ud * r.high.toNat ∨
      c.toNat = ud * r.low.toNat + (tol + 1) ∨ c.toNat + (tol + 1) = ud * r.low.toNat →
      fits ud tol r (a, c) = false)

/-- Operations of different agents commute: `FEED`s of the two bands, and a `FEED` of band `b` with every command but a
`POLL b`; with that one too when the `FEED` publishes nothing (R73, R253). -/
def Obligations.OperationsOfDifferentAgentsCommute : Prop :=
  (∀ (s : State) (x y : Duration),
    execAll [.feed .b433 x, .feed .b315 y] s = execAll [.feed .b315 y, .feed .b433 x] s) ∧
  (∀ (s : State) (b : Band) (x : Duration) (i : Instr), (∀ b' y, i ≠ .feed b' y) → i ≠ .poll b →
    execAll [.feed b x, i] s = execAll [i, .feed b x] s) ∧
  (∀ (s t : State) (b : Band) (x : Duration), exec (.feed b x) s = .next t →
    t.ports.edgeOut.get b = some { valid := false, resw := 0 } → t.hand = s.hand →
    execAll [.feed b x, .poll b] s = execAll [.poll b, .feed b x] s)

/-- No operation's effect depends on an entry of `T[b]` outside the capture window: two states that differ only there
stay so, with the same responses, flags, registers and store (R24, R44, R49). -/
def Obligations.EntriesOutsideTheWindowNeverMatter : Prop :=
  ∀ (b : Band) (i : Instr) (s s' t t' : State), s.Inv → SameWindow b s s' →
    exec i s = .next t → exec i s' = .next t' → SameWindow b t t'

/-- The matcher recovers the code, the length and the unit of an ideal window: the gap, for an inverted protocol one
entry that is skipped, the data of `L` bits, and at most one entry more (R155, R156). -/
def Obligations.IdealWindowIsRecovered : Prop :=
  ∀ (c : Config) (P : Protocol) (unit L : Nat) (code : BitVec 32) (skipped tail : List Duration),
    syncPulses P ≠ 0 → unit ≤ 0xFFFF → c.minPairs < L → L ≤ 32 → code.toNat < 2 ^ L →
    SymbolsApart c P unit →
    skipped.length = (if P.inverted then 1 else 0) → tail.length ≤ 1 →
    tryMatch c (BitVec.ofNat 32 (unit * syncPulses P) :: (skipped ++ dataDurations code L P unit ++ tail)) P =
      some { code := code, bitLength := BitVec.ofNat 8 L, protocolId := P.id, unitDelayUs := BitVec.ofNat 16 unit }

/-- One repetition of an ideal train of a non-inverted protocol whose sync's long part is its low part, fed to a decoder
that hunts, is answered by its last sample: the code, `L` bits, the protocol and the unit, published as well, provided
that the window fits the buffer, only the long sync exceeds the separation limit, and no lower-id protocol accepts
the window (R152, R154, R155, R156). -/
def Obligations.IdealFrameIsDecoded : Prop :=
  ∀ (s : State) (b : Band) (k : Nat) (P : Protocol) (unit : BitVec 16) (L : Nat) (code : BitVec 32),
    s.Inv → (s.dec.get b).rc = 0 →
    s.cfg.pt[k]? = some P → P.inverted = false → P.sync.high.toNat ≤ P.sync.low.toNat →
    s.cfg.separationLimitUs < unit.toNat * P.sync.low.toNat →
    unit.toNat * P.sync.high.toNat ≤ s.cfg.separationLimitUs →
    (∀ bit, unit.toNat * (symbol P bit).high.toNat ≤ s.cfg.separationLimitUs ∧
      unit.toNat * (symbol P bit).low.toNat ≤ s.cfg.separationLimitUs) →
    s.cfg.minPairs < L → L ≤ 32 → 2 * L + 2 < s.cfg.cap → code.toNat < 2 ^ L →
    SymbolsApart s.cfg P unit.toNat →
    (∀ j Q, j < k → s.cfg.pt[j]? = some Q →
      tryMatch s.cfg (BitVec.ofNat 32 (unit.toNat * P.sync.low.toNat) :: (dataDurations code L P unit.toNat ++
        [BitVec.ofNat 32 (unit.toNat * P.sync.high.toNat)])) Q = none) →
    ∃ (t : State) (r : DecodeResult),
      r = { code := code, bitLength := BitVec.ofNat 8 L, protocolId := P.id, unitDelayUs := unit } ∧
      execAll ((durations code L P unit.toNat 1).map fun d => .feed b (BitVec.ofNat 32 d)) s = .next t ∧
      t.hand.get b = { rdy := true, shadow := r } ∧
      t.ports.edgeOut.get b = some { valid := true, resw := packResult r } ∧
      (t.dec.get b).cc = 1 ∧ (t.dec.get b).rc = 0 ∧ EdgeFrame b s t

/-- A train has `2 * reps * (L + 2)` segments, its levels alternate, and its durations do not depend on the protocol's
inversion (R151 to R154); outside `1 ≤ L ≤ 32` it is about the model's own choice (log 14). -/
def Obligations.TrainsAlternateAndHaveTheirLength : Prop :=
  ∀ (code : BitVec 32) (L : Nat) (P : Protocol) (unit reps : Nat),
    (train code L P unit reps).length = 2 * reps * (L + 2) ∧
    (∀ k x y, (train code L P unit reps)[k]? = some x → (train code L P unit reps)[k + 1]? = some y →
      x.level ≠ y.level) ∧
    durations code L P unit reps = durations code L { P with inverted := !P.inverted } unit reps

/-! ### The capture sequencer -/

/-- `POLL b` with no result pending answers `NONE` and changes nothing else (R168). -/
def Obligations.PollWithNothingPendingAnswersNone : Prop :=
  ∀ (s : State) (b : Band), (s.hand.get b).rdy = false →
    exec (.poll b) s = .next { s with ports := { s.ports with cmdOut := some { status := .none } } }

/-- `POLL b` with a result pending takes it: `rdy[b]` is cleared, the signal made of it is received and counted; while
idle nothing else changes and it is answered `RECEIVED` (R166, R167, R168, R179). -/
def Obligations.IdlePollReceives : Prop :=
  ∀ (s : State) (b : Band), (s.hand.get b).rdy = true → s.seq.capMode = false →
    ∃ t sig, exec (.poll b) s = .next t ∧
      sig.address.toNat = (s.hand.get b).shadow.code.toNat % 2 ^ 24 ∧ sig.key = 0 ∧ sig.band = b ∧
      sig.protocolId = (s.hand.get b).shadow.protocolId ∧
      sig.unitDelayUs = (s.hand.get b).shadow.unitDelayUs ∧ sig.name = none ∧
      t.hand = s.hand.set b { (s.hand.get b) with rdy := false } ∧
      t.seq.lastReceived = some sig ∧
      t.seq.receiveCount.toNat = min (s.seq.receiveCount.toNat + 1) (2 ^ 32 - 1) ∧
      t.seq.capMode = false ∧ t.seq.lastCaptured = s.seq.lastCaptured ∧ t.seq.sendCount = s.seq.sendCount ∧
      t.store = s.store ∧
      t.ports.cmdOut = some { status := .received, w0 := packSig sig } ∧
      CommandFrame s t

/-- `POLL b` with a result pending while armed captures it: beside what an idle `POLL` does it disarms, records the signal
as captured, and appends it; the store and the answer are those of `APPEND` of that signal, whatever that answers (R165,
R167, R168, R241). -/
def Obligations.ArmedPollCaptures : Prop :=
  ∀ (s : State) (b : Band), (s.hand.get b).rdy = true → s.seq.capMode = true →
    ∃ t sig u r, exec (.poll b) s = .next t ∧
      sig.address.toNat = (s.hand.get b).shadow.code.toNat % 2 ^ 24 ∧ sig.key = 0 ∧ sig.band = b ∧
      sig.protocolId = (s.hand.get b).shadow.protocolId ∧
      sig.unitDelayUs = (s.hand.get b).shadow.unitDelayUs ∧ sig.name = none ∧
      t.hand = s.hand.set b { (s.hand.get b) with rdy := false } ∧
      t.seq.lastReceived = some sig ∧ t.seq.lastCaptured = some sig ∧ t.seq.capMode = false ∧
      t.seq.receiveCount.toNat = min (s.seq.receiveCount.toNat + 1) (2 ^ 32 - 1) ∧
      t.seq.sendCount = s.seq.sendCount ∧
      exec (.append sig) s = .next u ∧ u.ports.cmdOut = some r ∧
      t.store = u.store ∧
      t.ports.cmdOut = some { status := .captured, idx := r.idx, w0 := packSig sig,
                              c0 := BitVec.ofNat 32 r.status.code.toNat } ∧
      CommandFrame s t

/-- With both bands ready while armed, the band polled first is captured and stored and the other only received; the
host's order decides (R254). -/
def Obligations.FirstPolledBandTakesTheCapture : Prop :=
  ∀ (s : State) (b b' : Band), b ≠ b' → (s.hand.get b).rdy = true → (s.hand.get b').rdy = true →
    s.seq.capMode = true →
    ∃ t u, execAll [.poll b, .poll b'] s = .next t ∧
      exec (.append (signalOf (s.hand.get b).shadow b)) s = .next u ∧ t.store = u.store ∧
      t.seq.lastCaptured = some (signalOf (s.hand.get b).shadow b) ∧
      t.seq.lastReceived = some (signalOf (s.hand.get b').shadow b') ∧
      t.seq.capMode = false ∧
      (t.hand.get b).rdy = false ∧ (t.hand.get b').rdy = false ∧
      t.ports.cmdOut = some { status := .received, w0 := packSig (signalOf (s.hand.get b').shadow b') }

/-- `CAPEN` arms and forgets the captured signal, `CAPDIS` disarms and keeps it; both answer `OK` and change nothing
else (R169, R170). -/
def Obligations.ArmingAndDisarming : Prop :=
  ∀ s : State,
    exec .capen s = .next { s with
      seq := { s.seq with capMode := true, lastCaptured := none }
      ports := { s.ports with cmdOut := some { status := .ok } } } ∧
    exec .capdis s = .next { s with
      seq := { s.seq with capMode := false }
      ports := { s.ports with cmdOut := some { status := .ok } } }

/-- `cap_mode` is set by `CAPEN` and cleared by `CAPDIS` and by a `POLL` that delivers, and by nothing else; the decoders do
not read it (R165, R178). -/
def Obligations.CaptureModeChangesOnlyAsTheSpecSays : Prop :=
  (∀ (s t : State) (i : Instr), exec i s = .next t →
    (s.seq.capMode = false → t.seq.capMode = true → i = .capen) ∧
    (s.seq.capMode = true → t.seq.capMode = false →
      i = .capdis ∨ ∃ b, i = .poll b ∧ (s.hand.get b).rdy = true)) ∧
  (∀ (s t t' : State) (b : Band) (x : Duration) (q : Sequencer), exec (.feed b x) s = .next t →
    exec (.feed b x) (s.setSeq q) = .next t' →
    t'.dec = t.dec ∧ t'.hand = t.hand ∧ t'.ports.edgeOut = t.ports.edgeOut)

/-- `SENDS` and `SENDR` count, and answer `TX` with the request for the Encoder: the address as a 24-bit code, the signal's
or the band's default protocol and unit, the default repeat count, the band; the key takes no part and nothing else
changes (R88, R171, R172, R173, R179). -/
def Obligations.SendsHandOutTheRequest : Prop :=
  ∀ (s : State) (address : BitVec 24) (key : BitVec 8) (band : Band) (p : BitVec 8) (unit : BitVec 16),
    (∃ t r, exec (.sends address key band p unit) s = .next t ∧
      t.seq.sendCount.toNat = min (s.seq.sendCount.toNat + 1) (2 ^ 32 - 1) ∧
      t.seq = { s.seq with sendCount := t.seq.sendCount } ∧ t.store = s.store ∧ t.hand = s.hand ∧ CommandFrame s t ∧
      t.ports.cmdOut = some r ∧
      r.w0.toNat = address.toNat + 24 * 2 ^ 32 + p.toNat * 2 ^ 40 + unit.toNat * 2 ^ 48 ∧
      r = { status := .tx, idx := s.cfg.defaultRepeat, flags := if band = .b315 then 1 else 0, w0 := r.w0 }) ∧
    (∃ t r, exec (.sendr address key band) s = .next t ∧
      t.seq.sendCount.toNat = min (s.seq.sendCount.toNat + 1) (2 ^ 32 - 1) ∧
      t.seq = { s.seq with sendCount := t.seq.sendCount } ∧ t.store = s.store ∧ t.hand = s.hand ∧ CommandFrame s t ∧
      t.ports.cmdOut = some r ∧
      r.w0.toNat = address.toNat + 24 * 2 ^ 32 + (s.cfg.defaultProto.get band).toNat * 2 ^ 40 +
        (s.cfg.defaultUnit.get band).toNat * 2 ^ 48 ∧
      r = { status := .tx, idx := s.cfg.defaultRepeat, flags := if band = .b315 then 1 else 0, w0 := r.w0 })

/-- `RDCTR`, `RDLRX` and `RDLCAP` answer the registers and change nothing else; a received signal has no name (R174, R175,
R176). -/
def Obligations.ReadoutsAnswerTheRegisters : Prop :=
  ∀ s : State,
    exec .rdctr s = .next { s with ports := { s.ports with cmdOut := some {
      status := .ok, flags := if s.seq.capMode then 1 else 0, c0 := s.seq.sendCount, c1 := s.seq.receiveCount } } } ∧
    (s.seq.lastReceived = none →
      exec .rdlrx s = .next { s with ports := { s.ports with cmdOut := some { status := .none } } }) ∧
    (∀ sig, s.seq.lastReceived = some sig → s.seq.Inv →
      exec .rdlrx s = .next { s with ports := { s.ports with cmdOut := some { status := .ok, w0 := packSig sig } } }) ∧
    (s.seq.lastCaptured = none →
      exec .rdlcap s = .next { s with ports := { s.ports with cmdOut := some { status := .none } } }) ∧
    (∀ sig, s.seq.lastCaptured = some sig → s.seq.Inv →
      exec .rdlcap s = .next { s with ports := { s.ports with cmdOut := some { status := .ok, w0 := packSig sig } } })

/-- `CTRRST` clears both counters, answers `OK` and touches nothing else (R177). -/
def Obligations.CounterResetClearsBothCounters : Prop :=
  ∀ s : State, exec .ctrrst s = .next { s with
    seq := { s.seq with sendCount := 0, receiveCount := 0 }
    ports := { s.ports with cmdOut := some { status := .ok } } }

/-- The counters never decrease but by `CTRRST` (R33, R34, R177, R179). -/
def Obligations.CountersAreMonotonic : Prop :=
  ∀ (s t : State) (i : Instr), exec i s = .next t → i ≠ .ctrrst →
    s.seq.sendCount.toNat ≤ t.seq.sendCount.toNat ∧ s.seq.receiveCount.toNat ≤ t.seq.receiveCount.toNat

/-- The reading commands change no state and answer the same when issued again (R68). -/
def Obligations.ReadingCommandsAreIdempotent : Prop :=
  ∀ (s t : State) (i : Instr),
    ((∃ u, i = .get u) ∨ (∃ name, i = .find name) ∨ i = .stat ∨ i = .rdctr ∨ i = .rdlrx ∨ i = .rdlcap) →
    exec i s = .next t →
    t = { s with ports := { s.ports with cmdOut := t.ports.cmdOut } } ∧ exec i t = .next t

/-! ### The signal store -/

/-- The index translation: the newest signal is the slot before `widx`, the oldest `count` slots before it, consecutive
indexes are consecutive slots, and the live slots are distinct and inside the store (R32 (c), R62, R200). -/
def Obligations.SlotsFollowAge : Prop :=
  ∀ (maxSlots : Nat) (st : Store) (u v : Nat), st.widx < maxSlots → st.count ≤ maxSlots → 1 ≤ u → u ≤ st.count →
    1 ≤ v → v ≤ st.count →
    slot maxSlots st st.count = (st.widx + maxSlots - 1) % maxSlots ∧
    slot maxSlots st 1 = (st.widx + maxSlots - st.count) % maxSlots ∧
    (u + 1 ≤ st.count → slot maxSlots st (u + 1) = (slot maxSlots st u + 1) % maxSlots) ∧
    slot maxSlots st u < maxSlots ∧
    (slot maxSlots st u = slot maxSlots st v → u = v)

/-- `APPEND` of a signal of a new identity becomes the newest live signal; a full store loses its oldest and says so; the
one slot written is `S[widx]` and nothing else changes (R204). -/
def Obligations.AppendMakesTheNewestSignal : Prop :=
  ∀ (s : State) (sig : Signal), s.cfg.Sized → s.store.Inv s.cfg →
    (∀ x ∈ live s.cfg.maxSlots s.store, sameId x sig = false) →
    ∃ t, exec (.append sig) s = .next t ∧
      live s.cfg.maxSlots t.store =
        (if s.store.count = s.cfg.maxSlots then (live s.cfg.maxSlots s.store).tail
          else live s.cfg.maxSlots s.store) ++ [sig] ∧
      t.store.count = min (s.store.count + 1) s.cfg.maxSlots ∧
      t.store.widx = (s.store.widx + 1) % s.cfg.maxSlots ∧
      (∀ k, slotAt t.store k = if k = s.store.widx then sig else slotAt s.store k) ∧
      t.ports.cmdOut = some {
        status := if s.store.count = s.cfg.maxSlots then .okEvict else .ok
        idx := BitVec.ofNat 8 t.store.count } ∧
      t.seq = s.seq ∧ t.hand = s.hand ∧ CommandFrame s t

/-- `APPEND` of a signal whose address, key and band are those of the live signal at index `u` is refused with that
index; nothing else changes, full store or not (R202, R203, R204, R241). -/
def Obligations.AppendRefusesADuplicate : Prop :=
  ∀ (s : State) (sig x : Signal) (u : Nat), s.store.Inv s.cfg →
    1 ≤ u → (live s.cfg.maxSlots s.store)[u - 1]? = some x →
    x.address = sig.address → x.key = sig.key → x.band = sig.band →
    exec (.append sig) s = .next { s with ports := { s.ports with cmdOut := some {
      status := .duplicate, idx := BitVec.ofNat 8 u } } }

/-- `GET u` answers the `u`-th oldest live signal with its name, and changes nothing else (R205, R212). -/
def Obligations.GetAnswersTheSignalOfThatAge : Prop :=
  ∀ (s : State) (u : BitVec 8) (x : Signal), 1 ≤ u.toNat →
    (live s.cfg.maxSlots s.store)[u.toNat - 1]? = some x →
    exec (.get u) s = .next { s with ports := { s.ports with cmdOut := some {
      status := .ok, idx := u, w0 := packSig x, nlen := BitVec.ofNat 8 (x.name.getD []).length,
      nbytes := packName (x.name.getD []) } } }

/-- `REMOVE u` takes the `u`-th oldest live signal out and keeps the others in order; only the slots from `Slot(u)` up to
the one before the newest are written (R206). -/
def Obligations.RemoveTakesOneSignalOut : Prop :=
  ∀ (s : State) (u : BitVec 8), s.store.Inv s.cfg → 1 ≤ u.toNat → u.toNat ≤ s.store.count →
    ∃ t, exec (.remove u) s = .next t ∧
      live s.cfg.maxSlots t.store = (live s.cfg.maxSlots s.store).eraseIdx (u.toNat - 1) ∧
      t.store.count = s.store.count - 1 ∧
      t.store.widx = (s.store.widx + s.cfg.maxSlots - 1) % s.cfg.maxSlots ∧
      (∀ k, 1 ≤ k → k ≤ t.store.count → slot s.cfg.maxSlots t.store k = slot s.cfg.maxSlots s.store k) ∧
      (∀ a, (∀ k, u.toNat ≤ k → k < s.store.count → a ≠ slot s.cfg.maxSlots s.store k) →
        slotAt t.store a = slotAt s.store a) ∧
      t.ports.cmdOut = some { status := .ok } ∧
      t.seq = s.seq ∧ t.hand = s.hand ∧ CommandFrame s t

/-- `RENAME u, name` gives the `u`-th oldest live signal that name and changes no other field and no other slot (R207). -/
def Obligations.RenameSetsOneName : Prop :=
  ∀ (s : State) (u : BitVec 8) (name : Name), s.store.Inv s.cfg → 1 ≤ u.toNat → u.toNat ≤ s.store.count →
    ∃ t, exec (.rename u name) s = .next t ∧
      live s.cfg.maxSlots t.store =
        (live s.cfg.maxSlots s.store).modify (u.toNat - 1) (fun x => { x with name := some name }) ∧
      (∀ a, a ≠ slot s.cfg.maxSlots s.store u.toNat → slotAt t.store a = slotAt s.store a) ∧
      t.store.count = s.store.count ∧ t.store.widx = s.store.widx ∧
      t.ports.cmdOut = some { status := .ok } ∧
      t.seq = s.seq ∧ t.hand = s.hand ∧ CommandFrame s t

/-- `FIND name` answers the oldest live signal of that name with its index, or `NAME_NOT_FOUND`, and changes nothing else; a
signal without a name has no name, not even the empty one (R208, R215, R243). -/
def Obligations.FindAnswersTheOldestOfThatName : Prop :=
  ∀ (s : State) (name : Name),
    (∀ u x, (live s.cfg.maxSlots s.store)[u]? = some x → x.name = some name →
      (∀ v y, v < u → (live s.cfg.maxSlots s.store)[v]? = some y → y.name ≠ some name) →
      exec (.find name) s = .next { s with ports := { s.ports with cmdOut := some {
        status := .ok, idx := BitVec.ofNat 8 (u + 1), w0 := packSig x, nlen := BitVec.ofNat 8 name.length,
        nbytes := packName name } } }) ∧
    ((∀ x ∈ live s.cfg.maxSlots s.store, x.name ≠ some name) →
      exec (.find name) s = .next { s with ports := { s.ports with cmdOut := some { status := .nameNotFound } } })

/-- `CLEAR` leaves no live signal, zeroes `count` and `widx`, keeps the slots and changes nothing else (R209). -/
def Obligations.ClearLeavesNoLiveSignal : Prop :=
  ∀ s : State, ∃ t, exec .clear s = .next t ∧
    t.store.count = 0 ∧ t.store.widx = 0 ∧ live s.cfg.maxSlots t.store = [] ∧
    (∀ k, slotAt t.store k = slotAt s.store k) ∧
    t.ports.cmdOut = some { status := .ok } ∧ t.seq = s.seq ∧ t.hand = s.hand ∧ CommandFrame s t

/-- `STAT` answers `count` and, in flag 0, whether the store is full, and changes nothing else (R27, R210). -/
def Obligations.StatAnswersCountAndFull : Prop :=
  ∀ s : State, s.cfg.Sized → s.store.Inv s.cfg → ∃ r : CmdResponse,
    exec .stat s = .next { s with ports := { s.ports with cmdOut := some r } } ∧
    r.idx.toNat = s.store.count ∧
    r = { status := .ok, idx := r.idx, flags := if s.store.count = s.cfg.maxSlots then 1 else 0 }

/-- `GET`, `REMOVE` and `RENAME` of an index outside `1..count` answer `INDEX_OUT_OF_RANGE` and change nothing else (R201,
R242). -/
def Obligations.BadIndexChangesNothing : Prop :=
  ∀ (s : State) (u : BitVec 8) (name : Name) (i : Instr), (u.toNat = 0 ∨ s.store.count < u.toNat) →
    (i = .get u ∨ i = .remove u ∨ i = .rename u name) →
    exec i s = .next { s with ports := { s.ports with cmdOut := some { status := .indexOutOfRange } } }

/-- Restoring signals of pairwise different identities into an empty store, oldest first, leaves the newest `MAX` of them
live in that order; so after `MAX + 1` the second is the oldest (R212, R213, R278). -/
def Obligations.AppendsKeepTheNewest : Prop :=
  ∀ (s : State) (signals : List Signal), s.cfg.Sized → s.store.Inv s.cfg → s.store.count = 0 →
    signals.Pairwise (fun x y => sameId x y = false) →
    (∀ x ∈ signals, wellFormed s.cfg.nameMax (.append x) = true) →
    ∃ t, execAll (restore signals) s = .next t ∧
      live s.cfg.maxSlots t.store = signals.drop (signals.length - s.cfg.maxSlots) ∧
      t.store.count = min signals.length s.cfg.maxSlots ∧
      t.seq = s.seq ∧ t.hand = s.hand ∧ CommandFrame s t

/-! ### Ownership -/

/-- Which operations write which state, over all operations (R37, R38, R46, R63). -/
def Obligations.StateIsWrittenOnlyByItsOwner : Prop :=
  ∀ (s t : State) (i : Instr), exec i s = .next t →
    t.cfg = s.cfg ∧
    (∀ b, t.dec.get b ≠ s.dec.get b → ∃ x, i = .feed b x) ∧
    (∀ b, t.hand.get b ≠ s.hand.get b → (∃ x, i = .feed b x) ∨ i = .poll b) ∧
    (∀ b, (s.hand.get b).rdy = true → (t.hand.get b).rdy = false → i = .poll b) ∧
    (t.store ≠ s.store → (∃ sig, i = .append sig) ∨ (∃ u, i = .remove u) ∨ (∃ u name, i = .rename u name) ∨
      i = .clear ∨ ∃ b, i = .poll b) ∧
    (t.seq.lastReceived ≠ s.seq.lastReceived → ∃ b, i = .poll b) ∧
    (t.seq.lastCaptured ≠ s.seq.lastCaptured → i = .capen ∨ ∃ b, i = .poll b) ∧
    (t.seq.sendCount ≠ s.seq.sendCount → i = .ctrrst ∨ (∃ a k b p u, i = .sends a k b p u) ∨ ∃ a k b, i = .sendr a k b) ∧
    (t.seq.receiveCount ≠ s.seq.receiveCount → i = .ctrrst ∨ ∃ b, i = .poll b) ∧
    t.ports.schedule = s.ports.schedule ∧ t.ports.edgeIn = s.ports.edgeIn ∧ t.ports.cmdIn = s.ports.cmdIn ∧
    (∀ b, t.ports.edgeOut.get b ≠ s.ports.edgeOut.get b → ∃ x, i = .feed b x) ∧
    (t.ports.cmdOut ≠ s.ports.cmdOut → ∀ b x, i ≠ .feed b x)

/-! ### The round trip and the open parameters -/

/-- Each repetition of an ideal train closes one window: fed to a decoder that hunts, the gap of every trailing sync is
answered by the match of the ideal window, every other duration by nothing; the decoder hunts again afterwards and
nothing of the other agents changes (R152, R154, R155); outside `1 ≤ L ≤ 32` it is about the model's own choice (log 14). -/
def Obligations.EveryRepetitionClosesItsWindow : Prop :=
  ∀ (s : State) (b : Band) (P : Protocol) (unit : BitVec 16) (L : Nat) (code : BitVec 32) (reps : Nat),
    s.cfg.Sized → (s.dec.get b).rc = 0 → TrainFits s.cfg P unit L →
    (∀ n, n < 2 * reps * (L + 2) →
      FeedAnswers s b (durations code L P unit.toNat reps) n
        (if n % (2 * (L + 2)) = closingIndex P L then matchAll s.cfg (idealWindow code L P unit) else none)) ∧
    ∃ t, execAll (feeds b (durations code L P unit.toNat reps)) s = .next t ∧ (t.dec.get b).rc = 0 ∧
      (1 ≤ reps → ∀ r, matchAll s.cfg (idealWindow code L P unit) = some r →
        t.hand.get b = { rdy := true, shadow := r }) ∧
      EdgeFrame b s t

/-- R156 for a protocol and a unit whose trains fit comes to one check of the table: for every 24-bit code the table's
first accepting entry gives the ideal window's code, length, protocol and unit. -/
def Obligations.RoundTripIsACheckOfTheTable : Prop :=
  ∀ (c : Config) (P : Protocol) (unit : BitVec 16), c.Sized → TrainFits c P unit 24 →
    (RoundTripOf c P unit ↔ ∀ code : BitVec 32, code.toNat < 2 ^ 24 →
      matchAll c (idealWindow code 24 P unit) = some (idealResult code 24 P unit))

/-- R156 holds of a table and units where every train fits, no one is taken for a zero, and no lower id accepts a window of
a higher one. -/
def Obligations.SeparatedTableRoundTrips : Prop :=
  ∀ (c : Config) (unit : Protocol → BitVec 16), c.Sized → c.minPairs < 24 →
    (∀ k P, c.pt[k]? = some P → TrainFits c P (unit P) 24 ∧ SymbolsApart c P (unit P).toNat ∧
      ∀ (code : BitVec 32) (j : Nat) (Q : Protocol), code.toNat < 2 ^ 24 → j < k → c.pt[j]? = some Q →
        tryMatch c (idealWindow code 24 P (unit P)) Q = none) →
    RoundTrip c unit

/-- Where R156 fails, as the rule says: two entries of a well-formed table with the same ratios, or a train none of whose
durations exceeds the separation limit, so that no gap is seen. -/
def Obligations.RoundTripFailsWhereTheSpecSays : Prop :=
  (∀ (c : Config) (unit : Protocol → BitVec 16) (j k : Nat) (P Q : Protocol), c.TableOk → j < k →
    c.pt[j]? = some Q → c.pt[k]? = some P →
    Q.sync = P.sync → Q.zero = P.zero → Q.one = P.one → Q.inverted = P.inverted → ¬ RoundTrip c unit) ∧
  (∀ (c : Config) (unit : Protocol → BitVec 16) (P : Protocol), P ∈ c.pt → c.separationLimitUs < 2 ^ 32 →
    (unit P).toNat * syncPulses P ≤ c.separationLimitUs →
    (∀ bit, (unit P).toNat * (symbol P bit).high.toNat ≤ c.separationLimitUs ∧
      (unit P).toNat * (symbol P bit).low.toNat ≤ c.separationLimitUs) →
    ¬ RoundTrip c unit)

/-- The platform's open parameters meet every constraint of R6 and R8, so `State.reset` has a legal configuration; that it
is the source's defaults with open parameters is the model's choice (log 2). -/
def Obligations.ResetConfigurationIsLegal : Prop := State.reset.cfg.Legal

/-- With a legal configuration `SENDR` asks for a protocol of the table, and the Encoder's train for its request is the
train of that entry, with the address as 24 bits, the band's default unit and the default repeat count (R6, R172, R173). -/
def Obligations.SendrDefaultIsATableProtocol : Prop :=
  ∀ (s : State) (address : BitVec 24) (key : BitVec 8) (band : Band), s.cfg.Legal →
    ∃ t r P, exec (.sendr address key band) s = .next t ∧ t.ports.cmdOut = some r ∧ r.status = .tx ∧
      P ∈ s.cfg.pt ∧ r.w0.toNat / 2 ^ 40 % 2 ^ 8 = P.id.toNat ∧
      trainOf s.cfg (makeTx s.cfg address band (s.cfg.defaultProto.get band) (s.cfg.defaultUnit.get band)) =
        train (BitVec.ofNat 32 address.toNat) 24 P (s.cfg.defaultUnit.get band).toNat s.cfg.defaultRepeat.toNat
end

