-- ==== Sys2Proof/Laws/State.lean ====
section
/-! SUPPORT. One lemma per field per named update of the state, and the laws of values held per band. -/

namespace Sys2Proof

@[simp] theorem PerBand.get_set_same {α : Type} (p : PerBand α) (b : Band) (v : α) : (p.set b v).get b = v := by
  cases b <;> rfl

theorem PerBand.get_set {α : Type} (p : PerBand α) (b b' : Band) (v : α) :
    (p.set b v).get b' = if b' = b then v else p.get b' := by
  cases b <;> cases b' <;> rfl

@[simp] theorem PerBand.get_set_other {α : Type} (p : PerBand α) {b b' : Band} (v : α) (h : b' ≠ b) :
    (p.set b v).get b' = p.get b' := by
  rw [PerBand.get_set, if_neg h]

@[simp] theorem PerBand.set_get {α : Type} (p : PerBand α) (b : Band) : p.set b (p.get b) = p := by
  cases b <;> rfl

@[simp] theorem PerBand.set_set {α : Type} (p : PerBand α) (b : Band) (v w : α) : (p.set b v).set b w = p.set b w := by
  cases b <;> rfl

theorem PerBand.set_comm {α : Type} (p : PerBand α) {b b' : Band} (v w : α) (h : b ≠ b') :
    (p.set b v).set b' w = (p.set b' w).set b v := by
  cases b <;> cases b' <;> first | rfl | exact absurd rfl h

theorem PerBand.ext_get {α : Type} {p q : PerBand α} (h : ∀ b, p.get b = q.get b) : p = q := by
  have h0 := h .b433
  have h1 := h .b315
  cases p; cases q; simp_all [PerBand.get]

namespace Machine

@[simp] theorem State.setDec_cfg (s : State) (b : Band) (d : Decoder) : (s.setDec b d).cfg = s.cfg := rfl
@[simp] theorem State.setDec_dec (s : State) (b : Band) (d : Decoder) : (s.setDec b d).dec = s.dec.set b d := rfl
@[simp] theorem State.setDec_hand (s : State) (b : Band) (d : Decoder) : (s.setDec b d).hand = s.hand := rfl
@[simp] theorem State.setDec_store (s : State) (b : Band) (d : Decoder) : (s.setDec b d).store = s.store := rfl
@[simp] theorem State.setDec_seq (s : State) (b : Band) (d : Decoder) : (s.setDec b d).seq = s.seq := rfl
@[simp] theorem State.setDec_ports (s : State) (b : Band) (d : Decoder) : (s.setDec b d).ports = s.ports := rfl

@[simp] theorem State.setHand_cfg (s : State) (b : Band) (h : Handoff) : (s.setHand b h).cfg = s.cfg := rfl
@[simp] theorem State.setHand_dec (s : State) (b : Band) (h : Handoff) : (s.setHand b h).dec = s.dec := rfl
@[simp] theorem State.setHand_hand (s : State) (b : Band) (h : Handoff) : (s.setHand b h).hand = s.hand.set b h := rfl
@[simp] theorem State.setHand_store (s : State) (b : Band) (h : Handoff) : (s.setHand b h).store = s.store := rfl
@[simp] theorem State.setHand_seq (s : State) (b : Band) (h : Handoff) : (s.setHand b h).seq = s.seq := rfl
@[simp] theorem State.setHand_ports (s : State) (b : Band) (h : Handoff) : (s.setHand b h).ports = s.ports := rfl

@[simp] theorem State.setStore_cfg (s : State) (st : Store) : (s.setStore st).cfg = s.cfg := rfl
@[simp] theorem State.setStore_dec (s : State) (st : Store) : (s.setStore st).dec = s.dec := rfl
@[simp] theorem State.setStore_hand (s : State) (st : Store) : (s.setStore st).hand = s.hand := rfl
@[simp] theorem State.setStore_store (s : State) (st : Store) : (s.setStore st).store = st := rfl
@[simp] theorem State.setStore_seq (s : State) (st : Store) : (s.setStore st).seq = s.seq := rfl
@[simp] theorem State.setStore_ports (s : State) (st : Store) : (s.setStore st).ports = s.ports := rfl

@[simp] theorem State.setSeq_cfg (s : State) (q : Sequencer) : (s.setSeq q).cfg = s.cfg := rfl
@[simp] theorem State.setSeq_dec (s : State) (q : Sequencer) : (s.setSeq q).dec = s.dec := rfl
@[simp] theorem State.setSeq_hand (s : State) (q : Sequencer) : (s.setSeq q).hand = s.hand := rfl
@[simp] theorem State.setSeq_store (s : State) (q : Sequencer) : (s.setSeq q).store = s.store := rfl
@[simp] theorem State.setSeq_seq (s : State) (q : Sequencer) : (s.setSeq q).seq = q := rfl
@[simp] theorem State.setSeq_ports (s : State) (q : Sequencer) : (s.setSeq q).ports = s.ports := rfl

@[simp] theorem State.respondEdge_cfg (s : State) (b : Band) (r : EdgeResponse) : (s.respondEdge b r).cfg = s.cfg := rfl
@[simp] theorem State.respondEdge_dec (s : State) (b : Band) (r : EdgeResponse) : (s.respondEdge b r).dec = s.dec := rfl
@[simp] theorem State.respondEdge_hand (s : State) (b : Band) (r : EdgeResponse) : (s.respondEdge b r).hand = s.hand := rfl
@[simp] theorem State.respondEdge_store (s : State) (b : Band) (r : EdgeResponse) : (s.respondEdge b r).store = s.store := rfl
@[simp] theorem State.respondEdge_seq (s : State) (b : Band) (r : EdgeResponse) : (s.respondEdge b r).seq = s.seq := rfl
@[simp] theorem State.respondEdge_ports (s : State) (b : Band) (r : EdgeResponse) : (s.respondEdge b r).ports = { s.ports with edgeOut := s.ports.edgeOut.set b r } := rfl

@[simp] theorem State.respond_cfg (s : State) (r : CmdResponse) : (s.respond r).cfg = s.cfg := rfl
@[simp] theorem State.respond_dec (s : State) (r : CmdResponse) : (s.respond r).dec = s.dec := rfl
@[simp] theorem State.respond_hand (s : State) (r : CmdResponse) : (s.respond r).hand = s.hand := rfl
@[simp] theorem State.respond_store (s : State) (r : CmdResponse) : (s.respond r).store = s.store := rfl
@[simp] theorem State.respond_seq (s : State) (r : CmdResponse) : (s.respond r).seq = s.seq := rfl
@[simp] theorem State.respond_ports (s : State) (r : CmdResponse) : (s.respond r).ports = { s.ports with cmdOut := some r } := rfl

@[simp] theorem State.raise_cfg (s : State) (e : Status) (idx : BitVec 8) : (s.raise e idx).cfg = s.cfg := rfl
@[simp] theorem State.raise_dec (s : State) (e : Status) (idx : BitVec 8) : (s.raise e idx).dec = s.dec := rfl
@[simp] theorem State.raise_hand (s : State) (e : Status) (idx : BitVec 8) : (s.raise e idx).hand = s.hand := rfl
@[simp] theorem State.raise_store (s : State) (e : Status) (idx : BitVec 8) : (s.raise e idx).store = s.store := rfl
@[simp] theorem State.raise_seq (s : State) (e : Status) (idx : BitVec 8) : (s.raise e idx).seq = s.seq := rfl
@[simp] theorem State.raise_ports (s : State) (e : Status) (idx : BitVec 8) : (s.raise e idx).ports = { s.ports with cmdOut := some { status := e, idx := idx } } := rfl

/-- Publishing writes the band's handoff and nothing else (R118). -/
@[simp] theorem publish_eq (s : State) (b : Band) (r : DecodeResult) :
    publish s b r = s.setHand b { rdy := true, shadow := r } := rfl

@[simp] theorem deliver_none (s : State) (b : Band) : deliver s b none = s := rfl

@[simp] theorem deliver_some (s : State) (b : Band) (r : DecodeResult) :
    deliver s b (some r) = s.setHand b { rdy := true, shadow := r } := rfl

@[simp] theorem deliver_cfg (s : State) (b : Band) (o : Option DecodeResult) : (deliver s b o).cfg = s.cfg := by
  cases o <;> rfl
@[simp] theorem deliver_dec (s : State) (b : Band) (o : Option DecodeResult) : (deliver s b o).dec = s.dec := by
  cases o <;> rfl
@[simp] theorem deliver_store (s : State) (b : Band) (o : Option DecodeResult) : (deliver s b o).store = s.store := by
  cases o <;> rfl
@[simp] theorem deliver_seq (s : State) (b : Band) (o : Option DecodeResult) : (deliver s b o).seq = s.seq := by
  cases o <;> rfl
@[simp] theorem deliver_ports (s : State) (b : Band) (o : Option DecodeResult) : (deliver s b o).ports = s.ports := by
  cases o <;> rfl

/-- Delivering a result writes the band's handoff when there is a result. -/
theorem deliver_hand (s : State) (b : Band) (o : Option DecodeResult) :
    (deliver s b o).hand = match o with
      | some r => s.hand.set b { rdy := true, shadow := r }
      | none => s.hand := by
  cases o <;> rfl

end Machine

end Sys2Proof
end

