-- ==== Sys2Proof/Laws/Decode.lean ====
section
/-! SUPPORT. The laws of the encodings: fields of packed words read back, names read back, and opcodes read back. -/

namespace Sys2Proof

theorem Band.ofCode_code (b : Band) : Band.ofCode b.code = b := by cases b <;> rfl

theorem Opcode.ofCode_code (op : Opcode) : Opcode.ofCode op.code = some op := by cases op <;> decide

/-- An `op` field names a command exactly when it is that command's code (R84). -/
theorem Opcode.ofCode_eq_some {c : BitVec 8} {op : Opcode} (h : Opcode.ofCode c = some op) : op.code = c := by
  simpa using List.find?_some h

/-- A concatenation as a number: the left part stands above the right one (R9). -/
theorem toNat_append_add {m n : Nat} (x : BitVec m) (y : BitVec n) : (x ++ y).toNat = x.toNat * 2 ^ n + y.toNat := by
  rw [BitVec.toNat_append, ← Nat.shiftLeft_add_eq_or_of_lt y.isLt, Nat.shiftLeft_eq]

/-- A field as a number: shifted down and cut off (R9). -/
theorem toNat_extract {n : Nat} (w : BitVec n) (lo len : Nat) :
    (w.extractLsb' lo len).toNat = w.toNat / 2 ^ lo % 2 ^ len := by
  rw [BitVec.extractLsb'_toNat, Nat.shiftRight_eq_div_pow]

theorem opField_commandWord (op : Opcode) (arg : BitVec 8) : opField (commandWord op arg) = op.code := by
  apply BitVec.eq_of_toNat_eq
  rw [opField, toNat_extract, commandWord, toNat_append_add]
  have := arg.isLt
  have := op.code.isLt
  omega

theorem argField_commandWord (op : Opcode) (arg : BitVec 8) : argField (commandWord op arg) = arg := by
  apply BitVec.eq_of_toNat_eq
  rw [argField, toNat_extract, commandWord, toNat_append_add]
  have := arg.isLt
  omega

theorem commandWord_fields (cw : BitVec 16) : opField cw ++ argField cw = cw := by
  apply BitVec.eq_of_toNat_eq
  rw [toNat_append_add, opField, argField, toNat_extract, toNat_extract]
  have := cw.isLt
  omega

/-- `SIGW` as a number (R85). -/
theorem packSigFields_toNat (address : BitVec 24) (key : BitVec 8) (band : Band) (p : BitVec 8) (unit : BitVec 16)
    (nv : Bool) :
    (packSigFields address key band p unit nv).toNat =
      (((((bit1 nv).toNat * 2 + band.code.toNat) * 2 ^ 16 + unit.toNat) * 2 ^ 8 + p.toNat) * 2 ^ 8 + key.toNat) * 2 ^ 24
        + address.toNat := by
  simp only [packSigFields, toNat_append_add]
  simp

section fields

variable (address : BitVec 24) (key : BitVec 8) (band : Band) (p : BitVec 8) (unit : BitVec 16) (nv : Bool)

theorem sigAddress_pack : sigAddress (packSigFields address key band p unit nv) = address := by
  apply BitVec.eq_of_toNat_eq
  rw [sigAddress, toNat_extract, packSigFields_toNat]
  have := address.isLt
  omega

theorem sigKey_pack : sigKey (packSigFields address key band p unit nv) = key := by
  apply BitVec.eq_of_toNat_eq
  rw [sigKey, toNat_extract, packSigFields_toNat]
  have := address.isLt
  have := key.isLt
  omega

theorem sigProtocol_pack : sigProtocol (packSigFields address key band p unit nv) = p := by
  apply BitVec.eq_of_toNat_eq
  rw [sigProtocol, toNat_extract, packSigFields_toNat]
  have := address.isLt
  have := key.isLt
  have := p.isLt
  omega

theorem sigUnit_pack : sigUnit (packSigFields address key band p unit nv) = unit := by
  apply BitVec.eq_of_toNat_eq
  rw [sigUnit, toNat_extract, packSigFields_toNat]
  have := address.isLt
  have := key.isLt
  have := p.isLt
  have := unit.isLt
  omega

theorem sigBand_pack : sigBand (packSigFields address key band p unit nv) = band := by
  have h : (packSigFields address key band p unit nv).extractLsb' 56 1 = band.code := by
    apply BitVec.eq_of_toNat_eq
    rw [toNat_extract, packSigFields_toNat]
    have := address.isLt
    have := key.isLt
    have := p.isLt
    have := unit.isLt
    have := band.code.isLt
    omega
  rw [sigBand, h, Band.ofCode_code]

theorem sigNameValid_pack : sigNameValid (packSigFields address key band p unit nv) = nv := by
  have h : (packSigFields address key band p unit nv).extractLsb' 57 1 = bit1 nv := by
    apply BitVec.eq_of_toNat_eq
    rw [toNat_extract, packSigFields_toNat]
    have := address.isLt
    have := key.isLt
    have := p.isLt
    have := unit.isLt
    have := band.code.isLt
    have := (bit1 nv).isLt
    omega
  rw [sigNameValid, h]
  cases nv <;> rfl

theorem sigReserved_pack : sigReserved (packSigFields address key band p unit nv) = 0 := by
  apply BitVec.eq_of_toNat_eq
  rw [sigReserved, toNat_extract, packSigFields_toNat]
  have := address.isLt
  have := key.isLt
  have := p.isLt
  have := unit.isLt
  have := band.code.isLt
  have := (bit1 nv).isLt
  simp only [BitVec.ofNat_eq_ofNat, BitVec.toNat_ofNat]
  omega

end fields

/-- A name operand gives the name back (R86). -/
theorem unpackName_packName (name : Name) : unpackName name.length (packName name) = name := by
  induction name with
  | nil => rfl
  | cons b rest ih =>
    have hb := b.isLt
    have h1 : (b.toNat + 256 * packName rest) / 256 = packName rest := by omega
    have h2 : BitVec.ofNat 8 (b.toNat + 256 * packName rest) = b := by
      apply BitVec.eq_of_toNat_eq
      rw [BitVec.toNat_ofNat]
      omega
    rw [List.length_cons, unpackName, packName, h1, h2, ih]

theorem unpackName_length (len n : Nat) : (unpackName len n).length = len := by
  induction len generalizing n with
  | zero => rfl
  | succ len ih => simp [unpackName, ih]

end Sys2Proof
end

