-- ==== Sys2Proof/Laws/Memory.lean ====
section
/-! SUPPORT. The laws of the storage spaces: read after write, and that a write keeps the canonical form and the bounds. -/

namespace Sys2Proof.Machine

variable {α : Type}

theorem Memory.read?_write_same (m : Memory α) (i : Nat) (v : α) : (m.write i v).read? i = some v := by
  induction m with
  | nil => simp [Memory.write, Memory.read?]
  | cons p rest ih =>
    obtain ⟨j, w⟩ := p
    simp only [Memory.write]
    split
    · simp [Memory.read?]
    · split
      · simp [Memory.read?]
      · rename_i h
        simp [Memory.read?, h, ih]

theorem Memory.read?_write_other (m : Memory α) {i k : Nat} (v : α) (h : k ≠ i) :
    (m.write i v).read? k = m.read? k := by
  induction m with
  | nil => simp [Memory.write, Memory.read?, h]
  | cons p rest ih =>
    obtain ⟨j, w⟩ := p
    simp only [Memory.write]
    split
    · simp [Memory.read?, h]
    · split
      · rename_i hij
        subst hij
        simp [Memory.read?, h]
      · simp [Memory.read?, ih]

/-- The read of one element after a write. -/
theorem Memory.read?_write (m : Memory α) (i k : Nat) (v : α) :
    (m.write i v).read? k = if k = i then some v else m.read? k := by
  split
  · rename_i h; rw [h, Memory.read?_write_same]
  · rename_i h; exact Memory.read?_write_other m v h

/-- What a written space lists. -/
theorem Memory.mem_write {m : Memory α} {i : Nat} {v : α} {p : Nat × α} (h : p ∈ m.write i v) :
    p = (i, v) ∨ p ∈ m := by
  induction m with
  | nil => simpa [Memory.write] using h
  | cons q rest ih =>
    obtain ⟨j, w⟩ := q
    simp only [Memory.write] at h
    split at h
    · simpa using h
    · split at h
      · rcases List.mem_cons.mp h with h | h
        · exact .inl h
        · exact .inr (List.mem_cons_of_mem _ h)
      · rcases List.mem_cons.mp h with h | h
        · exact .inr (by simp [h])
        · rcases ih h with h | h
          · exact .inl h
          · exact .inr (List.mem_cons_of_mem _ h)

/-- The canonical form, seen from a listed index: every later index is larger. -/
theorem Memory.wf_cons {j : Nat} {w : α} {rest : Memory α} :
    Memory.wf ((j, w) :: rest) = true ↔ (∀ p ∈ rest, j < p.1) ∧ Memory.wf rest = true := by
  induction rest generalizing j w with
  | nil => simp [Memory.wf]
  | cons q rest ih =>
    obtain ⟨k, x⟩ := q
    simp only [Memory.wf, Bool.and_eq_true, decide_eq_true_eq, List.mem_cons, forall_eq_or_imp]
    rw [ih]
    constructor
    · rintro ⟨h1, h2, h3⟩
      exact ⟨⟨h1, fun p hp => Nat.lt_trans h1 (h2 p hp)⟩, h2, h3⟩
    · rintro ⟨⟨h1, _⟩, h2, h3⟩
      exact ⟨h1, h2, h3⟩

/-- A write keeps the canonical form. -/
theorem Memory.wf_write {m : Memory α} (h : m.wf = true) (i : Nat) (v : α) : (m.write i v).wf = true := by
  induction m with
  | nil => simp [Memory.write, Memory.wf]
  | cons q rest ih =>
    obtain ⟨j, w⟩ := q
    have hc := Memory.wf_cons.mp h
    simp only [Memory.write]
    split
    · rename_i hij
      refine Memory.wf_cons.mpr ⟨fun p hp => ?_, h⟩
      rcases List.mem_cons.mp hp with hp | hp
      · rw [hp]; exact hij
      · exact Nat.lt_trans hij (hc.1 p hp)
    · split
      · rename_i hij
        subst hij
        exact Memory.wf_cons.mpr hc
      · refine Memory.wf_cons.mpr ⟨fun p hp => ?_, ih hc.2⟩
        rcases Memory.mem_write hp with hp | hp
        · rw [hp]; simp only; omega
        · exact hc.1 p hp

/-- A write below the bound keeps every index below it. -/
theorem Memory.below_write {m : Memory α} {size i : Nat} (h : m.Below size) (hi : i < size) (v : α) :
    (m.write i v).Below size := by
  intro p hp
  rcases Memory.mem_write hp with hp | hp
  · rw [hp]; exact hi
  · exact h p hp

/-- What a read finds is listed. -/
theorem Memory.mem_of_read? {m : Memory α} {i : Nat} {v : α} (h : m.read? i = some v) : (i, v) ∈ m := by
  induction m with
  | nil => simp [Memory.read?] at h
  | cons q rest ih =>
    obtain ⟨j, w⟩ := q
    simp only [Memory.read?] at h
    split at h
    · rename_i hij
      simp at h
      simp [hij, h]
    · exact List.mem_cons_of_mem _ (ih h)

/-- Two canonical spaces that read the same are the same data. -/
theorem Memory.ext_read? {m m' : Memory α} (h : m.wf = true) (h' : m'.wf = true)
    (hr : ∀ i, m.read? i = m'.read? i) : m = m' := by
  have none_below : ∀ {m : Memory α} {i : Nat}, (∀ p ∈ m, i < p.1) → m.read? i = none := by
    intro m i hlt
    cases hm : m.read? i with
    | none => rfl
    | some v => exact absurd (hlt _ (Memory.mem_of_read? hm)) (Nat.lt_irrefl _)
  induction m generalizing m' with
  | nil =>
    cases m' with
    | nil => rfl
    | cons q rest => obtain ⟨j, w⟩ := q; simpa [Memory.read?] using hr j
  | cons q rest ih =>
    obtain ⟨j, w⟩ := q
    have hc := Memory.wf_cons.mp h
    cases m' with
    | nil => simpa [Memory.read?] using hr j
    | cons q' rest' =>
      obtain ⟨j', w'⟩ := q'
      have hc' := Memory.wf_cons.mp h'
      have hj : j = j' := by
        rcases Nat.lt_trichotomy j j' with hlt | heq | hlt
        · have := hr j
          rw [none_below (m := (j', w') :: rest') (i := j)] at this
          · simp [Memory.read?] at this
          · intro p hp
            rcases List.mem_cons.mp hp with hp | hp
            · rw [hp]; exact hlt
            · exact Nat.lt_trans hlt (hc'.1 p hp)
        · exact heq
        · have := hr j'
          rw [none_below (m := (j, w) :: rest) (i := j')] at this
          · simp [Memory.read?] at this
          · intro p hp
            rcases List.mem_cons.mp hp with hp | hp
            · rw [hp]; exact hlt
            · exact Nat.lt_trans hlt (hc.1 p hp)
      subst hj
      have hw : w = w' := by simpa [Memory.read?] using hr j
      subst hw
      have : rest = rest' := by
        apply ih hc.2 hc'.2
        intro i
        by_cases hi : i = j
        · subst hi
          rw [none_below hc.1, none_below hc'.1]
        · simpa [Memory.read?, hi] using hr i
      rw [this]

/-- `T[b][i]` after a write. -/
theorem timingAt_write (b : Band) (d : Decoder) (m : Memory Duration) (i k cc rc : Nat) (x : Duration)
    (h : d.timing = m) :
    timingAt b { timing := m.write i x, cc := cc, rc := rc } k = if k = i then x else timingAt b d k := by
  subst h
  simp only [timingAt, Memory.read?_write]
  split <;> rfl

/-- `S[k]` after a write. -/
theorem slotAt_write (st : Store) (m : Memory Signal) (i k w n : Nat) (sig : Signal) (h : st.slots = m) :
    slotAt { slots := m.write i sig, widx := w, count := n } k = if k = i then sig else slotAt st k := by
  subst h
  simp only [slotAt, Memory.read?_write]
  split <;> rfl

/-- The memory after reset is canonical. -/
theorem reset_canonical (c : Config) (b : Band) :
    ((State.resetWith c).dec.get b).timing.wf = true ∧ (State.resetWith c).store.slots.wf = true := by
  cases b <;> exact ⟨rfl, rfl⟩

end Sys2Proof.Machine
end

