-- ==== Sys2Proof/Laws/Decoder.lean ====
section
/-! SUPPORT. The laws of the decoders: the tolerance tests, the pairs of a window, the code of a list of bits, and what a sample does. -/

namespace Sys2Proof.Machine

/-! ### The protocol matcher -/

theorem absdiff_le_iff {a e tol : Nat} : absdiff a e ≤ tol ↔ Near tol e a := by
  unfold absdiff Near
  split <;> omega

theorem fits_iff {ud tol : Nat} {r : Ratio} {pair : Duration × Duration} :
    fits ud tol r pair = true ↔ PairNear ud tol r pair.1.toNat pair.2.toNat := by
  simp [fits, PairNear, absdiff_le_iff]

theorem classify_eq_zero {P : Protocol} {ud tol : Nat} {pair : Duration × Duration} :
    classify P ud tol pair = some false ↔ PairNear ud tol P.zero pair.1.toNat pair.2.toNat := by
  rw [← fits_iff]
  unfold classify
  split
  · simp_all
  · split <;> simp_all

theorem classify_eq_one {P : Protocol} {ud tol : Nat} {pair : Duration × Duration} :
    classify P ud tol pair = some true ↔
      ¬ PairNear ud tol P.zero pair.1.toNat pair.2.toNat ∧ PairNear ud tol P.one pair.1.toNat pair.2.toNat := by
  rw [← fits_iff, ← fits_iff]
  unfold classify
  split
  · simp_all
  · split <;> simp_all

theorem pairsOf_length : ∀ xs : List Duration, (pairsOf xs).length = xs.length / 2
  | [] => rfl
  | [_] => by simp [pairsOf]
  | _ :: _ :: rest => by
    rw [pairsOf, List.length_cons, pairsOf_length rest]
    simp only [List.length_cons]
    omega

/-- The `k`-th pair of a list of durations (R122). -/
theorem pairsOf_getElem? : ∀ (xs : List Duration) (k : Nat), k < xs.length / 2 →
    (pairsOf xs)[k]? = some (xs.getD (2 * k) 0, xs.getD (2 * k + 1) 0)
  | [], k, h => by simp at h
  | [_], k, h => by simp at h
  | a :: c :: rest, 0, _ => by simp [pairsOf]
  | a :: c :: rest, k + 1, h => by
    have h' : k < rest.length / 2 := by simp only [List.length_cons] at h; omega
    rw [pairsOf, List.getElem?_cons_succ, pairsOf_getElem? rest k h']
    have h1 : 2 * (k + 1) = 2 * k + 1 + 1 := by omega
    simp [h1]

/-- All the pairs are classified exactly when each is (R123). -/
theorem classifyAll_eq_some {P : Protocol} {ud tol : Nat} {pairs : List (Duration × Duration)} {bits : List Bool} :
    classifyAll P ud tol pairs = some bits ↔
      bits.length = pairs.length ∧ ∀ (k : Nat) (pair : Duration × Duration), pairs[k]? = some pair → classify P ud tol pair = bits[k]? := by
  induction pairs generalizing bits with
  | nil =>
    constructor
    · intro h
      have : bits = [] := by simpa [classifyAll, eq_comm] using h
      simp [this]
    · rintro ⟨h, _⟩
      have : bits = [] := List.eq_nil_of_length_eq_zero h
      simp [classifyAll, this]
  | cons pair rest ih =>
    constructor
    · intro h
      rw [classifyAll] at h
      cases hb : classify P ud tol pair with
      | none => rw [hb] at h; simp at h
      | some bit =>
        rw [hb] at h
        cases hr : classifyAll P ud tol rest with
        | none => rw [hr] at h; simp at h
        | some more =>
          rw [hr] at h
          have hbits : bits = bit :: more := by simpa [eq_comm] using h
          obtain ⟨hl, hk⟩ := ih.mp hr
          subst hbits
          refine ⟨by simp [hl], ?_⟩
          intro k p hp
          cases k with
          | zero => simp at hp ⊢; rw [← hp, hb]
          | succ k => simp at hp ⊢; exact hk k p hp
    · rintro ⟨hl, hk⟩
      cases bits with
      | nil => simp at hl
      | cons bit more =>
        have hb : classify P ud tol pair = some bit := by simpa using hk 0 pair (by simp)
        have hr : classifyAll P ud tol rest = some more :=
          ih.mpr ⟨by simpa using hl, fun k p hp => by simpa using hk (k + 1) p (by simpa using hp)⟩
        rw [classifyAll, hb, hr]

theorem pushBit_toNat (code : BitVec 32) (bit : Bool) :
    (pushBit code bit).toNat = (2 * code.toNat + bit.toNat) % 2 ^ 32 := by
  have h : pushBit code bit = BitVec.ofNat 32 (2 * code.toNat + bit.toNat) := by
    apply BitVec.eq_of_getLsbD_eq
    intro i hi
    rw [BitVec.getLsbD_ofNat]
    cases i with
    | zero => cases bit <;> simp [pushBit, bit1, Nat.testBit_zero, Nat.add_mod]
    | succ n =>
      have h2 : (2 * code.toNat + bit.toNat) / 2 = code.toNat := by
        cases bit
        · simp
        · simp; omega
      rw [Nat.testBit_succ, h2]
      simp only [pushBit, BitVec.getLsbD_or, BitVec.getLsbD_shiftLeft, BitVec.getLsbD_setWidth, hi, decide_true,
        Bool.true_and]
      have : (bit1 bit).getLsbD (n + 1) = false := BitVec.getLsbD_of_ge _ _ (by omega)
      rw [this]
      simp [BitVec.getLsbD]
  rw [h, BitVec.toNat_ofNat]

/-- The code of a list of bits as a number (R124). -/
theorem codeOf_toNat (bits : List Bool) :
    (codeOf bits).toNat = bits.foldl (fun v bit => 2 * v + bit.toNat) 0 % 2 ^ 32 := by
  have key : ∀ (bits : List Bool) (v : BitVec 32) (n : Nat), v.toNat = n % 2 ^ 32 →
      (bits.foldl pushBit v).toNat = bits.foldl (fun v bit => 2 * v + bit.toNat) n % 2 ^ 32 := by
    intro bits
    induction bits with
    | nil => intro v n h; exact h
    | cons bit rest ih =>
      intro v n h
      apply ih
      rw [pushBit_toNat, h]
      show _ = (2 * n + bit.toNat) % 2 ^ 32
      omega
  exact key bits 0 0 rfl

/-- The bits `L-1 .. 0` of a code below `2^L` are the code again (R124, R152). -/
theorem codeOf_bitsMsbFirst {code : BitVec 32} {L : Nat} (h : code.toNat < 2 ^ L) :
    codeOf (bitsMsbFirst code L) = code := by
  have key : ∀ (L v : Nat), (bitsMsbFirst code L).foldl (fun v bit => 2 * v + bit.toNat) v =
      v * 2 ^ L + code.toNat % 2 ^ L := by
    intro L
    induction L with
    | zero => intro v; simp [bitsMsbFirst, Nat.mod_one]
    | succ L ih =>
      intro v
      rw [bitsMsbFirst, List.foldl_cons, ih]
      have hb : code.toNat % 2 ^ (L + 1) = (code.getLsbD L).toNat * 2 ^ L + code.toNat % 2 ^ L := by
        rw [Nat.mod_pow_succ, BitVec.getLsbD, Nat.testBit_eq_decide_div_mod_eq]
        rcases Nat.mod_two_eq_zero_or_one (code.toNat / 2 ^ L) with h2 | h2 <;> simp [h2, Nat.add_comm]
      rw [hb, pow_succ]
      ring
  apply BitVec.eq_of_toNat_eq
  rw [codeOf_toNat, key]
  have := code.isLt
  rw [Nat.mod_eq_of_lt h]
  omega

theorem bitsMsbFirst_length (code : BitVec 32) (L : Nat) : (bitsMsbFirst code L).length = L := by
  induction L with
  | zero => rfl
  | succ L ih => simp [bitsMsbFirst, ih]

/-! ### A sample -/

theorem isGap_iff {c : Config} {x : Duration} : isGap c x = true ↔ c.separationLimitUs < x.toNat := by
  simp [isGap]

theorem gapCounts_iff {c : Config} {b : Band} {d : Decoder} {x : Duration} :
    gapCounts c b d x = true ↔ d.rc = 0 ∨ Near c.syncMatchUs (timingAt b d 0).toNat x.toNat := by
  simp [gapCounts, absdiff_le_iff]

theorem gapCloses_iff {c : Config} {b : Band} {d : Decoder} {x : Duration} :
    gapCloses c b d x = true ↔ d.rc = 1 ∧ Near c.syncMatchUs (timingAt b d 0).toNat x.toNat := by
  simp only [gapCloses, Bool.and_eq_true, gapCounts_iff, beq_iff_eq]
  constructor
  · rintro ⟨h1 | h1, h2⟩
    · omega
    · exact ⟨by omega, h1⟩
  · rintro ⟨h1, h2⟩
    exact ⟨.inr h2, by omega⟩

/-- The three ways a gap leaves the repeat count (R113, R114). -/
theorem gapRepeat_cases (c : Config) (b : Band) (d : Decoder) (x : Duration) :
    (gapCloses c b d x = true ∧ gapRepeat c b d x = 0) ∨
    (gapCloses c b d x = false ∧ gapCounts c b d x = true ∧ gapRepeat c b d x = d.rc + 1) ∨
    (gapCloses c b d x = false ∧ gapCounts c b d x = false ∧ gapRepeat c b d x = d.rc) := by
  unfold gapRepeat
  cases gapCloses c b d x <;> cases gapCounts c b d x <;> simp

theorem window_length (b : Band) (d : Decoder) : (window b d).length = d.cc := by simp [window]

/-- A fresh window is the gap alone (R115). -/
theorem window_gapStep (c : Config) (b : Band) (d : Decoder) (x : Duration) :
    window b (gapStep c b d x) = [x] := by
  simp [window, gapStep, timingAt_write b d d.timing _ _ _ _ _ rfl]

/-- A data edge that does not fill the buffer is appended to the window (R116). -/
theorem window_dataStep {c : Config} {b : Band} {d : Decoder} {x : Duration} (h : d.cc + 1 ≠ c.cap) :
    window b (dataStep c d x) = window b d ++ [x] := by
  have hcc : (dataStep c d x).cc = d.cc + 1 := by simp [dataStep, h]
  have ht : ∀ k, timingAt b (dataStep c d x) k = if k = d.cc then x else timingAt b d k := fun k =>
    timingAt_write b d d.timing _ _ _ _ _ rfl
  unfold window
  rw [hcc, List.range_succ, List.map_append]
  congr 1
  · apply List.map_congr_left
    intro k hk
    rw [ht, if_neg (by simp at hk; omega)]
  · simp [ht]

/-- Everything a `FEED` does, field by field (R111, R118). -/
theorem feed_fields (b : Band) (x : Duration) (s : State) :
    (feed b x s).cfg = s.cfg ∧
    (feed b x s).dec = s.dec.set b (feedDecoder s.cfg b (s.dec.get b) x) ∧
    (feed b x s).hand = (match feedResult s.cfg b (s.dec.get b) x with
      | some r => s.hand.set b { rdy := true, shadow := r }
      | none => s.hand) ∧
    (feed b x s).store = s.store ∧ (feed b x s).seq = s.seq ∧
    (feed b x s).ports =
      { s.ports with edgeOut := s.ports.edgeOut.set b (edgeResponse (feedResult s.cfg b (s.dec.get b) x)) } := by
  simp only [feed]
  refine ⟨by simp, by simp, ?_, by simp, by simp, by simp⟩
  rw [State.respondEdge_hand, deliver_hand]
  rfl

/-- What a `FEED` leaves alone (R46, R130). -/
theorem feed_frame (b : Band) (x : Duration) (s : State) : EdgeFrame b s (feed b x s) := by
  obtain ⟨h1, h2, h3, h4, h5, h6⟩ := feed_fields b x s
  constructor
  · exact h1
  · intro b' hb; rw [h2, PerBand.get_set_other _ _ hb]
  · intro b' hb
    rw [h3]
    cases feedResult s.cfg b (s.dec.get b) x with
    | none => rfl
    | some r => exact PerBand.get_set_other _ _ hb
  · exact h4
  · exact h5
  · rw [h6]
  · rw [h6]
  · rw [h6]
  · intro b' hb; rw [h6]; exact PerBand.get_set_other _ _ hb
  · rw [h6]

/-- `EdgeFrame` is kept along a sequence of samples of one band. -/
theorem EdgeFrame.trans {b : Band} {s t u : State} (h : EdgeFrame b s t) (h' : EdgeFrame b t u) : EdgeFrame b s u where
  cfg := h'.cfg.trans h.cfg
  dec b' hb := (h'.dec b' hb).trans (h.dec b' hb)
  hand b' hb := (h'.hand b' hb).trans (h.hand b' hb)
  store := h'.store.trans h.store
  seq := h'.seq.trans h.seq
  schedule := h'.schedule.trans h.schedule
  edgeIn := h'.edgeIn.trans h.edgeIn
  cmdIn := h'.cmdIn.trans h.cmdIn
  edgeOut b' hb := (h'.edgeOut b' hb).trans (h.edgeOut b' hb)
  cmdOut := h'.cmdOut.trans h.cmdOut

end Sys2Proof.Machine
end

