-- ==== Sys2Proof/Laws/Store.lean ====
section
/-! SUPPORT. The laws of the signal store: the index translation, the live signals, and what the body of APPEND, the shift of REMOVE and the scans can do. -/

namespace Sys2Proof.Machine

/-! ### The index translation (R200) -/

theorem slot_lt {M : Nat} (st : Store) (u : Nat) (h : 0 < M) : slot M st u < M := Nat.mod_lt _ h

/-- `Slot(u)` without `mod`: one wrap at most. -/
theorem slot_eq {M : Nat} {st : Store} {u : Nat} (hw : st.widx < M) (hlt : st.count - u < M) :
    slot M st u =
      if st.count - u + 1 ≤ st.widx then st.widx - 1 - (st.count - u) else st.widx + M - 1 - (st.count - u) := by
  unfold slot
  split
  · have : st.widx + M - 1 - (st.count - u) = st.widx - 1 - (st.count - u) + M := by omega
    rw [this, Nat.add_mod_right, Nat.mod_eq_of_lt (by omega)]
  · exact Nat.mod_eq_of_lt (by omega)

theorem slot_inj {M : Nat} {st : Store} {u v : Nat} (hw : st.widx < M) (hc : st.count ≤ M) (hu : 1 ≤ u)
    (hule : u ≤ st.count) (hv : 1 ≤ v) (hvle : v ≤ st.count) (h : slot M st u = slot M st v) : u = v := by
  rw [slot_eq hw (by omega), slot_eq hw (by omega)] at h
  split_ifs at h <;> omega

/-- Removing moves `count` and `widx` together, so an index keeps its slot (R206). -/
theorem slot_remove {M : Nat} {st : Store} {u k : Nat} (hw : st.widx < M) (hc : st.count ≤ M) (hk : 1 ≤ k)
    (hle : k ≤ st.count - 1) : slot M (removeSignal M u st) k = slot M st k := by
  have hw' : (removeSignal M u st).widx < M := Nat.mod_lt _ (by omega)
  have hcount : (removeSignal M u st).count = st.count - 1 := rfl
  have hwidx : (removeSignal M u st).widx = if st.widx = 0 then M - 1 else st.widx - 1 := by
    show (st.widx + M - 1) % M = _
    split
    · rename_i h0
      rw [h0, Nat.zero_add, Nat.mod_eq_of_lt (by omega)]
    · have : st.widx + M - 1 = st.widx - 1 + M := by omega
      rw [this, Nat.add_mod_right, Nat.mod_eq_of_lt (by omega)]
  rw [slot_eq hw' (by omega), slot_eq hw (by omega), hcount, hwidx]
  split_ifs <;> omega

/-! ### The live signals -/

theorem mem_ages {st : Store} {u : Nat} : u ∈ ages st ↔ 1 ≤ u ∧ u ≤ st.count := by
  unfold ages
  rw [List.mem_range'_1]
  omega

@[simp] theorem live_length (M : Nat) (st : Store) : (live M st).length = st.count := by simp [live, ages]

theorem live_getElem? (M : Nat) (st : Store) (k : Nat) :
    (live M st)[k]? = if k < st.count then some (signalAt M st (k + 1)) else none := by
  unfold live ages
  rw [List.getElem?_map]
  split
  · rename_i h
    rw [List.getElem?_range' h]
    simp [Nat.add_comm]
  · rename_i h
    rw [List.getElem?_eq_none (by simpa using h)]
    rfl

theorem mem_live {M : Nat} {st : Store} {x : Signal} :
    x ∈ live M st ↔ ∃ u, 1 ≤ u ∧ u ≤ st.count ∧ signalAt M st u = x := by
  unfold live
  simp only [List.mem_map, mem_ages, and_assoc]

/-- Two stores with as many live signals, equal one by one, have the same live signals. -/
theorem live_eq_of_signalAt {M : Nat} {st : Store} {xs : List Signal} (hl : xs.length = st.count)
    (h : ∀ k, k < st.count → xs[k]? = some (signalAt M st (k + 1))) : live M st = xs := by
  apply List.ext_getElem?
  intro k
  rw [live_getElem?]
  split
  · rename_i hk; exact (h k hk).symm
  · rename_i hk; rw [List.getElem?_eq_none (by omega)]

/-! ### The scans (R202, R208) -/

theorem findDup_eq_none {M : Nat} {st : Store} {sig : Signal} :
    findDup M st sig = none ↔ ∀ x ∈ live M st, sameId x sig = false := by
  unfold findDup
  rw [List.find?_eq_none]
  constructor
  · intro h x hx
    obtain ⟨u, hu, hle, rfl⟩ := mem_live.mp hx
    simpa using h u (mem_ages.mpr ⟨hu, hle⟩)
  · intro h u hu
    have := mem_ages.mp hu
    simpa using h _ (mem_live.mpr ⟨u, this.1, this.2, rfl⟩)

theorem findDup_eq_some {M : Nat} {st : Store} {sig : Signal} {u : Nat} (h : findDup M st sig = some u) :
    1 ≤ u ∧ u ≤ st.count ∧ sameId (signalAt M st u) sig = true := by
  unfold findDup at h
  have hm := mem_ages.mp (List.mem_of_find?_eq_some h)
  exact ⟨hm.1, hm.2, by simpa using List.find?_some h⟩

/-- A scan of the ages, oldest first, finds the least index that qualifies. -/
theorem find_ages {st : Store} {p : Nat → Bool} {u : Nat} (hu : 1 ≤ u) (hle : u ≤ st.count) (hp : p u = true)
    (hleast : ∀ v, 1 ≤ v → v < u → p v = false) : (ages st).find? p = some u := by
  unfold ages
  rw [List.find?_range'_eq_some]
  refine ⟨hp, by rw [List.mem_range'_1]; omega, ?_⟩
  intro v hv hlt
  simp [hleast v (by omega) hlt]

theorem sameId_iff {x y : Signal} :
    sameId x y = true ↔ x.address = y.address ∧ x.key = y.key ∧ x.band = y.band := by
  simp [sameId, and_assoc]

theorem sameId_comm (x y : Signal) : sameId x y = sameId y x := by
  rw [Bool.eq_iff_iff, sameId_iff, sameId_iff]
  constructor <;> rintro ⟨h1, h2, h3⟩ <;> exact ⟨h1.symm, h2.symm, h3.symm⟩

theorem sameId_trans_left {x y z : Signal} (h : sameId x y = true) : sameId x z = sameId y z := by
  obtain ⟨h1, h2, h3⟩ := sameId_iff.mp h
  simp [sameId, h1, h2, h3]

/-! ### APPEND (R204) -/

/-- Everything the body of `APPEND` can do. -/
theorem appendSignal_cases (M : Nat) (sig : Signal) (st : Store) :
    (∃ u, findDup M st sig = some u ∧
      appendSignal M sig st = { status := .duplicate, index := u, store := st }) ∨
    (findDup M st sig = none ∧
      appendSignal M sig st =
        { status := if st.count = M then .okEvict else .ok
          index := if st.count < M then st.count + 1 else st.count
          store := { slots := st.slots.write st.widx sig
                     widx := (st.widx + 1) % M
                     count := if st.count < M then st.count + 1 else st.count } }) := by
  unfold appendSignal full
  cases h : findDup M st sig with
  | some u => exact .inl ⟨u, rfl, rfl⟩
  | none => right; simp

/-- Where an index of the store after a successful append is found (R200, R204, R213). -/
theorem slot_append {M : Nat} {st st' : Store} {u : Nat} (hw : st.widx < M) (hc : st.count ≤ M)
    (hwidx : st'.widx = (st.widx + 1) % M) (hcount : st'.count = if st.count < M then st.count + 1 else st.count)
    (hu : 1 ≤ u) (hle : u ≤ st'.count) :
    slot M st' u = if u = st'.count then st.widx else slot M st (if st.count < M then u else u + 1) := by
  have hw' : st'.widx < M := by rw [hwidx]; exact Nat.mod_lt _ (by omega)
  have hwv : st'.widx = if st.widx + 1 = M then 0 else st.widx + 1 := by
    rw [hwidx]
    split
    · rename_i h; rw [h, Nat.mod_self]
    · exact Nat.mod_eq_of_lt (by omega)
  have hc' : st'.count ≤ M := by rw [hcount]; split <;> omega
  rw [slot_eq hw' (by omega)]
  by_cases hlast : u = st'.count
  · rw [if_pos hlast, hwv]
    split_ifs <;> omega
  · rw [if_neg hlast]
    by_cases hlt : st.count < M
    · rw [if_pos hlt] at hcount ⊢
      rw [slot_eq hw (by omega), hwv]
      split_ifs <;> omega
    · rw [if_neg hlt] at hcount ⊢
      rw [slot_eq hw (by omega), hwv]
      split_ifs <;> omega

/-- The slot an append writes is not the slot of a surviving signal. -/
theorem slot_ne_widx {M : Nat} {st : Store} {u : Nat} (hw : st.widx < M) (hc : st.count ≤ M) (hu : 1 ≤ u)
    (hle : u ≤ st.count) (hfull : st.count = M → 2 ≤ u) : slot M st u ≠ st.widx := by
  rw [slot_eq hw (by omega)]
  split_ifs <;> omega

/-- The signal at an index after a successful append. -/
theorem signalAt_append {M : Nat} {st : Store} {sig : Signal} {u n : Nat} (hw : st.widx < M) (hc : st.count ≤ M)
    (hn : n = if st.count < M then st.count + 1 else st.count) (hu : 1 ≤ u) (hle : u ≤ n) :
    signalAt M { slots := st.slots.write st.widx sig, widx := (st.widx + 1) % M, count := n } u =
      if u = n then sig else signalAt M st (if st.count < M then u else u + 1) := by
  unfold signalAt
  rw [slotAt_write st st.slots _ _ _ _ _ rfl, slot_append hw hc rfl hn hu hle]
  by_cases h : u = n
  · simp [h]
  · simp only [h, if_false]
    rw [if_neg]
    apply slot_ne_widx hw hc
    · split <;> omega
    · split at hn <;> split <;> omega
    · intro hm
      rw [if_neg (by omega)]
      omega

/-! ### REMOVE (R206) -/

/-- The shift, part way: the slots of the first `n` indexes from `u` hold their successors. -/
theorem shift_prefix {M : Nat} {st : Store} {u : Nat} (hw : st.widx < M) (hc : st.count ≤ M) (hu : 1 ≤ u) (n : Nat)
    (hn : u + n ≤ st.count) (a : Nat) :
    slotAt { st with slots := (List.range' u n).foldl (shiftOne M st) st.slots } a =
      match (List.range' u n).find? (fun k => slot M st k = a) with
      | some k => slotAt st (slot M st (k + 1))
      | none => slotAt st a := by
  induction n generalizing a with
  | zero => rfl
  | succ n ih =>
    have ih' := ih (by omega)
    rw [List.range'_1_concat, List.foldl_append, List.find?_append]
    simp only [List.foldl_cons, List.foldl_nil]
    rw [shiftOne, slotAt_write { st with slots := (List.range' u n).foldl (shiftOne M st) st.slots } _ _ _ _ _ _ rfl]
    have hnext : slotAt { st with slots := (List.range' u n).foldl (shiftOne M st) st.slots } (slot M st (u + n + 1)) =
        slotAt st (slot M st (u + n + 1)) := by
      rw [ih']
      have : (List.range' u n).find? (fun k => slot M st k = slot M st (u + n + 1)) = none := by
        rw [List.find?_eq_none]
        intro k hk
        rw [List.mem_range'_1] at hk
        simp only [decide_eq_true_eq]
        intro he
        have := slot_inj hw hc (by omega) (by omega) (by omega) (by omega) he
        omega
      rw [this]
    by_cases ha : a = slot M st (u + n)
    · rw [if_pos ha, hnext]
      have : (List.range' u n).find? (fun k => slot M st k = a) = none := by
        rw [List.find?_eq_none]
        intro k hk
        rw [List.mem_range'_1] at hk
        simp only [decide_eq_true_eq, ha]
        intro he
        have := slot_inj hw hc (by omega) (by omega) (by omega) (by omega) he
        omega
      rw [this]
      simp [ha]
    · rw [if_neg ha, ih']
      cases hf : (List.range' u n).find? (fun k => slot M st k = a) with
      | some k => simp
      | none =>
        have : ¬ slot M st (u + n) = a := fun h => ha h.symm
        simp [this]

/-- What the shift of `REMOVE u` leaves at the slot of a later index: its successor. -/
theorem shiftDown_moved {M : Nat} {st : Store} {u k : Nat} (hw : st.widx < M) (hc : st.count ≤ M) (hu : 1 ≤ u)
    (huk : u ≤ k) (hk : k < st.count) :
    slotAt { st with slots := shiftDown M st u } (slot M st k) = slotAt st (slot M st (k + 1)) := by
  unfold shiftDown
  rw [shift_prefix hw hc hu _ (by omega)]
  have : (List.range' u (st.count - u)).find? (fun j => slot M st j = slot M st k) = some k := by
    rw [List.find?_range'_eq_some]
    refine ⟨by simp, by rw [List.mem_range'_1]; omega, ?_⟩
    intro j hj hlt
    have : slot M st j ≠ slot M st k := fun he => by
      have := slot_inj hw hc (by omega) (by omega) (by omega) (by omega) he
      omega
    simp [this]
  rw [this]

/-- What the shift of `REMOVE u` leaves alone: every other slot. -/
theorem shiftDown_kept {M : Nat} {st : Store} {u a : Nat} (hw : st.widx < M) (hc : st.count ≤ M) (hu : 1 ≤ u)
    (hle : u ≤ st.count) (ha : ∀ k, u ≤ k → k < st.count → a ≠ slot M st k) :
    slotAt { st with slots := shiftDown M st u } a = slotAt st a := by
  unfold shiftDown
  rw [shift_prefix hw hc hu _ (by omega)]
  have : (List.range' u (st.count - u)).find? (fun k => slot M st k = a) = none := by
    rw [List.find?_eq_none]
    intro k hk
    rw [List.mem_range'_1] at hk
    simp only [decide_eq_true_eq]
    exact fun he => ha k (by omega) (by omega) he.symm
  rw [this]

/-- A fold of writes keeps what every single write keeps. -/
theorem foldl_write_induct {α : Type} (P : Memory α → Prop) (f : Memory α → Nat → Memory α)
    (ks : List Nat) (m : Memory α) (h0 : P m) (hstep : ∀ m k, k ∈ ks → P m → P (f m k)) : P (ks.foldl f m) := by
  induction ks generalizing m with
  | nil => exact h0
  | cons k rest ih =>
    exact ih _ (hstep m k (by simp) h0) (fun m' k' hk' => hstep m' k' (by simp [hk']))

end Sys2Proof.Machine
end

