-- ==== Sys2Proof/Laws/Sequencer.lean ====
section
/-! SUPPORT. The laws of the capture sequencer: saturating counts, the signal of a result, and the two ways a result is delivered. -/

namespace Sys2Proof.Machine

/-- `SatInc` as a number (R179). -/
theorem satInc_toNat (c : BitVec 32) : (satInc c).toNat = min (c.toNat + 1) (2 ^ 32 - 1) := by
  unfold satInc
  have := c.isLt
  split
  · rw [BitVec.toNat_add]
    simp only [BitVec.ofNat_eq_ofNat, BitVec.toNat_ofNat]
    omega
  · omega

/-- The address of a received signal as a number (R166). -/
theorem signalOf_address (r : DecodeResult) (b : Band) : (signalOf r b).address.toNat = r.code.toNat % 2 ^ 24 := by
  simp [signalOf]

@[simp] theorem signalOf_name (r : DecodeResult) (b : Band) : (signalOf r b).name = none := rfl

/-- A signal without a name is answered without one (R89). -/
theorem sigResponse_noname (st : Status) (idx : BitVec 8) {sig : Signal} (h : sig.name = none) :
    sigResponse st idx sig = { status := st, idx := idx, w0 := packSig sig } := by
  simp [sigResponse, nameField, h, packName]

/-- A result delivered while idle (R167). -/
theorem onDecoded_idle (sig : Signal) {s : State} (h : s.seq.capMode = false) :
    onDecoded sig s = (s.setSeq (recordReceived sig s.seq)).respond (sigResponse .received 0 sig) := by
  simp [onDecoded, h]

/-- A result delivered while armed (R167). -/
theorem onDecoded_armed (sig : Signal) {s : State} (h : s.seq.capMode = true) :
    onDecoded sig s =
      ((s.setSeq (recordCaptured sig (recordReceived sig s.seq))).setStore
        (appendSignal s.cfg.maxSlots sig s.store).store).respond
        (capturedResponse sig (appendSignal s.cfg.maxSlots sig s.store)) := by
  simp [onDecoded, h]

end Sys2Proof.Machine
end

