-- ==== Sys2Proof/Laws/Step.lean ====
section
/-! SUPPORT. The laws of the step: what taking a request does, and the three things a step can be. -/

namespace Sys2Proof.Machine

/-- Taking a request writes the turns and the waiting operations and nothing else. -/
theorem fetch_frame (s : State) :
    (fetch s).2.cfg = s.cfg ∧ (fetch s).2.dec = s.dec ∧ (fetch s).2.hand = s.hand ∧ (fetch s).2.store = s.store ∧
    (fetch s).2.seq = s.seq ∧ (fetch s).2.ports.edgeOut = s.ports.edgeOut ∧
    (fetch s).2.ports.cmdOut = s.ports.cmdOut := by
  unfold fetch
  split
  · simp
  · split <;> simp
  · split <;> simp

/-- A request just presented is the one taken, and taking it gives back the state it was presented at. -/
theorem fetch_present (s : State) (r : Request) : fetch (present s r) = (some r, s) := by
  cases r with
  | edge b w => simp [present, fetch]
  | command t => simp [present, fetch]

/-- The three things a step can be: nothing presented, an illegal transaction, an operation. -/
theorem step_cases (s : State) :
    ((fetch s).1 = none ∧ step s = .next (fetch s).2) ∨
    (∃ r e, (fetch s).1 = some r ∧ decode s.cfg.nameMax r = .error e ∧
      step s = .next ((fetch s).2.raise .illegalCmd 0)) ∨
    (∃ r i, (fetch s).1 = some r ∧ decode s.cfg.nameMax r = .ok i ∧ step s = exec i (fetch s).2) := by
  unfold step
  rcases h : fetch s with ⟨_ | r, s'⟩
  · exact .inl ⟨rfl, rfl⟩
  · cases hd : decode s.cfg.nameMax r with
    | error e => exact .inr (.inl ⟨r, e, rfl, hd, by simp only [hd]; rfl⟩)
    | ok i => exact .inr (.inr ⟨r, i, rfl, hd, by simp only [hd]⟩)

theorem execAll_cons_next {i : Instr} {rest : List Instr} {s t : State} (h : exec i s = .next t) :
    execAll (i :: rest) s = execAll rest t := by
  simp [execAll, h]

theorem execAll_append (is js : List Instr) (s : State) :
    execAll (is ++ js) s = match execAll is s with
      | .next t => execAll js t
      | .fault e => .fault e
      | .refused e => .refused e := by
  induction is generalizing s with
  | nil => rfl
  | cons i rest ih =>
    simp only [List.cons_append, execAll]
    cases exec i s with
    | next t => exact ih t
    | fault e => rfl
    | refused e => rfl

/-- Commands leave decoders, configuration, waiting operations and edge responses alone, one after the other. -/
theorem CommandFrame.trans {s t u : State} (h : CommandFrame s t) (h' : CommandFrame t u) : CommandFrame s u where
  cfg := h'.cfg.trans h.cfg
  dec := h'.dec.trans h.dec
  schedule := h'.schedule.trans h.schedule
  edgeIn := h'.edgeIn.trans h.edgeIn
  cmdIn := h'.cmdIn.trans h.cmdIn
  edgeOut := h'.edgeOut.trans h.edgeOut

theorem CommandFrame.refl (s : State) : CommandFrame s s := ⟨rfl, rfl, rfl, rfl, rfl, rfl⟩

end Sys2Proof.Machine
end

