-- ==== Sys2Proof/Laws/Exec.lean ====
section
/-! SUPPORT. One equation per operation: the one next state `exec` answers, in terms of the named updates; and what every command reads and writes. -/

namespace Sys2Proof.Machine

/-- Two states that agree field by field are the same data. -/
theorem State.ext_fields {s t : State} (h1 : s.cfg = t.cfg) (h2 : s.dec = t.dec) (h3 : s.hand = t.hand)
    (h4 : s.store = t.store) (h5 : s.seq = t.seq) (h6 : s.ports = t.ports) : s = t := by
  cases s; cases t; simp_all

/-- The handoffs after a sample: the band's is written when there is a result (R117, R118). -/
theorem deliver_hand_set (s : State) (b : Band) (o : Option DecodeResult) :
    (deliver s b o).hand = s.hand.set b (match o with
      | some r => { rdy := true, shadow := r }
      | none => s.hand.get b) := by
  cases o <;> simp

/-- A `FEED` as one update of decoder `b`, handoff `b` and edge port `b`'s response (R111). -/
theorem exec_feed_next (b : Band) (x : Duration) (s : State) :
    exec (.feed b x) s = .next { s with
      dec := s.dec.set b (feedDecoder s.cfg b (s.dec.get b) x)
      hand := s.hand.set b (match feedResult s.cfg b (s.dec.get b) x with
        | some r => { rdy := true, shadow := r }
        | none => s.hand.get b)
      ports := { s.ports with
        edgeOut := s.ports.edgeOut.set b (some (edgeResponse (feedResult s.cfg b (s.dec.get b) x))) } } := by
  show Host.Outcome.next (feed b x s) = _
  congr 1
  obtain ⟨h1, h2, _, h4, h5, h6⟩ := feed_fields b x s
  refine State.ext_fields h1 h2 ?_ h4 h5 h6
  simp [feed, deliver_hand_set]

theorem exec_append_next (sig : Signal) (s : State) :
    exec (.append sig) s = .next ((s.setStore (appendSignal s.cfg.maxSlots sig s.store).store).respond
      { status := (appendSignal s.cfg.maxSlots sig s.store).status
        idx := indexField (appendSignal s.cfg.maxSlots sig s.store).index }) := rfl

theorem exec_get_next (u : BitVec 8) (s : State) :
    exec (.get u) s = .next (s.respond (if validIndex s.store u.toNat
      then sigResponse .ok u (signalAt s.cfg.maxSlots s.store u.toNat) else { status := .indexOutOfRange })) := by
  simp only [exec, execGet, indexOperand]
  by_cases h : validIndex s.store u.toNat = true
  · simp only [h, if_true]
  · simp only [h, if_false, Bool.false_eq_true]
    rfl

theorem exec_remove_next (u : BitVec 8) (s : State) :
    exec (.remove u) s = .next ((s.setStore (if validIndex s.store u.toNat
      then removeSignal s.cfg.maxSlots u.toNat s.store else s.store)).respond
      { status := if validIndex s.store u.toNat then .ok else .indexOutOfRange }) := by
  simp only [exec, execRemove, indexOperand]
  by_cases h : validIndex s.store u.toNat = true
  · simp only [h, if_true]
  · simp only [h, if_false, Bool.false_eq_true]
    rfl

theorem exec_rename_next (u : BitVec 8) (name : Name) (s : State) :
    exec (.rename u name) s = .next ((s.setStore (if validIndex s.store u.toNat
      then renameSignal s.cfg.maxSlots u.toNat name s.store else s.store)).respond
      { status := if validIndex s.store u.toNat then .ok else .indexOutOfRange }) := by
  simp only [exec, execRename, indexOperand]
  by_cases h : validIndex s.store u.toNat = true
  · simp only [h, if_true]
  · simp only [h, if_false, Bool.false_eq_true]
    rfl

theorem exec_find_next (name : Name) (s : State) :
    exec (.find name) s = .next (s.respond (match findName s.cfg.maxSlots s.store name with
      | some u => sigResponse .ok (indexField u) (signalAt s.cfg.maxSlots s.store u)
      | none => { status := .nameNotFound })) := by
  simp only [exec, execFind]
  cases findName s.cfg.maxSlots s.store name <;> rfl

theorem exec_clear_next (s : State) :
    exec .clear s = .next ((s.setStore { s.store with widx := 0, count := 0 }).respond { status := .ok }) := rfl

theorem exec_stat_next (s : State) :
    exec .stat s = .next (s.respond
      { status := .ok, idx := indexField s.store.count, flags := flag0 (full s.cfg.maxSlots s.store) }) := rfl

/-- The sequencer after a result is delivered (R167). -/
theorem onDecoded_seq (sig : Signal) (s : State) :
    (onDecoded sig s).seq = if s.seq.capMode then recordCaptured sig (recordReceived sig s.seq)
      else recordReceived sig s.seq := by
  unfold onDecoded
  simp only
  split <;> rfl

/-- The store after a result is delivered (R167). -/
theorem onDecoded_store (sig : Signal) (s : State) :
    (onDecoded sig s).store = if s.seq.capMode then (appendSignal s.cfg.maxSlots sig s.store).store else s.store := by
  unfold onDecoded
  simp only
  split <;> rfl

/-- What a `POLL` that delivers does (R167, R168). -/
theorem exec_poll_ready {b : Band} {s : State} (h : (s.hand.get b).rdy = true) :
    exec (.poll b) s = .next (onDecoded (signalOf (s.hand.get b).shadow b)
      (s.setHand b { (s.hand.get b) with rdy := false })) := by
  simp only [exec, execPoll, h, if_true]

/-- What a `POLL` with nothing pending does (R168). -/
theorem exec_poll_idle {b : Band} {s : State} (h : (s.hand.get b).rdy = false) :
    exec (.poll b) s = .next (s.respond { status := .none }) := by
  simp [exec, execPoll, h]

/-- A command reads the configuration, the handoffs, the store and the sequencer, and writes the last three and the
command port's response; every operation but a `FEED` is one (R46). -/
theorem exec_command (i : Instr) (h : ∀ b x, i ≠ .feed b x) :
    ∃ f : Config → PerBand Handoff → Store → Sequencer → PerBand Handoff × Store × Sequencer × CmdResponse,
      ∀ s : State, exec i s = .next { s with
        hand := (f s.cfg s.hand s.store s.seq).1
        store := (f s.cfg s.hand s.store s.seq).2.1
        seq := (f s.cfg s.hand s.store s.seq).2.2.1
        ports := { s.ports with cmdOut := some (f s.cfg s.hand s.store s.seq).2.2.2 } } := by
  cases i with
  | feed b x => exact absurd rfl (h b x)
  | append sig =>
    exact ⟨fun c ha st q => (ha, (appendSignal c.maxSlots sig st).store, q,
      { status := (appendSignal c.maxSlots sig st).status, idx := indexField (appendSignal c.maxSlots sig st).index }),
      fun _ => rfl⟩
  | get u =>
    exact ⟨fun c ha st q => (ha, st, q, if validIndex st u.toNat
      then sigResponse .ok u (signalAt c.maxSlots st u.toNat) else { status := .indexOutOfRange }),
      fun s => exec_get_next u s⟩
  | remove u =>
    exact ⟨fun c ha st q => (ha, if validIndex st u.toNat then removeSignal c.maxSlots u.toNat st else st, q,
      { status := if validIndex st u.toNat then .ok else .indexOutOfRange }), fun s => exec_remove_next u s⟩
  | rename u name =>
    exact ⟨fun c ha st q => (ha, if validIndex st u.toNat then renameSignal c.maxSlots u.toNat name st else st, q,
      { status := if validIndex st u.toNat then .ok else .indexOutOfRange }), fun s => exec_rename_next u name s⟩
  | find name =>
    exact ⟨fun c ha st q => (ha, st, q, match findName c.maxSlots st name with
      | some u => sigResponse .ok (indexField u) (signalAt c.maxSlots st u)
      | none => { status := .nameNotFound }), fun s => exec_find_next name s⟩
  | poll b =>
    refine ⟨fun c ha st q => if (ha.get b).rdy then
        (ha.set b { (ha.get b) with rdy := false },
          if q.capMode then (appendSignal c.maxSlots (signalOf (ha.get b).shadow b) st).store else st,
          if q.capMode then recordCaptured (signalOf (ha.get b).shadow b) (recordReceived (signalOf (ha.get b).shadow b) q)
            else recordReceived (signalOf (ha.get b).shadow b) q,
          if q.capMode then capturedResponse (signalOf (ha.get b).shadow b)
              (appendSignal c.maxSlots (signalOf (ha.get b).shadow b) st)
            else sigResponse .received 0 (signalOf (ha.get b).shadow b))
      else (ha, st, q, { status := .none }), fun s => ?_⟩
    cases hr : (s.hand.get b).rdy with
    | false => rw [exec_poll_idle hr]; simp only [hr]; rfl
    | true =>
      rw [exec_poll_ready hr]
      simp only [hr, if_true, onDecoded, State.setHand_seq]
      by_cases hm : s.seq.capMode = true <;> simp only [hm, if_true, if_false, Bool.false_eq_true] <;> rfl
  | clear => exact ⟨fun _ ha st q => (ha, { st with widx := 0, count := 0 }, q, { status := .ok }), fun _ => rfl⟩
  | stat =>
    exact ⟨fun c ha st q => (ha, st, q,
      { status := .ok, idx := indexField st.count, flags := flag0 (full c.maxSlots st) }), fun _ => rfl⟩
  | capen =>
    exact ⟨fun _ ha st q => (ha, st, { q with capMode := true, lastCaptured := none }, { status := .ok }), fun _ => rfl⟩
  | capdis => exact ⟨fun _ ha st q => (ha, st, { q with capMode := false }, { status := .ok }), fun _ => rfl⟩
  | sends a k b p n =>
    exact ⟨fun c ha st q => (ha, st, { q with sendCount := satInc q.sendCount }, txResponse (makeTx c a b p n)),
      fun _ => rfl⟩
  | sendr a k b =>
    exact ⟨fun c ha st q => (ha, st, { q with sendCount := satInc q.sendCount },
      txResponse (makeTx c a b (c.defaultProto.get b) (c.defaultUnit.get b))), fun _ => rfl⟩
  | rdctr =>
    exact ⟨fun _ ha st q => (ha, st, q,
      { status := .ok, flags := flag0 q.capMode, c0 := q.sendCount, c1 := q.receiveCount }), fun _ => rfl⟩
  | rdlrx => exact ⟨fun _ ha st q => (ha, st, q, optionResponse q.lastReceived), fun _ => rfl⟩
  | rdlcap => exact ⟨fun _ ha st q => (ha, st, q, optionResponse q.lastCaptured), fun _ => rfl⟩
  | ctrrst => exact ⟨fun _ ha st q => (ha, st, { q with sendCount := 0, receiveCount := 0 }, { status := .ok }), fun _ => rfl⟩

/-- What every command leaves alone (R46). -/
theorem exec_command_frame {i : Instr} {s t : State} (h : ∀ b x, i ≠ .feed b x) (ht : exec i s = .next t) :
    CommandFrame s t := by
  obtain ⟨f, hf⟩ := exec_command i h
  rw [hf] at ht
  cases ht
  exact ⟨rfl, rfl, rfl, rfl, rfl, rfl⟩

end Sys2Proof.Machine
end

