-- ==== Sys2Proof/Laws/Train.lean ====
section
/-! SUPPORT. The laws of ideal trains: the pairs and the bits of an ideal window, the samples of one repetition, a run of data edges, and a gap. -/

namespace Sys2Proof.Machine

/-- The first result along a list, and that nothing before it gave one (R119). -/
theorem findSome_first {α β : Type} (f : α → Option β) (xs : List α) (r : β) :
    xs.findSome? f = some r ↔ ∃ (k : Nat) (P : α), xs[k]? = some P ∧ f P = some r ∧
      ∀ (j : Nat) (Q : α), j < k → xs[j]? = some Q → f Q = none := by
  induction xs with
  | nil => simp
  | cons a rest ih =>
    rw [List.findSome?_cons]
    cases ha : f a with
    | some v =>
      simp only [Option.some.injEq]
      constructor
      · rintro rfl; exact ⟨0, a, rfl, ha, by omega⟩
      · rintro ⟨k, P, h1, h2, h3⟩
        cases k with
        | zero => simp at h1; subst h1; rw [ha] at h2; simpa using h2
        | succ k => have := h3 0 a (by omega) rfl; rw [ha] at this; simp at this
    | none =>
      simp only [ih]
      constructor
      · rintro ⟨k, P, h1, h2, h3⟩
        refine ⟨k+1, P, by simpa using h1, h2, ?_⟩
        intro j Q hj hQ
        cases j with
        | zero => simp at hQ; rw [← hQ, ha]
        | succ j => exact h3 j Q (by omega) (by simpa using hQ)
      · rintro ⟨k, P, h1, h2, h3⟩
        cases k with
        | zero => simp at h1; subst h1; rw [ha] at h2; simp at h2
        | succ k => exact ⟨k, P, by simpa using h1, h2, fun j Q hj hQ => h3 (j+1) Q (by omega) (by simpa using hQ)⟩

/-- What a match answers (R125, R126): the protocol, and more than `MIN_PAIRS` bits, no more than the window holds. -/
theorem tryMatch_props {c : Config} {w : List Duration} {P : Protocol} {r : DecodeResult}
    (h : tryMatch c w P = some r) :
    ∃ n, r.protocolId = P.id ∧ r.bitLength = BitVec.ofNat 8 n ∧ c.minPairs < n ∧ 2 * n + 1 ≤ w.length := by
  unfold tryMatch at h
  split at h
  · simp at h
  · rename_i gap rest
    simp only at h
    split at h; · simp at h
    split at h; · simp at h
    split at h; · simp at h
    rename_i bits hb
    split at h
    · simp at h
      refine ⟨bits.length, by rw [← h], by rw [← h], ‹_›, ?_⟩
      have := (classifyAll_eq_some.mp hb).1
      rw [pairsOf_length, List.length_drop] at this
      have : 1 ≤ firstData P := by unfold firstData; split <;> omega
      simp only [List.length_cons] at *
      omega
    · simp at h

/-- A value lies within any tolerance of itself. -/
theorem near_self (tol e : Nat) : Near tol e e := ⟨by omega, by omega⟩

/-- A duration of an ideal train fits 32 bits. -/
theorem symbol_small (unit : Nat) (hu : unit ≤ 0xFFFF) (x : BitVec 8) :
    (BitVec.ofNat 32 (unit * x.toNat)).toNat = unit * x.toNat := by
  rw [BitVec.toNat_ofNat, Nat.mod_eq_of_lt]
  have := x.isLt
  calc unit * x.toNat ≤ 65535 * 255 := Nat.mul_le_mul hu (by omega)
    _ < _ := by norm_num

/-- The pairs of the data of an ideal window, whatever single entry follows (R122, R152). -/
theorem pairsOf_symbols (P : Protocol) (unit : Nat) (bits : List Bool) (tail : List Duration) (ht : tail.length ≤ 1) :
    pairsOf (bits.flatMap (symbolDurations P unit) ++ tail) = bits.map fun bit =>
      (BitVec.ofNat 32 (unit * (symbol P bit).high.toNat), BitVec.ofNat 32 (unit * (symbol P bit).low.toNat)) := by
  induction bits with
  | nil =>
    match tail, ht with
    | [], _ => rfl
    | [_], _ => rfl
  | cons bit rest ih => simp [symbolDurations, pairsOf]; simpa [symbolDurations] using ih

/-- The bits of the data of an ideal window (R123). -/
theorem classifyAll_ideal (c : Config) (P : Protocol) (unit : Nat) (hu : unit ≤ 0xFFFF)
    (h : SymbolsApart c P unit) (bits : List Bool) :
    classifyAll P unit (tolerance c unit) (bits.map fun bit =>
      (BitVec.ofNat 32 (unit * (symbol P bit).high.toNat), BitVec.ofNat 32 (unit * (symbol P bit).low.toNat))) =
          some bits := by
  rw [classifyAll_eq_some]
  refine ⟨by simp, ?_⟩
  intro k pair hk
  rw [List.getElem?_map] at hk
  cases hb : bits[k]? with
  | none => rw [hb] at hk; simp at hk
  | some bit =>
    rw [hb] at hk; simp at hk; subst hk
    cases bit
    · rw [classify_eq_zero]; simp only [symbol, symbol_small _ hu]; exact ⟨near_self _ _, near_self _ _⟩
    · rw [classify_eq_one]; simp only [symbol, symbol_small _ hu, if_true]; exact ⟨h, near_self _ _, near_self _ _⟩

/-- The durations of one repetition: sync, data, sync (R152, R154). -/
theorem durations_one (code : BitVec 32) (L : Nat) (P : Protocol) (unit : Nat) :
    durations code L P unit 1 = [unit * P.sync.high.toNat, unit * P.sync.low.toNat] ++
      (bitsMsbFirst code L).flatMap (fun bit =>
        [unit * (symbol P bit).high.toNat, unit * (symbol P bit).low.toNat]) ++
      [unit * P.sync.high.toNat, unit * P.sync.low.toNat] := by
  have hp : ∀ r, (pulsePair P unit r).map Segment.durationUs = [unit * r.high.toNat, unit * r.low.toNat] := by
    intro r; unfold pulsePair; split <;> rfl
  simp [durations, train, frame, hp, List.map_flatMap]

/-- Entry 0 of a window that is not empty. -/
theorem window_zero (b : Band) (d : Decoder) (x : Duration) (xs) (h : window b d = x :: xs) : timingAt b d 0 = x := by
  unfold window at h
  cases hc : d.cc with
  | zero => rw [hc] at h; simp at h
  | succ n => rw [hc, List.range_succ_eq_map] at h; simp at h; exact h.1

/-- A gap leaves a window that is the gap alone (R115). -/
theorem exec_gap (s : State) (b : Band) (x : Duration) (h : s.cfg.separationLimitUs < x.toNat) :
    ∃ t, exec (.feed b x) s = .next t ∧ EdgeFrame b s t ∧
      window b (t.dec.get b) = [x] ∧ (t.dec.get b).cc = 1 ∧ timingAt b (t.dec.get b) 0 = x ∧
      (t.dec.get b).rc = gapRepeat s.cfg b (s.dec.get b) x := by
  have hg : isGap s.cfg x = true := isGap_iff.mpr h
  obtain ⟨h1, h2, h3, h4, h5, h6⟩ := feed_fields b x s
  have hd : feedDecoder s.cfg b (s.dec.get b) x = gapStep s.cfg b (s.dec.get b) x := by simp [feedDecoder, hg]
  refine ⟨_, rfl, feed_frame b x s, ?_, ?_, ?_, ?_⟩ <;> rw [h2, PerBand.get_set_same, hd]
  · exact window_gapStep _ _ _ _
  · rfl
  · have := timingAt_write b (s.dec.get b) (s.dec.get b).timing 0 0 1 (gapRepeat s.cfg b (s.dec.get b) x) x rfl
    simpa [gapStep] using this
  · rfl

/-- A run of data edges that does not fill the buffer extends the window, publishes nothing and answers nothing (R116,
R117). -/
theorem exec_run (b : Band) : ∀ (ds : List Nat) (s : State),
    (∀ d ∈ ds, d ≤ s.cfg.separationLimitUs) → s.cfg.separationLimitUs < 2 ^ 32 →
    (s.dec.get b).cc + ds.length < s.cfg.cap →
    ∃ t, execAll (ds.map fun d => .feed b (BitVec.ofNat 32 d)) s = .next t ∧ EdgeFrame b s t ∧
      t.hand.get b = s.hand.get b ∧ (t.dec.get b).rc = (s.dec.get b).rc ∧
      window b (t.dec.get b) = window b (s.dec.get b) ++ ds.map (BitVec.ofNat 32) ∧
      (t.dec.get b).cc = (s.dec.get b).cc + ds.length ∧
      (ds ≠ [] → t.ports.edgeOut.get b = some { valid := false, resw := 0})
  | [], s, _, _, _ => ⟨s, rfl, ⟨rfl, fun _ _ => rfl, fun _ _ => rfl, rfl, rfl, rfl, rfl, rfl, fun _ _ => rfl,
      rfl⟩, rfl, rfl, by simp, rfl, by simp⟩
  | d :: ds, s, h, hs, hc => by
    have hd := h d (by simp)
    have hx : (BitVec.ofNat 32 d).toNat = d := by rw [BitVec.toNat_ofNat, Nat.mod_eq_of_lt (by omega)]
    have hg : isGap s.cfg (BitVec.ofNat 32 d) = false := by simp only [isGap, hx]; simpa using hd
    obtain ⟨h1, h2, h3, h4, h5, h6⟩ := feed_fields b (BitVec.ofNat 32 d) s
    have hr : feedResult s.cfg b (s.dec.get b) (BitVec.ofNat 32 d) = none := by simp [feedResult, hg]
    have hdd : feedDecoder s.cfg b (s.dec.get b) (BitVec.ofNat 32 d) = dataStep s.cfg (s.dec.get b)
        (BitVec.ofNat 32 d) := by simp [feedDecoder, hg]
    rw [List.length_cons] at hc
    have hne : (s.dec.get b).cc + 1 ≠ s.cfg.cap := by omega
    have hcc : ((feed b (BitVec.ofNat 32 d) s).dec.get b).cc = (s.dec.get b).cc + 1 := by
      rw [h2, PerBand.get_set_same, hdd]; simp [dataStep, hne]
    obtain ⟨t, e1, e2, e3, e4, e5, e6, e7⟩ := exec_run b ds (feed b (BitVec.ofNat 32 d) s)
        (by rw [h1]; exact fun x hx => h x (by simp [hx])) (by rw [h1]; exact hs) (by rw [hcc, h1]; omega)
    refine ⟨t, ?_, (feed_frame b _ s).trans e2, ?_, ?_, ?_, ?_, ?_⟩
    · rw [List.map_cons, execAll_cons_next (t := feed b (BitVec.ofNat 32 d) s) rfl]; exact e1
    · rw [e3, h3, hr]
    · rw [e4, h2, PerBand.get_set_same, hdd]; simp [dataStep, hne]
    · rw [e5, h2, PerBand.get_set_same, hdd, window_dataStep hne]; simp
    · rw [e6, hcc, List.length_cons]; omega
    · intro _
      cases ds with
      | nil => simp [execAll] at e1; subst e1; rw [h6, hr]; simp [edgeResponse]
      | cons => exact e7 (by simp)

end Sys2Proof.Machine
end

