-- ==== Sys2Proof/Laws/Invariants.lean ====
section
/-! SUPPORT. What keeps the invariants: a sample those of its decoder and handoff, APPEND, REMOVE and RENAME those of the store. -/

namespace Sys2Proof.Machine

/-- `Valid(u)` as bounds (R201). -/
theorem validIndex_iff {st : Store} {u : Nat} : validIndex st u = true ↔ 1 ≤ u ∧ u ≤ st.count := by simp [validIndex]

/-- A successful or refused `APPEND` keeps the invariants of the store (R32, R204). -/
theorem append_inv {c : Config} {sig : Signal} {st : Store} (hi : st.Inv c) (hM : 1 ≤ c.maxSlots)
    (hn : ∀ name, sig.name = some name → name.length ≤ c.nameMax) :
    (appendSignal c.maxSlots sig st).store.Inv c := by
  rcases appendSignal_cases c.maxSlots sig st with ⟨u, _, h⟩ | ⟨hd, h⟩
  · rw [h]; exact hi
  rw [h]
  have hc := hi.count_le
  have hw := hi.widx_lt
  have hnc : (if st.count < c.maxSlots then st.count + 1 else st.count) ≤ c.maxSlots := by split <;> omega
  refine ⟨Nat.mod_lt _ (by omega), hnc, ?_, ?_, ?_, Memory.wf_write hi.canonical _ _,
      Memory.below_write hi.inside hw _⟩
  · intro u hu hle
    simp only at hle
    show ((st.slots.write st.widx sig).read? _).isSome = true
    rw [Memory.read?_write, slot_append hw hc rfl rfl hu hle]
    simp only
    by_cases h1 : u = if st.count < c.maxSlots then st.count + 1 else st.count
    · simp [h1]
    · rw [if_neg h1]
      have hwr : (st.slots.read? (slot c.maxSlots st (if st.count < c.maxSlots then u else u + 1))).isSome =
          true := by
        by_cases hl : st.count < c.maxSlots
        · simp only [hl, if_true] at hle h1 ⊢
          exact hi.written u hu (by omega)
        · simp only [hl, if_false] at hle h1 ⊢
          exact hi.written _ (by omega) (by omega)
      by_cases h2 : slot c.maxSlots st (if st.count < c.maxSlots then u else u + 1) = st.widx
      · rw [if_pos h2]; rfl
      · rw [if_neg h2]; exact hwr
  · intro u v hu huv hv
    simp only at hv
    rw [signalAt_append hw hc rfl hu (by omega), signalAt_append hw hc rfl (by omega) hv]
    by_cases hl : st.count < c.maxSlots
    · simp only [hl, if_true] at hv ⊢
      rw [if_neg (by omega)]
      split
      · exact findDup_eq_none.mp hd _ (mem_live.mpr ⟨u, hu, by omega, rfl⟩)
      · exact hi.distinct _ _ hu huv (by omega)
    · simp only [hl, if_false] at hv ⊢
      rw [if_neg (by omega)]
      split
      · exact findDup_eq_none.mp hd _ (mem_live.mpr ⟨u + 1, by omega, by omega, rfl⟩)
      · exact hi.distinct _ _ (by omega) (by omega) (by omega)
  · intro p hp name hname
    rcases Memory.mem_write hp with hp | hp
    · rw [hp] at hname; exact hn name hname
    · exact hi.names p hp name hname

/-- A write leaves no written element unwritten. -/
theorem read_isSome_write {α : Type} (m : Memory α) (i k : Nat) (v : α) (h : (m.read? k).isSome = true) :
    ((m.write i v).read? k).isSome = true := by
  rw [Memory.read?_write]; split
  · rfl
  · exact h

/-- A written slot is listed. -/
theorem slotAt_mem {st : Store} {k : Nat} (h : (st.slots.read? k).isSome = true) : (k, slotAt st k) ∈ st.slots := by
  obtain ⟨v, hv⟩ := Option.isSome_iff_exists.mp h
  have : slotAt st k = v := by simp [slotAt, hv]
  rw [this]; exact Memory.mem_of_read? hv

/-- `REMOVE` of a valid index keeps the invariants of the store (R32, R206). -/
theorem remove_inv {c : Config} {st : Store} {u : Nat} (hi : st.Inv c) (hu : 1 ≤ u) (hle : u ≤ st.count) :
    (removeSignal c.maxSlots u st).Inv c := by
  have hc := hi.count_le
  have hw := hi.widx_lt
  -- the slots keep four properties along the fold
  let keeps : Memory Signal → Prop := fun m => m.wf = true ∧ m.Below c.maxSlots ∧
    (∀ k, (st.slots.read? k).isSome = true → (m.read? k).isSome = true) ∧
    (∀ p ∈ m, ∀ name, p.2.name = some name → name.length ≤ c.nameMax)
  have hfold : keeps (shiftDown c.maxSlots st u) := by
    unfold shiftDown
    refine foldl_write_induct keeps _ _ _ ?_ ?_
    · exact ⟨hi.canonical, hi.inside, fun _ h => h, hi.names⟩
    · rintro m k hk ⟨h1, h2, h3, h4⟩
      rw [List.mem_range'_1] at hk
      refine ⟨Memory.wf_write h1 _ _, Memory.below_write h2 (slot_lt _ _ (by omega)) _,
          fun j hj => read_isSome_write _ _ _ _ (h3 j hj), ?_⟩
      intro p hp name hname
      rcases Memory.mem_write hp with hp | hp
      · rw [hp] at hname
        have hw' := h3 _ (hi.written (k+1) (by omega) (by omega))
        exact h4 _ (slotAt_mem (st := { st with slots := m }) hw') name hname
      · exact h4 p hp name hname
  obtain ⟨h1, h2, h3, h4⟩ := hfold
  have hsig : ∀ k, 1 ≤ k → k ≤ st.count - 1 →
      signalAt c.maxSlots (removeSignal c.maxSlots u st) k =
      signalAt c.maxSlots st (if k < u then k else k + 1) := by
    intro k hk hkc
    have hs : signalAt c.maxSlots (removeSignal c.maxSlots u st) k =
        slotAt { st with slots := shiftDown c.maxSlots st u } (slot c.maxSlots st k) := by
      unfold signalAt; rw [slot_remove hw hc hk hkc]; rfl
    rw [hs]
    split
    · rw [shiftDown_kept hw hc hu hle]
      · rfl
      · intro j hj hjc h
        have := slot_inj hw hc (by omega) (by omega) (by omega) (by omega) h
        omega
    · rw [shiftDown_moved hw hc hu (by omega) (by omega)]; rfl
  refine ⟨Nat.mod_lt _ (by omega), by show st.count - 1 ≤ _; omega, ?_, ?_, h4, h1, h2⟩
  · intro k hk hkc
    rw [slot_remove hw hc hk hkc]
    exact h3 _ (hi.written k hk (by have : k ≤ st.count - 1 := hkc; omega))
  · intro a b ha hab hb
    have hb' : b ≤ st.count - 1 := hb
    rw [hsig a ha (by omega), hsig b (by omega) hb']
    apply hi.distinct
    · split <;> omega
    · split <;> split <;> omega
    · split <;> omega

/-- `RENAME` of a valid index keeps the invariants of the store (R32, R207). -/
theorem rename_inv {c : Config} {st : Store} {u : Nat} {name : Name} (hi : st.Inv c) (hu : 1 ≤ u)
    (hle : u ≤ st.count) (hn : name.length ≤ c.nameMax) : (renameSignal c.maxSlots u name st).Inv c := by
  have hc := hi.count_le
  have hw := hi.widx_lt
  have hsig : ∀ k, 1 ≤ k → k ≤ st.count → ∃ nm, signalAt c.maxSlots (renameSignal c.maxSlots u name st) k =
      { signalAt c.maxSlots st k with name := nm } := by
    intro k hk hkc
    have : signalAt c.maxSlots (renameSignal c.maxSlots u name st) k =
        if slot c.maxSlots st k = slot c.maxSlots st u
        then { signalAt c.maxSlots st u with name := some name } else signalAt c.maxSlots st k := slotAt_write _ _ _ _ _ _ _ rfl
    rw [this]
    split
    · rename_i h
      have := slot_inj hw hc hk hkc hu hle h
      subst this; exact ⟨_, rfl⟩
    · exact ⟨_, rfl⟩
  refine ⟨hw, hc, ?_, ?_, ?_, Memory.wf_write hi.canonical _ _,
      Memory.below_write hi.inside (slot_lt _ _ (by omega)) _⟩
  · intro k hk hkc
    exact read_isSome_write _ _ _ _ (hi.written k hk hkc)
  · intro a b ha hab hb
    have hb' : b ≤ st.count := hb
    obtain ⟨n1, e1⟩ := hsig a ha (by omega)
    obtain ⟨n2, e2⟩ := hsig b (by omega) hb'
    rw [e1, e2]
    exact hi.distinct a b ha hab hb'
  · intro p hp nm hname
    rcases Memory.mem_write hp with hp | hp
    · rw [hp] at hname; simp at hname; rw [← hname]; exact hn
    · exact hi.names p hp nm hname

/-- A sample keeps the invariants of its decoder (R23). -/
theorem feed_dec_inv {c : Config} {b : Band} {d : Decoder} {x : Duration} (hz : c.Sized) (hi : d.Inv c) :
    (feedDecoder c b d x).Inv c := by
  unfold feedDecoder
  have hcap := hz.cap_ge
  split
  · rename_i hg
    have hgx := isGap_iff.mp hg
    refine ⟨by show 1 < _; omega, ?_, ?_, ?_, Memory.wf_write hi.canonical _ _,
        Memory.below_write hi.inside (by omega) _⟩
    · show gapRepeat c b d x ≤ 1
      have := hi.rc_le
      rcases gapRepeat_cases c b d x with ⟨_, h⟩ | ⟨h1, h2, h⟩ | ⟨_, _, h⟩
      · omega
      · have hne : ¬ d.rc = 1 := by
          intro he
          simp [gapCloses, h2, he] at h1
        omega
      · omega
    · intro _
      exact ⟨Nat.le_refl 1, x, Memory.read?_write_same _ _ _, hgx⟩
    · intro i hlt
      have : i = 0 := by have h1 : i < 1 := hlt; omega
      subst this
      show ((d.timing.write 0 x).read? 0).isSome = true
      rw [Memory.read?_write_same]; rfl
  · rename_i hg
    have hlt := hi.cc_lt
    refine ⟨?_, ?_, ?_, ?_, Memory.wf_write hi.canonical _ _, Memory.below_write hi.inside hlt _⟩
    · simp only [dataStep]; split <;> omega
    · simp only [dataStep]; have := hi.rc_le; split <;> omega
    · simp only [dataStep]
      split
      · intro h; omega
      · intro h
        obtain ⟨h1, y, hy, hys⟩ := hi.gap h
        refine ⟨by omega, y, ?_, hys⟩
        rw [Memory.read?_write_other _ _ (by omega)]; exact hy
    · simp only [dataStep]
      intro i hil
      rw [Memory.read?_write]
      split
      · rfl
      · apply hi.written; split at hil <;> omega

/-- A published result meets the invariants of a handoff (R125, R126, R128). -/
theorem feed_hand_inv {c : Config} {b : Band} {d : Decoder} {x : Duration} {r : DecodeResult} (hz : c.Sized)
    (hi : d.Inv c) (h : feedResult c b d x = some r) :
    Handoff.Inv c { rdy := true, shadow := r } := by
  unfold feedResult at h
  split at h
  · obtain ⟨P, hP, hr⟩ := List.exists_of_findSome?_eq_some h
    obtain ⟨n, h1, h2, h3, h4⟩ := tryMatch_props hr
    rw [window_length] at h4
    have := hi.cc_lt
    have := hz.cap_le
    have hn : r.bitLength.toNat = n := by rw [h2, BitVec.toNat_ofNat, Nat.mod_eq_of_lt (by omega)]
    exact ⟨fun _ => by show _ < r.bitLength.toNat; omega, fun _ => by show 2 * r.bitLength.toNat + 2 ≤ _; omega,
        fun _ => ⟨P, hP, h1.symm⟩⟩
  · simp at h

end Sys2Proof.Machine
end

