-- ==== Sys2Proof/Laws/PerInstr.lean ====
section
/-! SUPPORT. Per instruction: the first word of its encoding matches its row of spec/opcode_table.json. -/

namespace Sys2Proof.Laws

/-- The row's `width`, `match` and `mask` (spec/opcode_table.json). -/
def rowOf : Instr → Nat × Nat × Nat
  | .feed _ _ => (32, 0x00000000, 0x00000000)
  | .append _ => (16, 0x0100, 0xFFFF)
  | .get _ => (16, 0x0200, 0xFF00)
  | .remove _ => (16, 0x0300, 0xFF00)
  | .rename _ _ => (16, 0x0400, 0xFF00)
  | .find _ => (16, 0x0500, 0xFFFF)
  | .clear => (16, 0x0600, 0xFFFF)
  | .stat => (16, 0x0700, 0xFFFF)
  | .capen => (16, 0x1000, 0xFFFF)
  | .capdis => (16, 0x1100, 0xFFFF)
  | .poll _ => (16, 0x1200, 0xFFFE)
  | .sends _ _ _ _ _ => (16, 0x1300, 0xFFFF)
  | .sendr _ _ _ => (16, 0x1400, 0xFFFF)
  | .rdctr => (16, 0x1500, 0xFFFF)
  | .rdlrx => (16, 0x1600, 0xFFFF)
  | .rdlcap => (16, 0x1700, 0xFFFF)
  | .ctrrst => (16, 0x1800, 0xFFFF)

/-- The width and the value of the first word of a request. -/
def firstWord : Request → Nat × Nat
  | .edge _ w => (32, w.toNat)
  | .command t => (16, t.cw.toNat)

/-- The encoding has its row's width and, under the row's mask, its row's bits. -/
def RowMatch.Statement (i : Instr) : Prop :=
  (firstWord (encode i)).1 = (rowOf i).1 ∧ (firstWord (encode i)).2 &&& (rowOf i).2.2 = (rowOf i).2.1

/-- An opcode byte stays under the mask of the upper byte. -/
theorem upper_byte (op : Opcode) (arg : BitVec 8) : (commandWord op arg).toNat &&& 0xFF00 = op.code.toNat * 256 := by
  have h : commandWord op arg &&& 0xFF00#16 = op.code ++ 0#8 := by
    apply BitVec.eq_of_getLsbD_eq
    intro i hi
    simp only [commandWord, BitVec.getLsbD_and, BitVec.getLsbD_append]
    have : i = 0 ∨ i = 1 ∨ i = 2 ∨ i = 3 ∨ i = 4 ∨ i = 5 ∨ i = 6 ∨ i = 7 ∨ i = 8 ∨ i = 9 ∨ i = 10 ∨ i = 11 ∨
        i = 12 ∨ i = 13 ∨ i = 14 ∨ i = 15 := by omega
    rcases this with h | h | h | h | h | h | h | h | h | h | h | h | h | h | h | h <;> subst h <;> simp
  have := congrArg BitVec.toNat h
  rw [toNat_append_add] at this
  simpa using this

/-- A command word without an argument is its opcode alone. -/
theorem whole_word (op : Opcode) : (commandWord op 0).toNat &&& 0xFFFF = op.code.toNat * 256 := by cases op <;> decide

namespace RowMatch

theorem feed (b : Band) (d : Duration) : Statement (.feed b d) := by simp [Statement, encode, firstWord, rowOf]
theorem append (sig : Signal) : Statement (.append sig) := by
  unfold Statement
  cases h : sig.name <;> simp only [encode, h] <;> exact ⟨rfl, whole_word .append⟩
theorem get (u : BitVec 8) : Statement (.get u) := ⟨rfl, upper_byte .get u⟩
theorem remove (u : BitVec 8) : Statement (.remove u) := ⟨rfl, upper_byte .remove u⟩
theorem rename (u : BitVec 8) (name : Name) : Statement (.rename u name) := ⟨rfl, upper_byte .rename u⟩
theorem find (name : Name) : Statement (.find name) := ⟨rfl, whole_word .find⟩
theorem clear : Statement .clear := ⟨rfl, rfl⟩
theorem stat : Statement .stat := ⟨rfl, rfl⟩
theorem capen : Statement .capen := ⟨rfl, rfl⟩
theorem capdis : Statement .capdis := ⟨rfl, rfl⟩
theorem poll (b : Band) : Statement (.poll b) := by cases b <;> exact ⟨rfl, rfl⟩
theorem sends (address : BitVec 24) (key : BitVec 8) (band : Band) (protocolId : BitVec 8) (unitDelayUs : BitVec 16) :
    Statement (.sends address key band protocolId unitDelayUs) := ⟨rfl, whole_word .sends⟩
theorem sendr (address : BitVec 24) (key : BitVec 8) (band : Band) : Statement (.sendr address key band) := ⟨rfl, whole_word .sendr⟩
theorem rdctr : Statement .rdctr := ⟨rfl, rfl⟩
theorem rdlrx : Statement .rdlrx := ⟨rfl, rfl⟩
theorem rdlcap : Statement .rdlcap := ⟨rfl, rfl⟩
theorem ctrrst : Statement .ctrrst := ⟨rfl, rfl⟩

end RowMatch

end Sys2Proof.Laws
end

