-- ==== Sys2Proof/Laws/RoundTrip.lean ====
section
/-! SUPPORT. The laws of the round trip: runs of samples and their responses, a frame, and one repetition of an ideal train. -/

namespace Sys2Proof.Machine

/-! ### Runs of samples and their responses (R154, R156) -/

theorem feeds_append (b : Band) (xs ys : List Nat) : feeds b (xs ++ ys) = feeds b xs ++ feeds b ys := List.map_append

/-- Two lists fed one after the other. -/
theorem execAll_feeds_append {s t u : State} {b : Band} {xs ys : List Nat} (h : execAll (feeds b xs) s = .next t)
    (h' : execAll (feeds b ys) t = .next u) : execAll (feeds b (xs ++ ys)) s = .next u := by
  rw [feeds_append, execAll_append, h]; exact h'

/-- What follows does not change a response. -/
theorem FeedAnswers.left {s : State} {b : Band} {xs : List Nat} {n : Nat} {r : Option DecodeResult}
    (h : FeedAnswers s b xs n r) (ys : List Nat) : FeedAnswers s b (xs ++ ys) n r := by
  obtain ⟨hn, h⟩ := h
  refine ⟨by rw [List.length_append]; omega, ?_⟩
  rwa [List.take_append_of_le_length (by omega)]

/-- A response after a list that has been fed. -/
theorem FeedAnswers.right {s t : State} {b : Band} {xs ys : List Nat} {n : Nat} {r : Option DecodeResult}
    (hx : execAll (feeds b xs) s = .next t) (h : FeedAnswers t b ys n r) :
    FeedAnswers s b (xs ++ ys) (xs.length + n) r := by
  obtain ⟨hn, u, h, hu⟩ := h
  refine ⟨by rw [List.length_append]; omega, u, ?_, hu⟩
  rw [Nat.add_assoc, List.take_length_add_append]
  exact execAll_feeds_append hx h

/-- The response to a single sample is the result of its `FEED` (R117). -/
theorem feedAnswers_one (s : State) (b : Band) (d : Nat) :
    FeedAnswers s b [d] 0 (feedResult s.cfg b (s.dec.get b) (BitVec.ofNat 32 d)) :=
  ⟨by simp, _, rfl, by
    obtain ⟨_, _, _, _, _, h⟩ := feed_fields b (BitVec.ofNat 32 d) s
    simp [h]⟩

theorem edgeResponse_inj {r r' : Option DecodeResult} (h : edgeResponse r = edgeResponse r') : r = r' := by
  cases r with
  | none => cases r' with
    | none => rfl
    | some r' => simp [edgeResponse] at h
  | some r => cases r' with
    | none => simp [edgeResponse] at h
    | some r' =>
      simp only [edgeResponse, EdgeResponse.mk.injEq, true_and] at h
      have key : ∀ x : DecodeResult, x = ⟨(packResult x).extractLsb' 0 32, (packResult x).extractLsb' 32 8,
          (packResult x).extractLsb' 40 8, (packResult x).extractLsb' 48 16⟩ := by
        intro x
        have := x.code.isLt; have := x.bitLength.isLt; have := x.protocolId.isLt; have := x.unitDelayUs.isLt
        obtain ⟨c, l, p, u⟩ := x
        simp only [DecodeResult.mk.injEq]
        refine ⟨?_, ?_, ?_, ?_⟩ <;>
          (apply BitVec.eq_of_toNat_eq
           simp only [toNat_extract, packResult, toNat_append_add]
           simp only at *
           omega)
      rw [key r, key r', h]

/-- A response determines the result. -/
theorem FeedAnswers.unique {s : State} {b : Band} {ds : List Nat} {n : Nat} {r r' : Option DecodeResult}
    (h : FeedAnswers s b ds n r) (h' : FeedAnswers s b ds n r') : r = r' := by
  obtain ⟨_, t, e, h⟩ := h
  obtain ⟨_, t', e', h'⟩ := h'
  rw [e] at e'; cases e'
  rw [h] at h'
  exact edgeResponse_inj (Option.some.inj h')

/-- Data edges fed to a decoder that hunts: no response carries a result, and it hunts on (R116, R117). -/
theorem exec_hunt (b : Band) : ∀ (ds : List Nat) (s : State), (∀ d ∈ ds, d ≤ s.cfg.separationLimitUs) →
    s.cfg.separationLimitUs < 2 ^ 32 → (s.dec.get b).rc = 0 →
    ∃ t, execAll (feeds b ds) s = .next t ∧ EdgeFrame b s t ∧ t.hand.get b = s.hand.get b ∧ (t.dec.get b).rc = 0 ∧
      ∀ n, n < ds.length → FeedAnswers s b ds n none
  | [], s, _, _, hr => ⟨s, rfl, ⟨rfl, fun _ _ => rfl, fun _ _ => rfl, rfl, rfl, rfl, rfl, rfl, fun _ _ => rfl, rfl⟩,
      rfl, hr, by simp⟩
  | d :: ds, s, h, hs, hr => by
    have hd := h d (by simp)
    have hx : (BitVec.ofNat 32 d).toNat = d := by rw [BitVec.toNat_ofNat, Nat.mod_eq_of_lt (by omega)]
    have hg : isGap s.cfg (BitVec.ofNat 32 d) = false := by simp only [isGap, hx]; simpa using hd
    have hres : feedResult s.cfg b (s.dec.get b) (BitVec.ofNat 32 d) = none := by simp [feedResult, hg]
    obtain ⟨h1, h2, h3, _⟩ := feed_fields b (BitVec.ofNat 32 d) s
    obtain ⟨t, e1, e2, e3, e4, e5⟩ := exec_hunt b ds (feed b (BitVec.ofNat 32 d) s)
      (by rw [h1]; exact fun x hx => h x (by simp [hx])) (by rw [h1]; exact hs)
      (by rw [h2, PerBand.get_set_same]; simp [feedDecoder, hg, dataStep, hr])
    have e0 : execAll (feeds b [d]) s = .next (feed b (BitVec.ofNat 32 d) s) := rfl
    refine ⟨t, execAll_feeds_append e0 e1, (feed_frame b _ s).trans e2, by rw [e3, h3, hres], e4, ?_⟩
    intro n hn
    cases n with
    | zero => exact (hres ▸ feedAnswers_one s b d).left ds
    | succ n =>
      have := FeedAnswers.right e0 (e5 n (by simpa using hn))
      simpa [Nat.add_comm] using this

/-- A frame: a gap fed to a decoder that hunts, data edges, and the same gap again; the second gap alone is answered, by
the match of the window, and the decoder hunts again (R112 to R117). -/
theorem exec_framed {s : State} {b : Band} {g : Nat} {mid : List Nat} (hg : s.cfg.separationLimitUs < g)
    (hg' : g < 2 ^ 32) (hr : (s.dec.get b).rc = 0) (hm : ∀ d ∈ mid, d ≤ s.cfg.separationLimitUs)
    (hc : mid.length + 1 < s.cfg.cap) :
    let r := matchAll s.cfg (BitVec.ofNat 32 g :: mid.map (BitVec.ofNat 32))
    ∃ t, execAll (feeds b ([g] ++ mid ++ [g])) s = .next t ∧ EdgeFrame b s t ∧ (t.dec.get b).rc = 0 ∧
      (∀ n, n < mid.length + 1 → FeedAnswers s b ([g] ++ mid ++ [g]) n none) ∧
      FeedAnswers s b ([g] ++ mid ++ [g]) (mid.length + 1) r ∧
      (∀ x, r = some x → t.hand.get b = { rdy := true, shadow := x }) := by
  intro r
  have hx : (BitVec.ofNat 32 g).toNat = g := by rw [BitVec.toNat_ofNat, Nat.mod_eq_of_lt (by omega)]
  obtain ⟨t1, x1, f1, w1, c1, g1, r1⟩ := exec_gap s b (BitVec.ofNat 32 g) (by rw [hx]; exact hg)
  have e1 : execAll (feeds b [g]) s = .next t1 := by rw [feeds]; exact execAll_cons_next x1
  have r1' : (t1.dec.get b).rc = 1 := by rw [r1]; simp [gapRepeat, gapCloses, gapCounts, hr]
  have a1 : FeedAnswers s b [g] 0 none := by
    have := feedAnswers_one s b g
    rwa [show feedResult s.cfg b (s.dec.get b) (BitVec.ofNat 32 g) = none by
      simp [feedResult, gapCloses, hr]] at this
  have hs : s.cfg.separationLimitUs < 2 ^ 32 := by omega
  have run : ∀ ds : List Nat, (∀ d ∈ ds, d ∈ mid) → ds.length ≤ mid.length → _ := fun ds h hl =>
    exec_run b ds t1 (by rw [f1.cfg]; exact fun d hd => hm d (h d hd)) (by rw [f1.cfg]; exact hs)
      (by rw [f1.cfg, c1]; omega)
  obtain ⟨t2, x2, f2, hh2, r2, w2, c2, _⟩ := run mid (fun _ h => h) (le_refl _)
  have a2 : ∀ n, n < mid.length → FeedAnswers t1 b mid n none := by
    intro n hn
    obtain ⟨u, y1, _, _, _, _, _, y7⟩ := run (mid.take (n + 1)) (fun _ h => List.mem_of_mem_take h) (List.length_take_le' _ _)
    exact ⟨hn, u, y1, y7 (List.ne_nil_of_length_pos (by rw [List.length_take]; omega))⟩
  have e2 : execAll (feeds b ([g] ++ mid)) s = .next t2 := execAll_feeds_append e1 x2
  have w2' : window b (t2.dec.get b) = BitVec.ofNat 32 g :: mid.map (BitVec.ofNat 32) := by rw [w2, w1]; rfl
  have hcfg : t2.cfg = s.cfg := f2.cfg.trans f1.cfg
  have hgap : isGap t2.cfg (BitVec.ofNat 32 g) = true := isGap_iff.mpr (by rw [hcfg, hx]; exact hg)
  have hclose : gapCloses t2.cfg b (t2.dec.get b) (BitVec.ofNat 32 g) = true :=
    gapCloses_iff.mpr ⟨r2.trans r1', by rw [window_zero _ _ _ _ w2']; exact near_self _ _⟩
  have hres : feedResult t2.cfg b (t2.dec.get b) (BitVec.ofNat 32 g) = r := by
    rw [feedResult, hgap, hclose, w2', hcfg]; rfl
  obtain ⟨h1, h2, h3, _⟩ := feed_fields b (BitVec.ofNat 32 g) t2
  have e3 : execAll (feeds b [g]) t2 = .next (feed b (BitVec.ofNat 32 g) t2) := rfl
  refine ⟨_, execAll_feeds_append e2 e3, (f1.trans f2).trans (feed_frame _ _ _), ?_, ?_, ?_, ?_⟩
  · rw [h2, PerBand.get_set_same]
    simp [feedDecoder, hgap, gapStep, gapRepeat, hclose]
  · intro n hn
    cases n with
    | zero => rw [List.append_assoc]; exact a1.left _
    | succ n =>
      have := (FeedAnswers.right e1 (a2 n (by omega))).left [g]
      simpa [Nat.add_comm] using this
  · have := FeedAnswers.right e2 (hres ▸ feedAnswers_one t2 b g)
    simpa [Nat.add_comm] using this
  · intro x hxr
    rw [h3, hres, hxr]
    exact PerBand.get_set_same _ _ _

/-! ### One repetition of an ideal train (R152, R155) -/

/-- The data durations of a repetition, as numbers. -/
def dataNats (code : BitVec 32) (L : Nat) (P : Protocol) (unit : Nat) : List Nat :=
  (bitsMsbFirst code L).flatMap fun bit => [unit * (symbol P bit).high.toNat, unit * (symbol P bit).low.toNat]

theorem dataNats_length (code : BitVec 32) (L : Nat) (P : Protocol) (unit : Nat) :
    (dataNats code L P unit).length = 2 * L := by
  simp [dataNats, List.length_flatMap, bitsMsbFirst_length, Nat.mul_comm]

theorem dataNats_map (code : BitVec 32) (L : Nat) (P : Protocol) (unit : Nat) :
    (dataNats code L P unit).map (BitVec.ofNat 32) = dataDurations code L P unit := by
  simp only [dataNats, dataDurations, List.map_flatMap]; rfl

theorem dataNats_le {c : Config} {P : Protocol} {unit : BitVec 16} {L : Nat} (h : TrainFits c P unit L)
    (code : BitVec 32) : ∀ d ∈ dataNats code L P unit.toNat, d ≤ c.separationLimitUs := by
  intro d hd
  obtain ⟨bit, _, hd⟩ := List.mem_flatMap.mp hd
  simp only [List.mem_cons, List.not_mem_nil, or_false] at hd
  rcases hd with rfl | rfl
  exacts [(h.data bit).1, (h.data bit).2]

/-- A train of one repetition more. -/
theorem durations_succ (code : BitVec 32) (L : Nat) (P : Protocol) (unit reps : Nat) :
    durations code L P unit (reps + 1) = durations code L P unit 1 ++ durations code L P unit reps := by
  simp [durations, train, List.replicate_succ]

theorem durations_length (code : BitVec 32) (L : Nat) (P : Protocol) (unit : Nat) :
    (durations code L P unit 1).length = 2 * (L + 2) := by
  rw [durations_one]
  have := dataNats_length code L P unit
  rw [dataNats] at this
  simp only [List.length_append, this, List.length_cons, List.length_nil]
  omega

/-- What lies between the two gaps of a repetition. -/
def betweenGaps (code : BitVec 32) (L : Nat) (P : Protocol) (unit : Nat) : List Nat :=
  if P.inverted then unit * shortSync P :: dataNats code L P unit else dataNats code L P unit ++ [unit * shortSync P]

/-- A repetition: the short part of the sync, for an inverted protocol last and else first, around the two gaps. -/
theorem durations_split (code : BitVec 32) (L : Nat) (P : Protocol) (unit : Nat) :
    durations code L P unit 1 = (if P.inverted then [] else [unit * shortSync P]) ++
      ([unit * longSync P] ++ betweenGaps code L P unit ++ [unit * longSync P]) ++
      (if P.inverted then [unit * shortSync P] else []) := by
  rw [durations_one, betweenGaps, longSync, shortSync, dataNats]
  cases P.inverted <;> simp

/-- One repetition fed to a decoder that hunts: only the gap of the trailing sync is answered with a result, the match of
the ideal window, and the decoder hunts again. -/
theorem exec_repetition {s : State} {b : Band} {P : Protocol} {unit : BitVec 16} {L : Nat} (code : BitVec 32)
    (hz : s.cfg.Sized) (hr : (s.dec.get b).rc = 0) (hf : TrainFits s.cfg P unit L) :
    let r := matchAll s.cfg (idealWindow code L P unit)
    ∃ t, execAll (feeds b (durations code L P unit.toNat 1)) s = .next t ∧ EdgeFrame b s t ∧ (t.dec.get b).rc = 0 ∧
      (∀ n, n < 2 * (L + 2) → FeedAnswers s b (durations code L P unit.toNat 1) n
        (if n = closingIndex P L then r else none)) ∧
      (∀ x, r = some x → t.hand.get b = { rdy := true, shadow := x }) := by
  intro r
  have hs := hz.separation_lt
  have hu := unit.isLt
  have hlen : (betweenGaps code L P unit.toNat).length = 2 * L + 1 := by
    unfold betweenGaps; split <;> simp [dataNats_length]
  have hg : unit.toNat * longSync P < 2 ^ 32 := by
    have hl : longSync P ≤ 255 := by
      unfold longSync
      have := P.sync.high.isLt; have := P.sync.low.isLt
      split <;> omega
    calc _ ≤ 65535 * 255 := Nat.mul_le_mul (by omega) hl
      _ < _ := by norm_num
  have hw : idealWindow code L P unit = BitVec.ofNat 32 (unit.toNat * longSync P) ::
      (betweenGaps code L P unit.toNat).map (BitVec.ofNat 32) := by
    unfold idealWindow betweenGaps
    cases P.inverted <;> simp [dataNats_map]
  have hmid : ∀ d ∈ betweenGaps code L P unit.toNat, d ≤ s.cfg.separationLimitUs := by
    intro d hd
    have : d = unit.toNat * shortSync P ∨ d ∈ dataNats code L P unit.toNat := by
      unfold betweenGaps at hd
      split at hd <;> simpa [or_comm] using hd
    rcases this with rfl | hd
    exacts [hf.short, dataNats_le hf code d hd]
  set pre : List Nat := if P.inverted then [] else [unit.toNat * shortSync P] with hpre
  set post : List Nat := if P.inverted then [unit.toNat * shortSync P] else [] with hpost
  have short : ∀ xs : List Nat, xs = pre ∨ xs = post → ∀ d ∈ xs, d ≤ s.cfg.separationLimitUs := by
    rintro xs (rfl | rfl) d hd
    · rw [hpre] at hd; split at hd <;> simp at hd; exact hd ▸ hf.short
    · rw [hpost] at hd; split at hd <;> simp at hd; exact hd ▸ hf.short
  obtain ⟨t1, e1, f1, _, r1, a1⟩ := exec_hunt b pre s (short _ (.inl rfl)) hs hr
  obtain ⟨t2, e2, f2, r2, a2, c2, g2⟩ := exec_framed (s := t1) (b := b) (g := unit.toNat * longSync P)
    (mid := betweenGaps code L P unit.toNat) (by rw [f1.cfg]; exact hf.gap) hg r1 (by rw [f1.cfg]; exact hmid)
    (by rw [f1.cfg, hlen]; exact hf.room)
  obtain ⟨t3, e3, f3, h3, r3, a3⟩ := exec_hunt b post t2 (by rw [f2.cfg, f1.cfg]; exact short _ (.inr rfl))
    (by rw [f2.cfg, f1.cfg]; exact hs) r2
  rw [← hw, f1.cfg] at c2 g2
  have e12 := execAll_feeds_append e1 e2
  rw [durations_split, ← hpre, ← hpost]
  refine ⟨t3, execAll_feeds_append e12 e3, (f1.trans f2).trans f3, r3, ?_, fun x hx => h3.trans (g2 x hx)⟩
  have hclosing : closingIndex P L = pre.length + (2 * L + 2) := by
    rw [hpre]; unfold closingIndex
    cases P.inverted
    · simp; omega
    · simp
  have hpl : pre.length + post.length = 1 := by
    rw [hpre, hpost]
    cases P.inverted <;> simp
  have hfl : ([unit.toNat * longSync P] ++ betweenGaps code L P unit.toNat ++ [unit.toNat * longSync P]).length =
      2 * L + 3 := by
    simp only [List.length_append, List.length_cons, List.length_nil, hlen]; omega
  intro n hn
  rw [hclosing]
  by_cases h1 : n < pre.length
  · rw [if_neg (by omega)]
    exact ((a1 n h1).left _).left _
  by_cases h2 : n < pre.length + (2 * L + 3)
  · obtain ⟨m, rfl⟩ : ∃ m, n = pre.length + m := ⟨n - pre.length, by omega⟩
    refine FeedAnswers.left (FeedAnswers.right e1 ?_) post
    rw [hlen] at a2 c2
    split
    · rename_i h
      obtain rfl : m = 2 * L + 1 + 1 := by omega
      exact c2
    · exact a2 m (by omega)
  · obtain ⟨m, rfl⟩ : ∃ m, n = (pre ++ ([unit.toNat * longSync P] ++ betweenGaps code L P unit.toNat ++
        [unit.toNat * longSync P])).length + m := ⟨n - (pre.length + (2 * L + 3)), by
          rw [List.length_append, hfl]; omega⟩
    rw [List.length_append, hfl] at hn h2 ⊢
    rw [if_neg (by omega)]
    have := FeedAnswers.right e12 (a3 m (by omega))
    rwa [List.length_append, hfl] at this

end Sys2Proof.Machine
end

