-- ==== Sys2Proof/Tests/Slice0.lean ====
section
/-! SUPPORT. Tests from 95_test_vectors.md under its test configuration, the smoke test of WellFormed, decoded words, and a witness for the hypotheses of each statement. -/

namespace Sys2Proof.Tests

open Sys2Proof Sys2Proof.Machine

/-! ### The test configuration (95_test_vectors.md section 0) and small states -/

/-- Protocols 1, 2 and 3 of `PT_test`. -/
def protocol1 : Protocol := { id := 1, unitUs := 350, sync := ⟨1, 31⟩, zero := ⟨1, 3⟩, one := ⟨3, 1⟩, inverted := false }
def protocol2 : Protocol := { id := 2, unitUs := 650, sync := ⟨1, 10⟩, zero := ⟨1, 2⟩, one := ⟨2, 1⟩, inverted := false }
def protocol3 : Protocol := { id := 3, unitUs := 450, sync := ⟨23, 1⟩, zero := ⟨1, 2⟩, one := ⟨2, 1⟩, inverted := true }

def testConfig : Config where
  pt := [protocol1, protocol2, protocol3]
  nameMax := 16
  defaultProto := ⟨1, 1⟩
  defaultUnit := ⟨350, 350⟩

/-- The state after reset, in the test configuration. -/
def fresh : State := State.resetWith testConfig

/-- `X/00/433/1/350/none`. -/
def plain (address : BitVec 24) : Signal :=
  { address := address, key := 0, band := .b433, protocolId := 1, unitDelayUs := 350, name := none }

/-- A memory that lists these elements at the indexes 0, 1, 2, ... -/
def listed {α : Type} (xs : List α) : Memory α := (List.range xs.length).zip xs

/-- Decoder 0 holds this window, synced or hunting. -/
def holding (rc : Nat) (xs : List Nat) : State :=
  fresh.setDec .b433 { timing := listed (xs.map (BitVec.ofNat 32)), cc := xs.length, rc := rc }

/-- The store holds these slots. -/
def storing (widx count : Nat) (xs : List Signal) : State :=
  fresh.setStore { slots := listed xs, widx := widx, count := count }

/-- Band `b` has this result pending. -/
def pending (b : Band) (r : DecodeResult) : State := fresh.setHand b { rdy := true, shadow := r }

/-- The state after an operation. -/
def after1 (i : Instr) (s : State) : State :=
  match exec i s with
  | .next t => t
  | .fault _ => s
  | .refused _ => s

/-- The command port's response to an operation. -/
def answer (i : Instr) (s : State) : Option CmdResponse := (after1 i s).ports.cmdOut

/-- What a `FEED` on edge port 0 answers, and `cc[0]`, `rc[0]` after it. -/
def fed (x : Nat) (s : State) : Option EdgeResponse × Nat × Nat :=
  let t := after1 (.feed .b433 (BitVec.ofNat 32 x)) s
  (t.ports.edgeOut.b433, t.dec.b433.cc, t.dec.b433.rc)

def quiet : Option EdgeResponse := some { valid := false, resw := 0 }
def gives (w : BitVec 64) : Option EdgeResponse := some { valid := true, resw := w }

/-- The window `W` of V2. -/
def windowV2 : List Nat := [10850, 350, 1050, 1050, 350, 350, 1050, 1050, 350, 350]

/-- The window of V1 at step 51: the gap, the bits of `0x1A2B3C` and the trailing 350. -/
def windowV1 : List Nat :=
  10850 ::
  ([350, 1050, 350, 1050, 350, 1050, 1050, 350] ++ [1050, 350, 350, 1050, 1050, 350, 350, 1050] ++
   [350, 1050, 350, 1050, 1050, 350, 350, 1050] ++ [1050, 350, 350, 1050, 1050, 350, 1050, 350] ++
   [350, 1050, 350, 1050, 1050, 350, 1050, 350] ++ [1050, 350, 1050, 350, 350, 1050, 350, 1050] ++ [350])

/-- The result `{5, 4, 1, 350}` of V2. -/
def resultV2 : DecodeResult := { code := 5, bitLength := 4, protocolId := 1, unitDelayUs := 350 }

/-- The result `{0x1A2B3C, 24, 1, 350}` of V1. -/
def resultV1 : DecodeResult := { code := 0x1A2B3C, bitLength := 24, protocolId := 1, unitDelayUs := 350 }

/-- The result `{0x00BEEF, 24, 2, 650}` of V30. -/
def resultV30 : DecodeResult := { code := 0x00BEEF, bitLength := 24, protocolId := 2, unitDelayUs := 650 }

/-- The ASCII bytes of "garage". -/
def garage : Name := [0x67, 0x61, 0x72, 0x61, 0x67, 0x65]

/-- `C0DE00 + k`, the signals of PRG2. -/
def c (k : Nat) : Signal := plain (BitVec.ofNat 24 (0xC0DE00 + k))

/-- `c_11` of PRG2: `C0DE0B/00/315/2/650/none`. -/
def c11 : Signal :=
  { address := 0xC0DE0B, key := 0, band := .b315, protocolId := 2, unitDelayUs := 650, name := none }

/-- The store of PRG2 after step 12: full, `widx = 1`, `S[0]` the newest. -/
def prg2 : State := storing 1 10 [c11, c 2, c 3, c 4, c 5, c 6, c 7, c 8, c 9, c 10]

/-! ### WellFormed refuses what no legal request carries (R86, R93 (e)) -/

theorem test_long_name_append_is_ill_formed :
    wellFormed 16 (.append { plain 1 with name := some (List.replicate 17 0x41) }) = false := by decide
theorem test_long_name_rename_is_ill_formed : wellFormed 16 (.rename 1 (List.replicate 17 0x41)) = false := by decide
theorem test_long_name_find_is_ill_formed : wellFormed 0 (.find [0x41]) = false := by decide

/-! ### Decoding (95_test_vectors.md section 5) -/

/-- A transaction with these words. -/
def words (cw : BitVec 16) (sigw : BitVec 64) (nlen : BitVec 8) (nbytes : Nat) : Request :=
  .command { cw := cw, sigw := sigw, nlen := nlen, nbytes := nbytes }

theorem test_decode_feed : decode 16 (.edge .b433 0x0000015E) = .ok (.feed .b433 350) := by rfl
theorem test_decode_append_unused_name :
    decode 16 (words 0x0100 0x0000000000000001 200 0) =
      .ok (.append { address := 1, key := 0, band := .b433, protocolId := 0, unitDelayUs := 0, name := none }) := by
  decide
theorem test_decode_get_ignores_operands : decode 16 (words 0x0201 0xFFFFFFFFFFFFFFFF 0xFF 0) = .ok (.get 1) := by decide
theorem test_decode_remove : decode 16 (words 0x0302 0 0 0) = .ok (.remove 2) := by decide
theorem test_decode_rename :
    decode 16 (words 0x0409 0 6 0x656761726167) = .ok (.rename 9 garage) := by decide
theorem test_decode_find : decode 16 (words 0x0500 0 6 0x656761726167) = .ok (.find garage) := by decide
theorem test_decode_plain_commands :
    decode 16 (words 0x0600 0 0 0) = .ok .clear ∧ decode 16 (words 0x0700 0 0 0) = .ok .stat ∧
    decode 16 (words 0x1000 0 0 0) = .ok .capen ∧ decode 16 (words 0x1100 0 0 0) = .ok .capdis ∧
    decode 16 (words 0x1500 0 0 0) = .ok .rdctr ∧ decode 16 (words 0x1600 0 0 0) = .ok .rdlrx ∧
    decode 16 (words 0x1700 0 0 0) = .ok .rdlcap ∧ decode 16 (words 0x1800 0 0 0) = .ok .ctrrst := by decide
theorem test_decode_poll :
    decode 16 (words 0x1200 0 0 0) = .ok (.poll .b433) ∧ decode 16 (words 0x1201 0 0 0) = .ok (.poll .b315) := by decide
theorem test_decode_sends :
    decode 16 (words 0x1300 0x00015E01001A2B3C 0 0) = .ok (.sends 0x1A2B3C 0 .b433 1 350) := by decide
theorem test_decode_sendr :
    decode 16 (words 0x1400 0x02FFFFFF7F00BEEF 0 0) = .ok (.sendr 0x00BEEF 0x7F .b433) := by decide
theorem test_decode_unlisted_opcodes :
    decode 16 (words 0x0000 0 0 0) = .error .unknownOpcode ∧ decode 16 (words 0x0800 0 0 0) = .error .unknownOpcode ∧
    decode 16 (words 0x0F00 0 0 0) = .error .unknownOpcode ∧ decode 16 (words 0x1900 0 0 0) = .error .unknownOpcode ∧
    decode 16 (words 0xFF00 0 0 0) = .error .unknownOpcode := by decide
theorem test_decode_clear_with_arg : decode 16 (words 0x0601 0 0 0) = .error .nonzeroArg := by decide
theorem test_decode_poll_with_high_arg :
    decode 16 (words 0x1202 0 0 0) = .error .pollArg ∧ decode 16 (words 0x1281 0 0 0) = .error .pollArg := by decide
theorem test_decode_reserved_bits :
    decode 16 (words 0x0100 0x0400000000000001 0 0) = .error .reservedBits ∧
    decode 16 (words 0x1300 0x8000000000000000 0 0) = .error .reservedBits := by decide
theorem test_decode_long_name :
    decode 16 (words 0x0100 0x0200000000000001 17 0) = .error .nameTooLong ∧
    decode 16 (words 0x0400 0 17 0) = .error .nameTooLong := by decide

theorem test_pack_signal :
    packSig { address := 0xABCDEF, key := 0x5A, band := .b315, protocolId := 2, unitDelayUs := 650, name := some garage } =
      0x03028A025AABCDEF ∧ packName garage = 0x656761726167 := by decide
theorem test_pack_result : packResult resultV1 = 0x015E0118001A2B3C := by decide

/-- The opcode table's words as the host lays them out (log 8). -/
theorem test_table_word :
    decodeTableWord 16 0x0700 = some .stat ∧ decodeTableWord 32 0x00002A62 = some (.feed .b433 10850) ∧
    decodeTableWord 16 0x0000 = none := by decide
theorem test_table_word_runs_at_reset :
    (match step (State.reset.withFetchWord 16 0x0600) with
      | .next t => t.ports.cmdOut
      | .fault _ => none
      | .refused _ => none) = some { status := .ok } := by rfl

/-! ### FEED (V1 to V7) -/

theorem test_feed_V1_result : (fed 10850 (holding 1 windowV1)) = (gives 0x015E0118001A2B3C, 1, 0) := by decide
theorem test_feed_V2_boundary :
    (fed 10850 (holding 1 (windowV2.set 1 560))).1 = gives (packResult resultV2) ∧
    fed 10850 (holding 1 (windowV2.set 1 561)) = (quiet, 1, 0) := by decide
theorem test_feed_V3_sync : fed 11050 (holding 1 windowV2) = (gives (packResult resultV2), 1, 0) ∧
    fed 11051 (holding 1 windowV2) = (quiet, 1, 1) := by decide
theorem test_feed_V4_separation : fed 4300 fresh = (quiet, 1, 0) ∧ fed 4301 fresh = (quiet, 1, 1) := by decide
theorem test_feed_V5_overflow :
    fed 350 (holding 1 (10850 :: List.replicate 65 350)) = (quiet, 0, 0) ∧
    fed 350 (holding 1 (10850 :: List.replicate 64 350)) = (quiet, 66, 1) := by decide
theorem test_match_V6_lengths :
    matchAll testConfig ([10850, 350, 1050, 350, 1050, 350, 1050, 350].map (BitVec.ofNat 32)) = none ∧
    matchAll testConfig ([10850, 350, 1050, 350, 1050, 350, 1050, 350, 1050].map (BitVec.ofNat 32)) =
      some { code := 0, bitLength := 4, protocolId := 1, unitDelayUs := 350 } ∧
    tryMatch testConfig ([10350, 450, 450, 900, 450, 900, 450, 900, 450].map (BitVec.ofNat 32)) protocol3 = none ∧
    tryMatch testConfig ([10350, 450, 450, 900, 450, 900, 450, 900, 450, 900].map (BitVec.ofNat 32)) protocol3 =
      some { code := 0, bitLength := 4, protocolId := 3, unitDelayUs := 450 } := by decide
theorem test_match_V7_both_fit_is_zero :
    tryMatch testConfig ([10850, 700, 900, 700, 900, 700, 900, 700, 900, 350].map (BitVec.ofNat 32))
      { protocol1 with zero := ⟨2, 2⟩, one := ⟨2, 3⟩ } =
      some { code := 0, bitLength := 4, protocolId := 1, unitDelayUs := 350 } := by decide
theorem test_match_unit_out_of_range :
    tryMatch testConfig ([2031616, 350, 1050, 350, 1050, 350, 1050, 350, 1050, 350].map (BitVec.ofNat 32)) protocol1 = none ∧
    tryMatch testConfig ([10850, 350, 1050, 350, 1050, 350, 1050, 350, 1050, 350].map (BitVec.ofNat 32))
      { protocol1 with sync := ⟨0, 0⟩ } = none := by decide
/-- V1: the durations of one repetition are those written out there. -/
theorem test_durations_V1 : durations 0x1A2B3C 24 protocol1 350 1 = 350 :: windowV1 ++ [10850] := by decide

/-! ### The signal store (V20 to V24, PRG2) -/

/-- V20 step 11: the store is full, the oldest is overwritten and index 1 is the second signal. -/
theorem test_append_V20_evicts :
    let s := storing 0 10 ([1, 2, 3, 4, 5, 6, 7, 8, 9, 10].map fun k => plain (BitVec.ofNat 24 (0x100000 + k)))
    let t := after1 (.append (plain 0x10000B)) s
    t.ports.cmdOut = some { status := .okEvict, idx := 10 } ∧ t.store.widx = 1 ∧
    signalAt 10 t.store 1 = plain 0x100002 ∧ signalAt 10 t.store 10 = plain 0x10000B := by decide
/-- V21: the identity of the oldest, with another protocol and unit, on a full store; and another band. -/
theorem test_append_V21_duplicate :
    answer (.append { plain 0xC0DE02 with protocolId := 3, unitDelayUs := 450 }) prg2 =
      some { status := .duplicate, idx := 1 } ∧
    answer (.append { plain 0xC0DE02 with band := .b315 }) prg2 = some { status := .okEvict, idx := 10 } := by decide
theorem test_get_prg2 :
    answer (.get 1) prg2 = some { status := .ok, idx := 1, w0 := 0x00015E0100C0DE02 } ∧
    answer (.get 11) prg2 = some { status := .indexOutOfRange } ∧
    answer (.get 0) prg2 = some { status := .indexOutOfRange } := by decide
/-- PRG2 step 15: the shift crosses the wrap. -/
theorem test_remove_prg2_wraps :
    let t := after1 (.remove 2) prg2
    t.store.count = 9 ∧ t.store.widx = 0 ∧
    t.store.slots = listed [c11, c 2, c 4, c 5, c 6, c 7, c 8, c 9, c 10, c11] := by decide
/-- V22: removing the newest moves no slot. -/
theorem test_remove_V22_last :
    let t := after1 (.remove 1) (storing 1 1 [plain 0x100001])
    t.store.count = 0 ∧ t.store.widx = 0 ∧ t.store.slots = listed [plain 0x100001] := by decide
/-- PRG2 step 16 names the newest, in slot 9. -/
theorem test_rename_prg2 :
    let s := storing 0 9 [c11, c 2, c 4, c 5, c 6, c 7, c 8, c 9, c 10, c11]
    let t := after1 (.rename 9 garage) s
    t.ports.cmdOut = some { status := .ok } ∧ t.store.slots.read? 9 = some { c11 with name := some garage } := by decide
/-- V23: the older of two signals of that name; the empty name is not `none`. -/
theorem test_find_V23 :
    let s := storing 3 3 [plain 0xB00001, { plain 0xB00002 with name := some garage },
      { plain 0xB00003 with name := some garage }]
    answer (.find garage) s =
      some { status := .ok, idx := 2, w0 := 0x02015E0100B00002, nlen := 6, nbytes := 0x656761726167 } ∧
    answer (.find []) s = some { status := .nameNotFound } := by decide
/-- V24: the slots keep their contents and are not searched. -/
theorem test_clear_V24 :
    let s := storing 3 3 [plain 0xB00001, plain 0xB00002, plain 0xB00003]
    let t := after1 .clear s
    t.store.count = 0 ∧ t.store.widx = 0 ∧ t.store.slots = s.store.slots ∧
    answer (.append (plain 0xB00002)) t = some { status := .ok, idx := 1 } := by decide
theorem test_stat_V24 :
    answer .stat prg2 = some { status := .ok, idx := 10, flags := 1 } ∧
    answer .stat (storing 3 3 []) = some { status := .ok, idx := 3 } := by decide

/-! ### The capture sequencer (V30, V31, V33, PRG1) -/

theorem test_poll_V30_received :
    let t := after1 (.poll .b315) (pending .b315 resultV30)
    t.ports.cmdOut = some { status := .received, w0 := 0x01028A020000BEEF } ∧
    t.seq.receiveCount = 1 ∧ t.hand.b315.rdy = false ∧ t.store.count = 0 := by decide
/-- PRG1 step 11: an armed poll whose append is refused still disarms and records. -/
theorem test_poll_V31_duplicate_disarms :
    let s := ((storing 1 1 [plain 0x1A2B3C]).setHand .b433 { rdy := true, shadow := resultV1 }).setSeq
      { Sequencer.reset with capMode := true }
    let t := after1 (.poll .b433) s
    t.ports.cmdOut = some { status := .captured, idx := 1, w0 := 0x00015E01001A2B3C, c0 := 0x10 } ∧
    t.seq.capMode = false ∧ t.seq.lastCaptured = some (plain 0x1A2B3C) := by decide
theorem test_capen_V30 :
    let t := after1 .capen (fresh.setSeq { Sequencer.reset with lastCaptured := some (plain 1) })
    t.seq.capMode = true ∧ t.seq.lastCaptured = none ∧ t.ports.cmdOut = some { status := .ok } := by decide
theorem test_capdis_V30 :
    let t := after1 .capdis (fresh.setSeq { Sequencer.reset with capMode := true, lastCaptured := some (plain 1) })
    t.seq.capMode = false ∧ t.seq.lastCaptured = some (plain 1) ∧ t.ports.cmdOut = some { status := .ok } := by decide
theorem test_sends_V30 :
    answer (.sends 0xFFFFFF 0xFF .b315 200 65535) fresh =
      some { status := .tx, idx := 3, flags := 1, w0 := 0xFFFFC81800FFFFFF } := by decide
theorem test_sendr_V30 :
    answer (.sendr 0x00BEEF 0x7F .b315) fresh =
      some { status := .tx, idx := 3, flags := 1, w0 := 0x015E01180000BEEF } := by decide
/-- V33: saturation. -/
theorem test_sends_V33_saturates :
    (after1 (.sends 1 0 .b433 1 1) (fresh.setSeq { Sequencer.reset with sendCount := 0xFFFFFFFE })).seq.sendCount =
      0xFFFFFFFF ∧
    (after1 (.sendr 1 0 .b433) (fresh.setSeq { Sequencer.reset with sendCount := 0xFFFFFFFF })).seq.sendCount =
      0xFFFFFFFF := by decide
theorem test_rdctr_V30 :
    answer .rdctr (fresh.setSeq { Sequencer.reset with capMode := true, sendCount := 2, receiveCount := 3 }) =
      some { status := .ok, flags := 1, c0 := 2, c1 := 3 } := by decide
theorem test_rdlrx_V30 :
    answer .rdlrx fresh = some { status := .none } ∧
    answer .rdlrx (fresh.setSeq { Sequencer.reset with lastReceived := some (signalOf resultV30 .b315) }) =
      some { status := .ok, w0 := 0x01028A020000BEEF } := by decide
theorem test_rdlcap_V30 :
    answer .rdlcap fresh = some { status := .none } ∧
    answer .rdlcap (fresh.setSeq { Sequencer.reset with lastCaptured := some (signalOf resultV30 .b315) }) =
      some { status := .ok, w0 := 0x01028A020000BEEF } := by decide
theorem test_ctrrst_V30 :
    let t := after1 .ctrrst (fresh.setSeq { Sequencer.reset with capMode := true, sendCount := 2, receiveCount := 3 })
    t.seq = { Sequencer.reset with capMode := true } ∧ t.ports.cmdOut = some { status := .ok } := by decide

/-! ### Scripts (R96, R97, PRG1, PRG2) -/

theorem test_script_append :
    opOfLine "APPEND addr=C0DE0B key=00 band=315 proto=2 unit=650   # c_11".toList =
      some (.operation (.append c11)) := by decide
theorem test_script_rename :
    opOfLine "RENAME 9 \"garage\"".toList = some (.operation (.rename 9 garage)) := by decide
theorem test_script_train :
    opOfLine "TRAIN.433 code=1A2B3C bits=24 proto=1 unit=350 reps=1".toList =
      some (.train .b433 0x1A2B3C 24 1 350 1) := by decide
/-- PRG1 steps 6 and 7: `SEND 1` is `GET 1`, then `SENDS` with the signal returned. -/
theorem test_script_send :
    (ScriptOp.send 1).begin testConfig = [.get 1] ∧
    (ScriptOp.send 1).continue { status := .ok, idx := 1, w0 := 0x00015E01001A2B3C } =
      [.sends 0x1A2B3C 0 .b433 1 350] := by decide

/-- By hand from R119 to R123: protocol 1 (unit 333, tolerance 199) takes every pair of protocol 3's all-ones window, read
from entry 1 on, for a zero, so `PT_test` as a whole does not meet R156. -/
theorem test_lower_id_takes_a_window :
    matchAll testConfig (idealWindow 0xFFFFFF 24 protocol3 450) =
      some { code := 0, bitLength := 24, protocolId := 1, unitDelayUs := 333 } := by decide
/-- R279: an append that is refused is no save point. -/
theorem test_save_points :
    savePoint (.append c11) { status := .okEvict } = true ∧ savePoint (.append c11) { status := .duplicate } = false ∧
    savePoint (.poll .b433) { status := .captured, c0 := 0x02 } = true ∧
    savePoint (.poll .b433) { status := .captured, c0 := 0x10 } = false := by decide

/-! ### States that meet the invariants, for the witnesses -/

/-- A decidable form of `Decoder.Inv`. -/
def decoderCheck (c : Config) (d : Decoder) : Bool :=
  decide (d.cc < c.cap) && decide (d.rc ≤ 1) &&
  (d.rc == 0 || (decide (1 ≤ d.cc) && ((d.timing.read? 0).any fun x => decide (c.separationLimitUs < x.toNat)))) &&
  ((List.range d.cc).all fun i => (d.timing.read? i).isSome) && d.timing.wf && (d.timing.all fun p => decide (p.1 < c.cap))

theorem decoder_inv_of_check {c : Config} {d : Decoder} (h : decoderCheck c d = true) : d.Inv c := by
  simp only [decoderCheck, Bool.and_eq_true, Bool.or_eq_true, decide_eq_true_eq, beq_iff_eq, List.all_eq_true,
    List.mem_range, Option.any_eq_true] at h
  obtain ⟨⟨⟨⟨⟨h1, h2⟩, h3⟩, h4⟩, h5⟩, h6⟩ := h
  exact ⟨h1, h2, fun hr => h3.resolve_left (by omega), h4, h5, h6⟩

/-- A decidable form of `Handoff.Inv`. -/
def handoffCheck (c : Config) (h : Handoff) : Bool :=
  !h.rdy || (decide (c.minPairs < h.shadow.bitLength.toNat) && decide (2 * h.shadow.bitLength.toNat + 2 ≤ c.cap) &&
    (c.pt.any fun P => P.id == h.shadow.protocolId))

theorem handoff_inv_of_check {c : Config} {a : Handoff} (h : handoffCheck c a = true) : a.Inv c := by
  simp only [handoffCheck, Bool.and_eq_true, Bool.or_eq_true, decide_eq_true_eq, beq_iff_eq, List.any_eq_true,
    Bool.not_eq_true'] at h
  rcases h with h | ⟨⟨h1, h2⟩, h3⟩
  · exact ⟨fun hr => by simp [h] at hr, fun hr => by simp [h] at hr, fun hr => by simp [h] at hr⟩
  · exact ⟨fun _ => h1, fun _ => h2, fun _ => h3⟩

/-- A decidable form of `Store.Inv`. -/
def storeCheck (c : Config) (st : Store) : Bool :=
  decide (st.widx < c.maxSlots) && decide (st.count ≤ c.maxSlots) &&
  ((ages st).all fun u => (st.slots.read? (slot c.maxSlots st u)).isSome) &&
  ((ages st).all fun u => (ages st).all fun v =>
    decide (v ≤ u) || !sameId (signalAt c.maxSlots st u) (signalAt c.maxSlots st v)) &&
  (st.slots.all fun p => p.2.name.all fun name => decide (name.length ≤ c.nameMax)) &&
  st.slots.wf && (st.slots.all fun p => decide (p.1 < c.maxSlots))

theorem store_inv_of_check {c : Config} {st : Store} (h : storeCheck c st = true) : st.Inv c := by
  simp only [storeCheck, Bool.and_eq_true, Bool.or_eq_true, decide_eq_true_eq, List.all_eq_true, Option.all_eq_true,
    Bool.not_eq_true', ages, List.mem_range'_1] at h
  obtain ⟨⟨⟨⟨⟨⟨h1, h2⟩, h3⟩, h4⟩, h5⟩, h6⟩, h7⟩ := h
  exact ⟨h1, h2, fun u hu hle => h3 u (by omega),
    fun u v hu huv hv => (h4 u (by omega) v (by omega)).resolve_left (by omega), h5, h6, h7⟩

/-- A decidable form of `Sequencer.Inv`. -/
def sequencerCheck (q : Sequencer) : Bool :=
  (q.lastReceived.all fun sig => sig.name.isNone) && (q.lastCaptured.all fun sig => sig.name.isNone) &&
  (!q.capMode || q.lastCaptured.isNone)

theorem sequencer_inv_of_check {q : Sequencer} (h : sequencerCheck q = true) : q.Inv := by
  simp only [sequencerCheck, Bool.and_eq_true, Bool.or_eq_true, Option.all_eq_true, Option.isNone_iff_eq_none,
    Bool.not_eq_true'] at h
  obtain ⟨⟨h1, h2⟩, h3⟩ := h
  exact ⟨h1, h2, fun hc => h3.resolve_left (by simp [hc])⟩

theorem test_config_sized : testConfig.Sized := by constructor <;> decide

theorem test_config_table_ok : testConfig.TableOk where
  size_ge := by decide
  size_le := by decide
  ids := by
    intro k P h
    match k with
    | 0 => cases h; rfl
    | 1 => cases h; rfl
    | 2 => cases h; rfl
    | k + 3 => simp [testConfig] at h
  sync := by decide

/-- The decidable form of `State.Inv` in the test configuration. -/
def stateCheck (s : State) : Bool :=
  decide (s.cfg = testConfig) && decoderCheck s.cfg s.dec.b433 && decoderCheck s.cfg s.dec.b315 &&
  handoffCheck s.cfg s.hand.b433 && handoffCheck s.cfg s.hand.b315 && storeCheck s.cfg s.store && sequencerCheck s.seq

theorem state_inv_of_check {s : State} (h : stateCheck s = true) : s.Inv := by
  simp only [stateCheck, Bool.and_eq_true, decide_eq_true_eq] at h
  obtain ⟨⟨⟨⟨⟨⟨h0, h1⟩, h2⟩, h3⟩, h4⟩, h5⟩, h6⟩ := h
  exact ⟨h0 ▸ test_config_sized,
    fun b => by cases b; exacts [decoder_inv_of_check h1, decoder_inv_of_check h2],
    fun b => by cases b; exacts [handoff_inv_of_check h3, handoff_inv_of_check h4],
    store_inv_of_check h5, sequencer_inv_of_check h6⟩

/-- A state of a run of the test configuration with everything in it: a synced window, a pending result, the full store
of PRG2 and a received signal. -/
def busy : State :=
  { fresh with
    dec := (holding 1 windowV2).dec
    hand := (pending .b315 resultV30).hand
    store := prg2.store
    seq := { Sequencer.reset with capMode := true, lastReceived := some (plain 7), sendCount := 0xFFFFFFFF }
    ports := { Ports.reset with
      schedule := [.edge .b433, .command, .edge .b315]
      edgeIn := ⟨[10850], []⟩
      cmdIn := [{ cw := 0x1201, sigw := 0, nlen := 0, nbytes := 0 }] } }

theorem test_busy_inv : busy.Inv := state_inv_of_check (by decide)

/-! ### Witnesses: for each statement with hypotheses, states and operands that meet them together -/

theorem witness_DecodeReadsBackEveryEncoding :
    255 ≤ 255 ∧ wellFormed 255 (.find garage) = true ∧
    wellFormed 16 (.append { plain 0xFFFFFF with name := some (List.replicate 16 0xFF) }) = true ∧
    wellFormed 0 (.find []) = true := by decide

theorem witness_DecodedInstructionsAreWellFormed :
    decode 16 (words 0x0400 0 16 0) = .ok (.rename 0 (List.replicate 16 0)) ∧
    decode 16 (.edge .b315 0xFFFFFFFF) = .ok (.feed .b315 0xFFFFFFFF) := by decide

theorem witness_StepRunsTheDecodedOperation :
    (busy.ports.schedule = .edge .b433 :: [.command, .edge .b315] ∧ busy.ports.edgeIn.get .b433 = 10850 :: []) ∧
    (∃ (s : State) (t : Transaction), s.ports.schedule = .command :: [.edge .b315] ∧ s.ports.cmdIn = t :: [] ∧
      decode s.cfg.nameMax (.command t) = .ok (.poll .b315)) :=
  ⟨⟨rfl, rfl⟩, { busy with ports := { busy.ports with schedule := [.command, .edge .b315] } }, _, rfl, rfl, by decide⟩

theorem witness_NothingPresentedChangesNothing :
    fresh.ports.schedule = [] ∧
    (∃ s : State, s.ports.schedule = [.edge .b315] ∧ s.ports.edgeIn.get .b315 = []) ∧
    (∃ s : State, s.ports.schedule = [.command] ∧ s.ports.cmdIn = []) :=
  ⟨rfl, ⟨{ fresh with ports := { fresh.ports with schedule := [.edge .b315] } }, rfl, rfl⟩,
    ⟨{ fresh with ports := { fresh.ports with schedule := [.command] } }, rfl, rfl⟩⟩

/-- A transaction with no name bytes. -/
def tx (cw : BitVec 16) (sigw : BitVec 64) (nlen : BitVec 8) : Transaction :=
  { cw := cw, sigw := sigw, nlen := nlen, nbytes := 0 }

/-- Each cause of R93 at a boundary, and legal transactions next to it. -/
theorem witness_IllegalTransactionsAreAnsweredAndChangeNothing :
    (∃ s : State, ∃ t, s.ports.schedule = .command :: [] ∧ s.ports.cmdIn = t :: []) ∧
    (IllegalTransaction 16 (tx 0x0000 0 0) ∧ IllegalTransaction 16 (tx 0x0800 0 0) ∧
      IllegalTransaction 16 (tx 0x0F00 0 0) ∧ IllegalTransaction 16 (tx 0x1900 0 0)) ∧
    (IllegalTransaction 16 (tx 0x0601 0 0) ∧ IllegalTransaction 16 (tx 0x1202 0 0)) ∧
    (IllegalTransaction 16 (tx 0x0100 0x0400000000000000 0) ∧ ¬ IllegalTransaction 16 (tx 0x0100 0x03FFFFFFFFFFFFFF 16)) ∧
    (IllegalTransaction 16 (tx 0x0100 0x0200000000000000 17) ∧ ¬ IllegalTransaction 16 (tx 0x0100 0 200) ∧
      IllegalTransaction 16 (tx 0x0400 0 17) ∧ ¬ IllegalTransaction 16 (tx 0x0400 0 16) ∧
      ¬ IllegalTransaction 16 (tx 0x1201 0xFFFFFFFFFFFFFFFF 255) ∧ ¬ IllegalTransaction 16 (tx 0x02FF 0 0)) := by
  refine ⟨⟨{ fresh with ports := { fresh.ports with schedule := [.command], cmdIn := [tx 0 0 0] } }, _, rfl, rfl⟩,
    ⟨?_, ?_, ?_, ?_⟩, ⟨?_, ?_⟩, ⟨?_, ?_⟩, ?_, ?_, ?_, ?_, ?_, ?_⟩ <;> dsimp only [IllegalTransaction] <;> decide

theorem witness_PresentedTableWordRunsNext :
    decodeTableWord 16 0x0204 = some (.get 4) ∧ decodeTableWord 32 0xFFFFFFFF = some (.feed .b433 0xFFFFFFFF) := by decide

theorem witness_StepKeepsTheInvariants : busy.Inv ∧ ∃ t, step busy = .next t := ⟨test_busy_inv, _, rfl⟩

theorem witness_ResetMeetsTheInvariants : testConfig.Sized := test_config_sized

/-- 4300 is a data edge, before and at the full buffer. -/
theorem witness_DataEdgeIsAppendedOrAbandonsTheWindow :
    (4300#32).toNat ≤ busy.cfg.separationLimitUs ∧ (busy.dec.get .b433).cc + 1 ≠ busy.cfg.cap ∧
    (busy.dec.get .b433).Inv busy.cfg ∧
    (let s := holding 1 (10850 :: List.replicate 65 0)
     (s.dec.get .b433).cc + 1 = s.cfg.cap ∧ (s.dec.get .b433).Inv s.cfg) :=
  ⟨by decide, by decide, test_busy_inv.dec _, by decide, decoder_inv_of_check (by decide)⟩

/-- 4301 is a gap; the first gap, a gap 200 away and a gap 201 away. -/
theorem witness_GapCountsAndRestartsTheWindow :
    fresh.cfg.separationLimitUs < (4301#32).toNat ∧ (fresh.dec.get .b433).rc = 0 ∧ (busy.dec.get .b433).rc = 1 ∧
    Near busy.cfg.syncMatchUs (timingAt .b433 (busy.dec.get .b433) 0).toNat (11050#32).toNat ∧
    ¬ Near busy.cfg.syncMatchUs (timingAt .b433 (busy.dec.get .b433) 0).toNat (10649#32).toNat := by
  unfold Near
  decide

theorem witness_ClosingGapDeliversTheMatch :
    (busy.cfg.separationLimitUs < (10650#32).toNat ∧ (busy.dec.get .b433).rc = 1 ∧
      Near busy.cfg.syncMatchUs (timingAt .b433 (busy.dec.get .b433) 0).toNat (10650#32).toNat ∧
      matchAll busy.cfg ((List.range (busy.dec.get .b433).cc).map (timingAt .b433 (busy.dec.get .b433))) =
        some resultV2) ∧
    ((4300#32).toNat ≤ busy.cfg.separationLimitUs) ∧ ((fresh.dec.get .b433).rc = 0) ∧
    (¬ Near busy.cfg.syncMatchUs (timingAt .b433 (busy.dec.get .b433) 0).toNat (11051#32).toNat) ∧
    (let s := holding 1 [10850]
     matchAll s.cfg ((List.range (s.dec.get .b433).cc).map (timingAt .b433 (s.dec.get .b433))) = none) := by
  unfold Near
  decide

theorem witness_LowestAcceptingProtocolWins :
    testConfig.TableOk ∧ matchAll testConfig (windowV2.map (BitVec.ofNat 32)) = some resultV2 ∧
    matchAll testConfig [] = none := ⟨test_config_table_ok, by decide, by decide⟩

/-- A window that protocol 3, which is inverted, accepts. -/
theorem witness_ProtocolMatchIsTheSpecs :
    tryMatch testConfig (10350#32 :: [450, 450, 900, 450, 900, 450, 900, 450, 900].map (BitVec.ofNat 32)) protocol3 =
      some { code := 0, bitLength := 4, protocolId := 3, unitDelayUs := 450 } := by decide

/-- V2 at both ends of the tolerance, for either element. -/
theorem witness_ToleranceBoundaryIsInclusive :
    Near 210 (350 * protocol1.zero.low.toNat) (1050#32).toNat ∧ (560#32).toNat = 350 * protocol1.zero.high.toNat + 210 ∧
    (140#32).toNat + 210 = 350 * protocol1.zero.high.toNat ∧
    Near 210 (350 * protocol1.zero.high.toNat) (350#32).toNat ∧ (1260#32).toNat = 350 * protocol1.zero.low.toNat + 210 ∧
    (840#32).toNat + 210 = 350 * protocol1.zero.low.toNat ∧
    (561#32).toNat = 350 * protocol1.zero.high.toNat + (210 + 1) ∧
    (139#32).toNat + (210 + 1) = 350 * protocol1.zero.high.toNat ∧
    (1261#32).toNat = 350 * protocol1.zero.low.toNat + (210 + 1) ∧
    (839#32).toNat + (210 + 1) = 350 * protocol1.zero.low.toNat := by
  unfold Near
  decide

theorem witness_OperationsOfDifferentAgentsCommute :
    ((∀ b' y, Instr.poll .b315 ≠ .feed b' y) ∧ Instr.poll .b315 ≠ .poll .b433) ∧
    (∃ t, exec (.feed .b433 350) busy = .next t ∧
      t.ports.edgeOut.get .b433 = some { valid := false, resw := 0 } ∧ t.hand = busy.hand) :=
  ⟨⟨nofun, nofun⟩, _, rfl, by decide, by decide⟩

/-- Another stale entry behind the window. -/
theorem witness_EntriesOutsideTheWindowNeverMatter :
    ∃ s' t t', busy.Inv ∧ SameWindow .b433 busy s' ∧ exec (.feed .b433 350) busy = .next t ∧
      exec (.feed .b433 350) s' = .next t' ∧ s' ≠ busy := by
  refine ⟨busy.setDec .b433 { busy.dec.get .b433 with timing := (busy.dec.get .b433).timing ++ [(66, 9)] }, _, _,
    test_busy_inv, ⟨_, rfl, ?_⟩, rfl, rfl, by decide⟩
  decide

theorem witness_IdealWindowIsRecovered :
    (syncPulses protocol1 ≠ 0 ∧ 350 ≤ 0xFFFF ∧ testConfig.minPairs < 32 ∧ 32 ≤ 32 ∧
      (0xFFFFFFFF#32).toNat < 2 ^ 32 ∧ SymbolsApart testConfig protocol1 350 ∧
      ([] : List Duration).length = (if protocol1.inverted then 1 else 0) ∧ ([350] : List Duration).length ≤ 1) ∧
    (syncPulses protocol3 ≠ 0 ∧ testConfig.minPairs < 4 ∧ (0#32).toNat < 2 ^ 4 ∧ SymbolsApart testConfig protocol3 0xFFFF ∧
      ([450] : List Duration).length = (if protocol3.inverted then 1 else 0) ∧ ([] : List Duration).length ≤ 1) := by
  unfold SymbolsApart PairNear Near
  decide

/-- Protocol 2, behind protocol 1 that rejects the window, at the fewest bits; and the longest frame of protocol 1. -/
theorem witness_IdealFrameIsDecoded :
    busy.Inv ∧ (busy.dec.get .b315).rc = 0 ∧
    (let L := 4
     let code := 0x5#32
     let unit := 650#16
     busy.cfg.pt[1]? = some protocol2 ∧ protocol2.inverted = false ∧
     protocol2.sync.high.toNat ≤ protocol2.sync.low.toNat ∧
     busy.cfg.separationLimitUs < unit.toNat * protocol2.sync.low.toNat ∧
     unit.toNat * protocol2.sync.high.toNat ≤ busy.cfg.separationLimitUs ∧
     (∀ bit, unit.toNat * (symbol protocol2 bit).high.toNat ≤ busy.cfg.separationLimitUs ∧
       unit.toNat * (symbol protocol2 bit).low.toNat ≤ busy.cfg.separationLimitUs) ∧
     busy.cfg.minPairs < L ∧ L ≤ 32 ∧ 2 * L + 2 < busy.cfg.cap ∧ code.toNat < 2 ^ L ∧
     SymbolsApart busy.cfg protocol2 unit.toNat ∧
     (∀ j Q, j < 1 → busy.cfg.pt[j]? = some Q →
       tryMatch busy.cfg (BitVec.ofNat 32 (unit.toNat * protocol2.sync.low.toNat) ::
         (dataDurations code L protocol2 unit.toNat ++
           [BitVec.ofNat 32 (unit.toNat * protocol2.sync.high.toNat)])) Q = none)) ∧
    (busy.cfg.pt[0]? = some protocol1 ∧ 2 * 32 + 2 < busy.cfg.cap ∧ SymbolsApart busy.cfg protocol1 350) := by
  refine ⟨test_busy_inv, by decide, ⟨rfl, rfl, by decide, by decide, by decide, by decide, by decide, by decide,
    by decide, by decide, by unfold SymbolsApart PairNear Near; decide, ?_⟩, rfl, by decide,
    by unfold SymbolsApart PairNear Near; decide⟩
  intro j Q hj hQ
  obtain rfl : j = 0 := by omega
  cases hQ
  decide

theorem witness_polls :
    ((busy.hand.get .b433).rdy = false) ∧
    ((pending .b433 resultV1).hand.get .b433).rdy = true ∧ (pending .b433 resultV1).seq.capMode = false ∧
    (busy.hand.get .b315).rdy = true ∧ busy.seq.capMode = true ∧
    (let s := busy.setHand .b433 { rdy := true, shadow := resultV1 }
     (s.hand.get .b433).rdy = true ∧ (s.hand.get .b315).rdy = true ∧ s.seq.capMode = true ∧ Band.b433 ≠ Band.b315) := by
  decide

/-- Arming, disarming and delivering while armed. -/
theorem witness_CaptureModeChangesOnlyAsTheSpecSays :
    (∃ t, exec .capen fresh = .next t ∧ fresh.seq.capMode = false ∧ t.seq.capMode = true) ∧
    (∃ t, exec .capdis busy = .next t ∧ busy.seq.capMode = true ∧ t.seq.capMode = false) ∧
    (∃ t, exec (.poll .b315) busy = .next t ∧ t.seq.capMode = false) ∧
    (∃ t t', exec (.feed .b433 10850) busy = .next t ∧
      exec (.feed .b433 10850) (busy.setSeq Sequencer.reset) = .next t') :=
  ⟨⟨_, rfl, rfl, rfl⟩, ⟨_, rfl, rfl, rfl⟩, ⟨_, rfl, by decide⟩, ⟨_, _, rfl, rfl⟩⟩

theorem witness_ReadoutsAnswerTheRegisters :
    fresh.seq.lastReceived = none ∧ fresh.seq.lastCaptured = none ∧
    busy.seq.lastReceived = some (plain 7) ∧ busy.seq.Inv ∧
    (∃ q : Sequencer, q.lastCaptured = some (plain 9) ∧ q.Inv) :=
  ⟨rfl, rfl, rfl, test_busy_inv.seq,
    ⟨{ Sequencer.reset with lastCaptured := some (plain 9) }, rfl, sequencer_inv_of_check (by decide)⟩⟩

theorem witness_CountersAreMonotonic :
    ∃ t, exec (.sends 1 0 .b433 1 1) busy = .next t ∧ Instr.sends 1 0 .b433 1 1 ≠ .ctrrst := ⟨_, rfl, nofun⟩

theorem witness_ReadingCommandsAreIdempotent :
    (∃ t, exec (.get 1) prg2 = .next t) ∧ (∃ t, exec (.find garage) prg2 = .next t) ∧ (∃ t, exec .stat prg2 = .next t) ∧
    (∃ t, exec .rdctr prg2 = .next t) ∧ (∃ t, exec .rdlrx prg2 = .next t) ∧ (∃ t, exec .rdlcap prg2 = .next t) :=
  ⟨⟨_, rfl⟩, ⟨_, rfl⟩, ⟨_, rfl⟩, ⟨_, rfl⟩, ⟨_, rfl⟩, ⟨_, rfl⟩⟩

/-- A full store in the middle of the ring, and a store of one slot. -/
theorem witness_SlotsFollowAge :
    (prg2.store.widx < 10 ∧ prg2.store.count ≤ 10 ∧ 1 ≤ 9 ∧ 9 + 1 ≤ prg2.store.count ∧ 1 ≤ 10 ∧ 10 ≤ prg2.store.count) ∧
    (∃ st : Store, st.widx < 1 ∧ st.count ≤ 1 ∧ 1 ≤ st.count) :=
  ⟨by decide, ⟨{ slots := [], widx := 0, count := 1 }, by decide, by decide, by decide⟩⟩

/-- A new identity for a full store and for an empty one. -/
theorem witness_AppendMakesTheNewestSignal :
    prg2.cfg.Sized ∧ prg2.store.Inv prg2.cfg ∧
    (∀ x ∈ live prg2.cfg.maxSlots prg2.store, sameId x (c 12) = false) ∧ prg2.store.count = prg2.cfg.maxSlots ∧
    fresh.store.Inv fresh.cfg ∧ (∀ x ∈ live fresh.cfg.maxSlots fresh.store, sameId x (c 12) = false) ∧
    fresh.store.count ≠ fresh.cfg.maxSlots :=
  ⟨test_config_sized, store_inv_of_check (by decide), by decide, by decide, store_inv_of_check (by decide), by decide,
    by decide⟩

/-- The identity of the oldest and of the newest signal of a full store. -/
theorem witness_AppendRefusesADuplicate :
    prg2.store.Inv prg2.cfg ∧ (live prg2.cfg.maxSlots prg2.store)[1 - 1]? = some (c 2) ∧
    (live prg2.cfg.maxSlots prg2.store)[10 - 1]? = some c11 ∧
    (let sig := { c 2 with protocolId := 3, unitDelayUs := 450, name := some [] }
     (c 2).address = sig.address ∧ (c 2).key = sig.key ∧ (c 2).band = sig.band) :=
  ⟨store_inv_of_check (by decide), by decide, by decide, by decide⟩

theorem witness_GetAnswersTheSignalOfThatAge :
    1 ≤ (10#8).toNat ∧ (live prg2.cfg.maxSlots prg2.store)[(10#8).toNat - 1]? = some c11 ∧
    (live prg2.cfg.maxSlots prg2.store)[(1#8).toNat - 1]? = some (c 2) := by decide

/-- The oldest and the newest signal of a full store (REMOVE and RENAME). -/
theorem witness_remove_and_rename :
    prg2.store.Inv prg2.cfg ∧ 1 ≤ (1#8).toNat ∧ (1#8).toNat ≤ prg2.store.count ∧ (10#8).toNat ≤ prg2.store.count :=
  ⟨store_inv_of_check (by decide), by decide, by decide, by decide⟩

theorem witness_FindAnswersTheOldestOfThatName :
    (let s := storing 3 3 [plain 1, { plain 2 with name := some [] }, { plain 3 with name := some [] }]
     (live s.cfg.maxSlots s.store)[1]? = some { plain 2 with name := some [] } ∧
     (∀ v, v < 1 → ∀ y ∈ (live s.cfg.maxSlots s.store)[v]?, y.name ≠ some [])) ∧
    (∀ x ∈ live prg2.cfg.maxSlots prg2.store, x.name ≠ some []) := by decide

theorem witness_StatAnswersCountAndFull :
    prg2.cfg.Sized ∧ prg2.store.Inv prg2.cfg ∧ prg2.store.count = prg2.cfg.maxSlots ∧
    fresh.store.Inv fresh.cfg ∧ fresh.store.count = 0 :=
  ⟨test_config_sized, store_inv_of_check (by decide), rfl, store_inv_of_check (by decide), rfl⟩

theorem witness_BadIndexChangesNothing :
    (0#8).toNat = 0 ∧ prg2.store.count < (11#8).toNat ∧ fresh.store.count < (1#8).toNat ∧
    prg2.store.count < (255#8).toNat := by decide

/-- `c 1`, ..., `c 11` and a named signal of the other band: twelve different identities, more than the store holds. -/
theorem witness_AppendsKeepTheNewest :
    fresh.cfg.Sized ∧ fresh.store.Inv fresh.cfg ∧ fresh.store.count = 0 ∧
    (let signals := (List.range' 1 11).map c ++ [{ c11 with name := some garage }]
     signals.Pairwise (fun x y => sameId x y = false) ∧
     (∀ x ∈ signals, wellFormed fresh.cfg.nameMax (.append x) = true)) :=
  ⟨test_config_sized, store_inv_of_check (by decide), rfl, by decide, by decide⟩

theorem witness_StateIsWrittenOnlyByItsOwner :
    (∃ t, exec (.feed .b433 10850) busy = .next t ∧ t.dec.get .b433 ≠ busy.dec.get .b433 ∧
      t.hand.get .b433 ≠ busy.hand.get .b433) ∧
    (∃ t, exec (.poll .b315) busy = .next t ∧ (busy.hand.get .b315).rdy = true ∧ (t.hand.get .b315).rdy = false ∧
      t.store ≠ busy.store ∧ t.seq.lastReceived ≠ busy.seq.lastReceived ∧
      t.seq.lastCaptured ≠ busy.seq.lastCaptured ∧ t.seq.receiveCount ≠ busy.seq.receiveCount) ∧
    (∃ t, exec .ctrrst busy = .next t ∧ t.seq.sendCount ≠ busy.seq.sendCount) :=
  ⟨⟨_, rfl, by decide, by decide⟩, ⟨_, rfl, by decide, by decide, by decide, by decide, by decide, by decide⟩,
    ⟨_, rfl, by decide⟩⟩

/-- Protocol 2 at 24 bits, and the inverted protocol 3 at 32 bits, the longest window the buffer holds. -/
theorem witness_EveryRepetitionClosesItsWindow :
    busy.cfg.Sized ∧ (busy.dec.get .b315).rc = 0 ∧ TrainFits busy.cfg protocol2 650 24 ∧
    TrainFits busy.cfg protocol3 450 32 ∧ protocol3.inverted = true :=
  ⟨test_config_sized, by decide, ⟨by decide, by decide, by decide, by decide⟩,
    ⟨by decide, by decide, by decide, by decide⟩, rfl⟩

/-- One table entry whose trains fit at 24 bits (an inverted one, and one that is not). -/
theorem witness_RoundTripIsACheckOfTheTable :
    testConfig.Sized ∧ TrainFits testConfig protocol1 350 24 ∧ TrainFits testConfig protocol3 450 24 :=
  ⟨test_config_sized, ⟨by decide, by decide, by decide, by decide⟩, ⟨by decide, by decide, by decide, by decide⟩⟩

/-- Protocols 1 and 2, each with its own unit: protocol 1 rejects the first pair of every window of protocol 2. -/
theorem witness_SeparatedTableRoundTrips :
    (let c : Config := { testConfig with pt := [protocol1, protocol2] }
     c.Sized ∧ c.minPairs < 24 ∧
     ∀ k P, c.pt[k]? = some P → TrainFits c P P.unitUs 24 ∧ SymbolsApart c P P.unitUs.toNat ∧
       ∀ (code : BitVec 32) (j : Nat) (Q : Protocol), code.toNat < 2 ^ 24 → j < k → c.pt[j]? = some Q →
         tryMatch c (idealWindow code 24 P P.unitUs) Q = none) := by
  refine ⟨by constructor <;> decide, by decide, ?_⟩
  intro k P hP
  match k with
  | 0 =>
    cases hP
    exact ⟨⟨by decide, by decide, by decide, by decide⟩, by unfold SymbolsApart PairNear Near; decide,
      fun _ j _ _ hj => absurd hj (Nat.not_lt_zero j)⟩
  | 1 =>
    cases hP
    refine ⟨⟨by decide, by decide, by decide, by decide⟩, by unfold SymbolsApart PairNear Near; decide, ?_⟩
    intro code j Q _ hj hQ
    obtain rfl : j = 0 := by omega
    cases hQ
    unfold idealWindow dataDurations
    rw [bitsMsbFirst]
    generalize bitsMsbFirst code 23 = rest
    cases code.getLsbD 23 <;> rfl
  | k + 2 => simp at hP

/-- A table with the ratios of protocol 1 twice, and a unit at which the sync of protocol 1 is no gap. -/
theorem witness_RoundTripFailsWhereTheSpecSays :
    (let twin : Protocol := { protocol1 with id := 2 }
     let c : Config := { testConfig with pt := [protocol1, twin] }
     c.TableOk ∧ 0 < 1 ∧ c.pt[0]? = some protocol1 ∧ c.pt[1]? = some twin ∧ protocol1.sync = twin.sync ∧
     protocol1.zero = twin.zero ∧ protocol1.one = twin.one ∧ protocol1.inverted = twin.inverted) ∧
    (protocol1 ∈ testConfig.pt ∧ testConfig.separationLimitUs < 2 ^ 32 ∧
     (138#16).toNat * syncPulses protocol1 ≤ testConfig.separationLimitUs ∧
     (∀ bit, (138#16).toNat * (symbol protocol1 bit).high.toNat ≤ testConfig.separationLimitUs ∧
       (138#16).toNat * (symbol protocol1 bit).low.toNat ≤ testConfig.separationLimitUs)) := by
  refine ⟨⟨⟨by decide, by decide, ?_, by decide⟩, by decide, rfl, rfl, rfl, rfl, rfl, rfl⟩,
    by decide, by decide, by decide, by decide⟩
  intro k P h
  match k with
  | 0 => cases h; rfl
  | 1 => cases h; rfl
  | k + 2 => simp at h

/-- Default protocols at both ends of the table. -/
theorem witness_SendrDefaultIsATableProtocol :
    { testConfig with defaultProto := ⟨1, 3⟩ }.Legal :=
  ⟨by constructor <;> decide, ⟨test_config_table_ok.size_ge, test_config_table_ok.size_le, test_config_table_ok.ids,
    test_config_table_ok.sync⟩, by constructor <;> decide⟩

end Sys2Proof.Tests
end

section
/-! PROOFS. The transmit requests of the sequencer: the word `TXW`, the table entry a request names, and the train it asks for. -/

namespace Sys2Proof.Machine

/-- `TXW` as a number (R88). -/
theorem packTx_toNat (t : TxRequest) :
    (packTx t).toNat =
      ((t.unitDelayUs.toNat * 2 ^ 8 + t.protocolId.toNat) * 2 ^ 8 + t.bitLength.toNat) * 2 ^ 32 + t.code.toNat := by
  simp only [packTx, toNat_append_add]

/-- The protocol id stands at bits 47:40 of `TXW` (R88). -/
theorem packTx_protocolId (t : TxRequest) : (packTx t).toNat / 2 ^ 40 % 2 ^ 8 = t.protocolId.toNat := by
  rw [packTx_toNat]
  have hcode := t.code.isLt
  have hlen := t.bitLength.isLt
  have hid := t.protocolId.isLt
  omega

theorem defaultProto_in_table {c : Config} (h : c.DefaultsOk) (b : Band) :
    1 ≤ (c.defaultProto.get b).toNat ∧ (c.defaultProto.get b).toNat ≤ c.pt.length := by
  cases b
  · exact ⟨h.b433_ge, h.b433_le⟩
  · exact ⟨h.b315_ge, h.b315_le⟩

/-- The entry of id `k + 1` stands at index `k` of the list (R43). -/
theorem protocolAt_of_succ (c : Config) {p : BitVec 8} {k : Nat} (hk : p.toNat = k + 1) :
    protocolAt c p = c.pt[k]? := by
  simp only [protocolAt, hk]

/-- In a well-formed table every id in `1..N` has its entry, and that entry carries the id (R6, R43). -/
theorem protocolAt_of_tableOk {c : Config} {p : BitVec 8} (h : c.TableOk) (hge : 1 ≤ p.toNat)
    (hle : p.toNat ≤ c.pt.length) : ∃ P, protocolAt c p = some P ∧ P ∈ c.pt ∧ P.id = p := by
  obtain ⟨k, hk⟩ : ∃ k, p.toNat = k + 1 := ⟨p.toNat - 1, by omega⟩
  have hlt : k < c.pt.length := by omega
  have hP : c.pt[k]? = some c.pt[k] := List.getElem?_eq_getElem hlt
  have hid : c.pt[k].id.toNat = p.toNat := (h.ids k _ hP).trans hk.symm
  exact ⟨c.pt[k], (protocolAt_of_succ c hk).trans hP, List.getElem_mem hlt, BitVec.eq_of_toNat_eq hid⟩

theorem trainOf_of_protocolAt {c : Config} {t : TxRequest} {P : Protocol} (h : protocolAt c t.protocolId = some P) :
    trainOf c t = train t.code t.bitLength.toNat P t.unitDelayUs.toNat t.repeatCount.toNat := by
  rw [trainOf, h]

/-- The train of a request that `MakeTx` builds: the address as 24 bits, the default repeat count (R171, R173). -/
theorem trainOf_makeTx {c : Config} {p : BitVec 8} {P : Protocol} (address : BitVec 24) (band : Band)
    (unit : BitVec 16) (h : protocolAt c p = some P) :
    trainOf c (makeTx c address band p unit) =
      train (BitVec.ofNat 32 address.toNat) 24 P unit.toNat c.defaultRepeat.toNat := by
  rw [trainOf_of_protocolAt (t := makeTx c address band p unit) h, BitVec.ofNat_toNat]
  rfl

theorem exec_sendr (address : BitVec 24) (key : BitVec 8) (band : Band) (s : State) :
    exec (.sendr address key band) s =
      .next (sendTx (makeTx s.cfg address band (s.cfg.defaultProto.get band) (s.cfg.defaultUnit.get band)) s) := rfl

@[simp] theorem sendTx_cmdOut (t : TxRequest) (s : State) : (sendTx t s).ports.cmdOut = some (txResponse t) := rfl

/-- Settles O53: a legal configuration has an entry for the band's default protocol, with that id (R6). -/
theorem sendrDefaultIsATableProtocol : Obligations.SendrDefaultIsATableProtocol := by
  intro s address key band hlegal
  obtain ⟨hge, hle⟩ := defaultProto_in_table hlegal.defaults band
  obtain ⟨P, hat, hmem, hid⟩ := protocolAt_of_tableOk hlegal.table hge hle
  refine ⟨_, _, P, exec_sendr address key band s, sendTx_cmdOut _ s, rfl, hmem, ?_,
    trainOf_makeTx address band (s.cfg.defaultUnit.get band) hat⟩
  rw [hid]
  exact packTx_protocolId _

end Sys2Proof.Machine
end

section
/-! PROOFS. Illegal transactions: the causes of R93 read off the words are the ones the decoder tests, and the step that takes one. -/

namespace Sys2Proof

/-- `op` as a number (R83). -/
theorem opField_toNat (cw : BitVec 16) : (opField cw).toNat = cw.toNat / 256 := by
  rw [opField, toNat_extract]
  have := cw.isLt
  omega

/-- `arg` as a number (R83). -/
theorem argField_toNat (cw : BitVec 16) : (argField cw).toNat = cw.toNat % 256 := by
  rw [argField, toNat_extract]
  omega

theorem sigReserved_eq_zero_iff (w : BitVec 64) : sigReserved w = 0 ↔ w.toNat / 2 ^ 58 = 0 := by
  rw [← BitVec.toNat_inj, sigReserved, toNat_extract]
  have := w.isLt
  change _ = 0 ↔ _
  omega

theorem sigNameValid_eq_true_iff (w : BitVec 64) : sigNameValid w = true ↔ w.toNat / 2 ^ 57 % 2 = 1 := by
  rw [sigNameValid, beq_iff_eq, ← BitVec.toNat_inj, toNat_extract]
  rfl

/-- The upper seven bits of `arg` (R84). -/
theorem pollArg_eq_zero_iff (arg : BitVec 8) : arg.extractLsb' 1 7 = 0 ↔ arg.toNat / 2 = 0 := by
  rw [← BitVec.toNat_inj, toNat_extract]
  have := arg.isLt
  change _ = 0 ↔ _
  omega

namespace Opcode

theorem mem_all (op : Opcode) : op ∈ all := by cases op <;> decide

/-- An `op` field names no command exactly when it is no command's code (R93 (a)). -/
theorem ofCode_eq_none_iff {c : BitVec 8} : ofCode c = none ↔ c.toNat ∉ all.map fun op => op.code.toNat := by
  simp only [ofCode, List.find?_eq_none, beq_iff_eq, List.mem_map, not_exists, not_and, BitVec.toNat_inj]

/-- The commands whose `arg` is free, by their codes (R93 (b)). -/
theorem argMustBeZero_iff (op : Opcode) : op.argMustBeZero = true ↔ op.code.toNat ∉ [0x02, 0x03, 0x04, 0x12] := by
  cases op <;> decide

theorem eq_poll_iff (op : Opcode) : op = .poll ↔ op.code.toNat = 0x12 := by
  cases op <;> decide

theorem eq_append_iff (op : Opcode) : op = .append ↔ op.code.toNat = 0x01 := by
  cases op <;> decide

/-- The commands that use `sigw`, by their codes (R93 (d)). -/
theorem usesSigw_iff (op : Opcode) : op.usesSigw = true ↔ op.code.toNat ∈ [0x01, 0x13, 0x14] := by
  cases op <;> decide

theorem mem_rename_find_iff (op : Opcode) : op = .rename ∨ op = .find ↔ op.code.toNat ∈ [0x04, 0x05] := by
  cases op <;> decide

/-- The commands that use the name operand, by their codes (R93 (e)). -/
theorem usesName_iff (op : Opcode) (w : BitVec 64) :
    op.usesName w = true ↔ op.code.toNat ∈ [0x04, 0x05] ∨ (op.code.toNat = 0x01 ∧ w.toNat / 2 ^ 57 % 2 = 1) := by
  rw [← mem_rename_find_iff, ← eq_append_iff, ← sigNameValid_eq_true_iff]
  cases op <;> simp [usesName]

end Opcode

/-- A transaction of a known command is legal exactly when each of the tests (b) to (e) passes (R93). -/
theorem illegalCause_eq_none_iff {nameMax : Nat} {op : Opcode} {t : Transaction} :
    illegalCause nameMax op t = none ↔
      ¬ ((op.argMustBeZero = true ∧ argField t.cw ≠ 0) ∨
        (op = .poll ∧ (argField t.cw).extractLsb' 1 7 ≠ 0) ∨
        (op.usesSigw = true ∧ sigReserved t.sigw ≠ 0) ∨
        (op.usesName t.sigw = true ∧ nameMax < t.nlen.toNat)) := by
  -- a test that fires answers `some` cause, so `none` leaves each `if` by its `else`
  simp [illegalCause, ite_eq_iff]

/-- The decoder rejects a transaction exactly when it has no command, or the command has a cause (R93, R94). -/
theorem decodeCommand_eq_error_iff {nameMax : Nat} {t : Transaction} :
    (∃ e, decodeCommand nameMax t = .error e) ↔
      Opcode.ofCode (opField t.cw) = none ∨
        ∃ op, Opcode.ofCode (opField t.cw) = some op ∧ illegalCause nameMax op t ≠ none := by
  unfold decodeCommand
  cases hop : Opcode.ofCode (opField t.cw) with
  | none => simp
  | some op => cases hcause : illegalCause nameMax op t <;> simp [hcause]

namespace Machine

/-- (a), read off the command word. -/
theorem illegalTransaction_of_unknown {nameMax : Nat} {t : Transaction} (h : Opcode.ofCode (opField t.cw) = none) :
    IllegalTransaction nameMax t := by
  rw [Opcode.ofCode_eq_none_iff, opField_toNat] at h
  exact .inl h

/-- (b) to (e), read off the words of a known command. -/
theorem illegalTransaction_iff_of_known {nameMax : Nat} {t : Transaction} {op : Opcode}
    (h : Opcode.ofCode (opField t.cw) = some op) :
    IllegalTransaction nameMax t ↔ illegalCause nameMax op t ≠ none := by
  have hcode : op.code.toNat = t.cw.toNat / 256 := by rw [Opcode.ofCode_eq_some h, opField_toNat]
  have hknown : t.cw.toNat / 256 ∈ Opcode.all.map fun o => o.code.toNat :=
    List.mem_map.mpr ⟨op, op.mem_all, hcode⟩
  have harg : argField t.cw = 0 ↔ t.cw.toNat % 256 = 0 := by
    rw [← BitVec.toNat_inj, argField_toNat]
    rfl
  rw [ne_eq, illegalCause_eq_none_iff, not_not, op.argMustBeZero_iff, op.eq_poll_iff, op.usesSigw_iff,
    op.usesName_iff, hcode, ne_eq, harg, ne_eq, pollArg_eq_zero_iff, argField_toNat, ne_eq, sigReserved_eq_zero_iff]
  exact or_iff_right (not_not_intro hknown)

/-- The decoder rejects exactly the illegal transactions (R93). -/
theorem decodeCommand_error_iff_illegal {nameMax : Nat} {t : Transaction} :
    (∃ e, decodeCommand nameMax t = .error e) ↔ IllegalTransaction nameMax t := by
  rw [decodeCommand_eq_error_iff]
  cases hop : Opcode.ofCode (opField t.cw) with
  | none => simp [illegalTransaction_of_unknown hop]
  | some op => simp [illegalTransaction_iff_of_known hop]

section taken

variable {s : State} {t : Transaction} {turns : List Port} {more : List Transaction}

/-- What the command agent's turn takes (R71, R72). -/
theorem fetch_command (hturn : s.ports.schedule = .command :: turns) (hreq : s.ports.cmdIn = t :: more) :
    fetch s = (some (.command t), { s with ports := { s.ports with schedule := turns, cmdIn := more } }) := by
  simp only [fetch, hturn, hreq]

theorem step_command_error {e : Illegal} (hturn : s.ports.schedule = .command :: turns)
    (hreq : s.ports.cmdIn = t :: more) (hdec : decodeCommand s.cfg.nameMax t = .error e) :
    step s = .next (answerIllegal { s with ports := { s.ports with schedule := turns, cmdIn := more } }) := by
  simp only [step, fetch_command hturn hreq, decode, hdec]

theorem step_command_ok {i : Instr} (hturn : s.ports.schedule = .command :: turns)
    (hreq : s.ports.cmdIn = t :: more) (hdec : decodeCommand s.cfg.nameMax t = .ok i) :
    step s = exec i { s with ports := { s.ports with schedule := turns, cmdIn := more } } := by
  simp only [step, fetch_command hturn hreq, decode, hdec]

end taken

/-- Settles O8: the decoder rejects exactly the illegal transactions, and the step answers a rejected one and executes
any other (R93, R244). -/
theorem illegalTransactionsAreAnsweredAndChangeNothing :
    Obligations.IllegalTransactionsAreAnsweredAndChangeNothing := by
  intro s t turns more hturn hreq
  cases hdec : decodeCommand s.cfg.nameMax t with
  | error e =>
    have hillegal : IllegalTransaction s.cfg.nameMax t := decodeCommand_error_iff_illegal.mp ⟨e, hdec⟩
    exact ⟨fun _ => step_command_error hturn hreq hdec, fun hlegal => absurd hillegal hlegal⟩
  | ok i =>
    have hlegal : ¬ IllegalTransaction s.cfg.nameMax t := fun hillegal => by
      obtain ⟨e, he⟩ := decodeCommand_error_iff_illegal.mpr hillegal
      rw [hdec] at he
      cases he
    exact ⟨fun hillegal => absurd hillegal hlegal, fun _ => ⟨i, step_command_ok hturn hreq hdec⟩⟩

end Machine

end Sys2Proof
end

section
/-! PROOFS. The decoders: what one sample leaves of the window, the repeat count and the handoff, and when a protocol and a table accept a window. -/

namespace Sys2Proof.Machine

/-! ### The decoder after a sample (R112 to R116) -/

theorem exec_feed (b : Band) (x : Duration) (s : State) : exec (.feed b x) s = .next (feed b x s) := rfl

theorem feed_dec_get (b : Band) (x : Duration) (s : State) :
    (feed b x s).dec.get b = feedDecoder s.cfg b (s.dec.get b) x := by
  obtain ⟨-, hdec, -⟩ := feed_fields b x s
  rw [hdec, PerBand.get_set_same]

theorem feedDecoder_of_gap {c : Config} {x : Duration} (h : c.separationLimitUs < x.toNat) (b : Band) (d : Decoder) :
    feedDecoder c b d x = gapStep c b d x :=
  if_pos (isGap_iff.mpr h)

theorem feedDecoder_of_data {c : Config} {x : Duration} (h : x.toNat ≤ c.separationLimitUs) (b : Band) (d : Decoder) :
    feedDecoder c b d x = dataStep c d x :=
  if_neg (mt isGap_iff.mp (Nat.not_lt.mpr h))

theorem timingAt_gapStep (c : Config) (b : Band) (d : Decoder) (x : Duration) (k : Nat) :
    timingAt b (gapStep c b d x) k = if k = 0 then x else timingAt b d k :=
  timingAt_write b d d.timing 0 k _ _ x rfl

theorem timingAt_dataStep (c : Config) (b : Band) (d : Decoder) (x : Duration) (k : Nat) :
    timingAt b (dataStep c d x) k = if k = d.cc then x else timingAt b d k :=
  timingAt_write b d d.timing d.cc k _ _ x rfl

section edge

variable {c : Config} {d : Decoder}

theorem dataStep_counts (h : d.cc + 1 ≠ c.cap) (x : Duration) :
    (dataStep c d x).cc = d.cc + 1 ∧ (dataStep c d x).rc = d.rc :=
  ⟨if_neg h, if_neg h⟩

theorem dataStep_abandons (h : d.cc + 1 = c.cap) (x : Duration) :
    (dataStep c d x).cc = 0 ∧ (dataStep c d x).rc = 0 :=
  ⟨if_pos h, if_pos h⟩

variable {b : Band} {x : Duration}

/-- The first gap counts, and does not close a frame (R113). -/
theorem gapRepeat_of_unsynced (h : d.rc = 0) : gapRepeat c b d x = 1 := by
  have hcounts : gapCounts c b d x = true := gapCounts_iff.mpr (.inl h)
  have hopen : ¬ gapCloses c b d x = true := fun hc => by
    obtain ⟨hone, _⟩ := gapCloses_iff.mp hc
    omega
  rw [gapRepeat, if_neg hopen, if_pos hcounts, h]

/-- A consistent second gap closes the frame (R114). -/
theorem gapRepeat_of_near (h : d.rc = 1) (hnear : Near c.syncMatchUs (timingAt b d 0).toNat x.toNat) :
    gapRepeat c b d x = 0 :=
  if_pos (gapCloses_iff.mpr ⟨h, hnear⟩)

/-- An inconsistent gap does not count (R113). -/
theorem gapRepeat_of_not_near (h : d.rc = 1) (hfar : ¬ Near c.syncMatchUs (timingAt b d 0).toNat x.toNat) :
    gapRepeat c b d x = 1 := by
  have hopen : ¬ gapCloses c b d x = true := fun hc => hfar (gapCloses_iff.mp hc).2
  have hcounts : ¬ gapCounts c b d x = true := fun hc => by
    rcases gapCounts_iff.mp hc with hzero | hnear
    · omega
    · exact hfar hnear
  rw [gapRepeat, if_neg hopen, if_neg hcounts, h]

end edge

/-! ### The result of a sample and its delivery (R117, R118) -/

/-- A sample has a result exactly when it is a second consistent gap and the window before it matches (R114, R117). -/
theorem feedResult_eq_some_iff {c : Config} {b : Band} {d : Decoder} {x : Duration} {r : DecodeResult} :
    feedResult c b d x = some r ↔
      c.separationLimitUs < x.toNat ∧ d.rc = 1 ∧ Near c.syncMatchUs (timingAt b d 0).toNat x.toNat ∧
        matchAll c (window b d) = some r := by
  simp [feedResult, isGap_iff, gapCloses_iff, and_assoc]

/-- One reason is enough for a sample to have no result (R117). -/
theorem feedResult_eq_none {c : Config} {b : Band} {d : Decoder} {x : Duration}
    (h : x.toNat ≤ c.separationLimitUs ∨ d.rc = 0 ∨ ¬ Near c.syncMatchUs (timingAt b d 0).toNat x.toNat ∨
      matchAll c (window b d) = none) : feedResult c b d x = none := by
  rw [Option.eq_none_iff_forall_ne_some]
  intro r hr
  obtain ⟨hgap, hrc, hnear, hmatch⟩ := feedResult_eq_some_iff.mp hr
  rcases h with hdata | hzero | hfar | hnone
  · omega
  · omega
  · exact hfar hnear
  · rw [hnone] at hmatch
    cases hmatch

theorem feed_delivers {b : Band} {x : Duration} {s : State} {r : DecodeResult}
    (h : feedResult s.cfg b (s.dec.get b) x = some r) :
    (feed b x s).hand.get b = { rdy := true, shadow := r } ∧
      (feed b x s).ports.edgeOut.get b = some { valid := true, resw := packResult r } := by
  obtain ⟨-, -, hhand, -, -, hports⟩ := feed_fields b x s
  rw [hhand, hports, h]
  exact ⟨PerBand.get_set_same _ b _, PerBand.get_set_same _ b _⟩

theorem feed_delivers_nothing {b : Band} {x : Duration} {s : State}
    (h : feedResult s.cfg b (s.dec.get b) x = none) :
    (feed b x s).hand.get b = s.hand.get b ∧
      (feed b x s).ports.edgeOut.get b = some { valid := false, resw := 0 } := by
  obtain ⟨-, -, hhand, -, -, hports⟩ := feed_fields b x s
  rw [hhand, hports, h]
  exact ⟨rfl, PerBand.get_set_same _ b _⟩

/-- Settles O14: a data edge is the decoder's `dataStep`, and it has no result (R112, R116, R117). -/
theorem dataEdgeIsAppendedOrAbandonsTheWindow : Obligations.DataEdgeIsAppendedOrAbandonsTheWindow := by
  intro s b x hdata
  have hdec : (feed b x s).dec.get b = dataStep s.cfg (s.dec.get b) x := by
    rw [feed_dec_get, feedDecoder_of_data hdata]
  obtain ⟨hhand, hout⟩ := feed_delivers_nothing (feedResult_eq_none (b := b) (d := s.dec.get b) (.inl hdata))
  refine ⟨_, exec_feed b x s, ?_, ?_, ?_, Decoder.Inv.cc_lt, hhand, hout, feed_frame b x s⟩ <;> rw [hdec]
  · exact timingAt_dataStep s.cfg b (s.dec.get b) x
  · exact fun hroom => dataStep_counts hroom x
  · exact fun hfull => dataStep_abandons hfull x

/-- Settles O15: a gap is the decoder's `gapStep`, whatever its repeat count (R112 to R115). -/
theorem gapCountsAndRestartsTheWindow : Obligations.GapCountsAndRestartsTheWindow := by
  intro s b x hgap
  have hdec : (feed b x s).dec.get b = gapStep s.cfg b (s.dec.get b) x := by
    rw [feed_dec_get, feedDecoder_of_gap hgap]
  refine ⟨_, exec_feed b x s, ?_, ?_, ?_, ?_, ?_, feed_frame b x s⟩ <;> rw [hdec]
  · exact timingAt_gapStep s.cfg b (s.dec.get b) x
  · rfl
  · exact gapRepeat_of_unsynced
  · exact gapRepeat_of_near
  · exact gapRepeat_of_not_near

/-- Settles O16: the result of a sample decides what is delivered, and only a closing gap has one (R114, R117, R118). -/
theorem closingGapDeliversTheMatch : Obligations.ClosingGapDeliversTheMatch := by
  intro s b x
  refine ⟨_, exec_feed b x s, feed_frame b x s, ?_, ?_⟩
  · intro r hgap hrc hnear hmatch
    exact feed_delivers (feedResult_eq_some_iff.mpr ⟨hgap, hrc, hnear, hmatch⟩)
  · intro _ hnone
    exact feed_delivers_nothing (feedResult_eq_none hnone)

/-! ### The table (R119) -/

/-- In a well-formed table the result of the entry at index `k` carries the id `k + 1` (R43, R125). -/
theorem tryMatch_protocolId {c : Config} {w : List Duration} {k : Nat} {P : Protocol} {r : DecodeResult}
    (htable : c.TableOk) (hP : c.pt[k]? = some P) (hr : tryMatch c w P = some r) : r.protocolId.toNat = k + 1 := by
  obtain ⟨_, hid, _⟩ := tryMatch_props hr
  rw [hid]
  exact htable.ids k P hP

/-- Settles O17: `MatchAll` is the first result along the table (R119). -/
theorem lowestAcceptingProtocolWins : Obligations.LowestAcceptingProtocolWins := by
  constructor
  · intro c w r
    rw [matchAll, findSome_first]
    constructor
    · rintro ⟨k, P, hP, hr, hbefore⟩
      exact ⟨k, P, hP, hr, fun htable => tryMatch_protocolId htable hP hr, hbefore⟩
    · rintro ⟨k, P, hP, hr, _, hbefore⟩
      exact ⟨k, P, hP, hr, hbefore⟩
  · intro c w
    exact List.findSome?_eq_none_iff

/-! ### One protocol (R120 to R126) -/

/-- What a protocol answers for the bits it has read (R124, R125). -/
def matchResult (P : Protocol) (ud : Nat) (bits : List Bool) : DecodeResult where
  code := codeOf bits
  bitLength := BitVec.ofNat 8 bits.length
  protocolId := P.id
  unitDelayUs := BitVec.ofNat 16 ud

/-- A protocol accepts a window exactly when the estimate `ud` is a unit, every pair is a symbol, and there are enough
of them (R120, R123, R125). -/
theorem tryMatch_cons_eq_some_iff {c : Config} {P : Protocol} {gap : Duration} {rest : List Duration} {ud : Nat}
    {r : DecodeResult} (hud : gap.toNat / syncPulses P = ud) :
    tryMatch c (gap :: rest) P = some r ↔
      syncPulses P ≠ 0 ∧ ud ≤ 0xFFFF ∧ ∃ bits,
        classifyAll P ud (tolerance c ud) (pairsOf ((gap :: rest).drop (firstData P))) = some bits ∧
        c.minPairs < bits.length ∧ r = matchResult P ud bits := by
  simp only [tryMatch, hud]
  by_cases hsp : syncPulses P = 0
  · simp [hsp]
  by_cases hlong : 0xFFFF < ud
  · simp [hsp, hlong, Nat.not_le.mpr hlong]
  rw [if_neg hsp, if_neg hlong]
  cases classifyAll P ud (tolerance c ud) (pairsOf ((gap :: rest).drop (firstData P))) with
  | none => simp
  | some bits => simp [hsp, Nat.not_lt.mp hlong, matchResult, eq_comm]

/-- A result by its fields, as numbers (R124, R125). -/
theorem eq_matchResult_iff {P : Protocol} {ud : Nat} (hud : ud ≤ 0xFFFF) {bits : List Bool} {r : DecodeResult} :
    r = matchResult P ud bits ↔
      r.code.toNat = bits.foldl (fun v bit => 2 * v + bit.toNat) 0 % 2 ^ 32 ∧
      r.bitLength.toNat = bits.length % 256 ∧ r.protocolId = P.id ∧ r.unitDelayUs.toNat = ud := by
  have hunit : ud % 65536 = ud := Nat.mod_eq_of_lt (by omega)
  rw [← codeOf_toNat]
  cases r
  simp [matchResult, ← BitVec.toNat_inj, hunit]

/-- A pair gives the bit that stands at `k`: zero if it fits zero, one if it fits one only (R123). -/
theorem classify_eq_getElem?_iff {P : Protocol} {ud tol : Nat} {pair : Duration × Duration} {bits : List Bool} {k : Nat}
    (hk : k < bits.length) :
    classify P ud tol pair = bits[k]? ↔
      (PairNear ud tol P.zero pair.1.toNat pair.2.toNat ∧ bits[k]? = some false) ∨
      (¬ PairNear ud tol P.zero pair.1.toNat pair.2.toNat ∧ PairNear ud tol P.one pair.1.toNat pair.2.toNat ∧
        bits[k]? = some true) := by
  rw [List.getElem?_eq_getElem hk]
  cases bits[k] with
  | false => simp [classify_eq_zero]
  | true => simp [classify_eq_one]

/-- The bits of a list of durations, pair by pair (R122, R123). -/
theorem classifyAll_pairsOf_eq_some_iff {P : Protocol} {ud tol : Nat} {xs : List Duration} {bits : List Bool} :
    classifyAll P ud tol (pairsOf xs) = some bits ↔
      bits.length = xs.length / 2 ∧
        ∀ k, k < bits.length → classify P ud tol (xs.getD (2 * k) 0, xs.getD (2 * k + 1) 0) = bits[k]? := by
  rw [classifyAll_eq_some, pairsOf_length]
  refine and_congr_right fun hlen => forall_congr' fun k => ⟨fun h hk => ?_, fun h pair hpair => ?_⟩
  · exact h _ (pairsOf_getElem? xs k (hlen ▸ hk))
  · have hk : k < xs.length / 2 := pairsOf_length xs ▸ (List.getElem?_eq_some_iff.mp hpair).1
    rw [pairsOf_getElem? xs k hk, Option.some.injEq] at hpair
    rw [← hpair]
    exact h (hlen ▸ hk)

/-- Settles O18: the matcher's acceptance, its bits pair by pair and its result field by field (R120 to R126). -/
theorem protocolMatchIsTheSpecs : Obligations.ProtocolMatchIsTheSpecs := by
  intro c P gap rest r
  dsimp only
  rw [tryMatch_cons_eq_some_iff rfl]
  refine and_congr_right fun _ => and_congr_right fun hud => exists_congr fun bits => ?_
  rw [classifyAll_pairsOf_eq_some_iff, eq_matchResult_iff hud, List.length_drop, and_assoc]
  refine and_congr_right fun _ => ?_
  rw [and_left_comm]
  refine and_congr_right fun _ => and_congr_left fun _ => forall₂_congr fun k hk => ?_
  -- the pairs of the data are entries of the window, counted from the first data index
  simp only [List.getD_eq_getElem?_getD, List.getElem?_drop, Nat.add_assoc]
  exact classify_eq_getElem?_iff hk

end Sys2Proof.Machine
end

section
/-! PROOFS. The matcher on ideal stimulus: the boundary of a pair's tolerance, and the window of an ideal train. -/

namespace Sys2Proof.Machine

/-! ### The tolerance boundary (R123, R157) -/

section boundary

variable {tol e a : Nat}

theorem near_of_eq_add (h : a = e + tol) : Near tol e a := ⟨by omega, by omega⟩

theorem near_of_add_eq (h : a + tol = e) : Near tol e a := ⟨by omega, by omega⟩

theorem not_near_of_eq_add (h : a = e + (tol + 1)) : ¬ Near tol e a := fun ⟨hle, _⟩ => by omega

theorem not_near_of_add_eq (h : a + (tol + 1) = e) : ¬ Near tol e a := fun ⟨_, hge⟩ => by omega

end boundary

/-- Settles O19: a pair fits exactly when both elements are near, and `Near` is inclusive on either side (R123, R157). -/
theorem toleranceBoundaryIsInclusive : Obligations.ToleranceBoundaryIsInclusive := by
  intro ud tol r a c
  refine ⟨fun hlow => ⟨fun h => ?_, fun h => ?_⟩, fun hhigh => ⟨fun h => ?_, fun h => ?_⟩, fun hfar => ?_⟩
  · exact fits_iff.mpr ⟨near_of_eq_add h, hlow⟩
  · exact fits_iff.mpr ⟨near_of_add_eq h, hlow⟩
  · exact fits_iff.mpr ⟨hhigh, near_of_eq_add h⟩
  · exact fits_iff.mpr ⟨hhigh, near_of_add_eq h⟩
  · rw [Bool.eq_false_iff, ne_eq, fits_iff]
    rintro ⟨hhigh, hlow⟩
    rcases hfar with h | h | h | h
    · exact not_near_of_eq_add h hhigh
    · exact not_near_of_add_eq h hhigh
    · exact not_near_of_eq_add h hlow
    · exact not_near_of_add_eq h hlow

/-! ### Ideal windows (R155, R156) -/

/-- An ideal gap fits 32 bits: its ratio is one of the sync pair's. -/
theorem syncGap_toNat {unit : Nat} (hunit : unit ≤ 0xFFFF) (P : Protocol) :
    (BitVec.ofNat 32 (unit * syncPulses P)).toNat = unit * syncPulses P := by
  rw [syncPulses]
  rcases max_choice P.sync.low.toNat P.sync.high.toNat with hlong | hlong <;> rw [hlong]
  · exact symbol_small unit hunit P.sync.low
  · exact symbol_small unit hunit P.sync.high

/-- The data of a window begins behind the gap and the entry that an inverted protocol skips (R121). -/
theorem drop_firstData {P : Protocol} {skipped : List Duration}
    (hskipped : skipped.length = if P.inverted then 1 else 0) (gap : Duration) (rest : List Duration) :
    (gap :: (skipped ++ rest)).drop (firstData P) = rest := by
  have hfirst : firstData P = (gap :: skipped).length := by
    rw [List.length_cons, hskipped, firstData]
    split <;> rfl
  rw [hfirst, ← List.cons_append, List.drop_left]

/-- Settles O22: the gap gives back the unit, and each pair of the data its bit (R120, R123, R124). -/
theorem idealWindowIsRecovered : Obligations.IdealWindowIsRecovered := by
  intro c P unit L code skipped tail hsync hunit hmin _ hcode hapart hskipped htail
  have hud : (BitVec.ofNat 32 (unit * syncPulses P)).toNat / syncPulses P = unit := by
    rw [syncGap_toNat hunit, Nat.mul_div_cancel _ (Nat.pos_of_ne_zero hsync)]
  have hbits : (bitsMsbFirst code L).length = L := bitsMsbFirst_length code L
  refine (tryMatch_cons_eq_some_iff hud).mpr ⟨hsync, hunit, bitsMsbFirst code L, ?_, hbits.symm ▸ hmin, ?_⟩
  · rw [List.append_assoc, drop_firstData hskipped, dataDurations, pairsOf_symbols P unit _ tail htail]
    exact classifyAll_ideal c P unit hunit hapart _
  · rw [matchResult, codeOf_bitsMsbFirst hcode, hbits]

end Sys2Proof.Machine
end

section
/-! PROOFS. The trains of the Encoder: a train is the pairs of its ratios, one after the other (R151 to R154). -/

namespace Sys2Proof.Machine

/-- The ratio pairs of a train, in the order they are sent (R152). -/
def trainRatios (code : BitVec 32) (L : Nat) (P : Protocol) (reps : Nat) : List Ratio :=
  (List.replicate reps (P.sync :: (bitsMsbFirst code L).map (symbol P) ++ [P.sync])).flatten

theorem trainRatios_length (code : BitVec 32) (L : Nat) (P : Protocol) (reps : Nat) :
    (trainRatios code L P reps).length = reps * (L + 2) := by
  simp [trainRatios, bitsMsbFirst_length]

/-- A ratio pair of a train is that of the sync or of a bit. -/
theorem mem_trainRatios {code : BitVec 32} {L : Nat} {P : Protocol} {reps : Nat} {r : Ratio}
    (h : r ∈ trainRatios code L P reps) : r = P.sync ∨ ∃ bit, r = symbol P bit := by
  obtain ⟨rs, hrs, hr⟩ := List.mem_flatten.mp h
  rw [List.eq_of_mem_replicate hrs] at hr
  simp only [List.cons_append, List.mem_cons, List.mem_append, List.mem_map, List.not_mem_nil, or_false] at hr
  rcases hr with hsync | ⟨bit, -, hbit⟩ | hsync
  · exact .inl hsync
  · exact .inr ⟨bit, hbit.symm⟩
  · exact .inl hsync

theorem train_eq_flatMap (code : BitVec 32) (L : Nat) (P : Protocol) (unit reps : Nat) :
    train code L P unit reps = (trainRatios code L P reps).flatMap (pulsePair P unit) := by
  simp [train, frame, trainRatios, List.flatMap_def, List.flatten_flatten, Function.comp_def]

/-- A pair is a segment of each level (R151). -/
theorem exists_pulsePair (P : Protocol) (unit : Nat) :
    ∃ first second : Level, first ≠ second ∧
      ∀ r, pulsePair P unit r = [⟨first, unit * r.high.toNat⟩, ⟨second, unit * r.low.toNat⟩] := by
  cases hinv : P.inverted
  · exact ⟨.active, .inactive, nofun, fun r => by simp [pulsePair, hinv]⟩
  · exact ⟨.inactive, .active, nofun, fun r => by simp [pulsePair, hinv]⟩

theorem pulsePairs_length (P : Protocol) (unit : Nat) (rs : List Ratio) :
    (rs.flatMap (pulsePair P unit)).length = 2 * rs.length := by
  obtain ⟨_, _, _, hpair⟩ := exists_pulsePair P unit
  simp [hpair, List.length_flatMap, Nat.mul_comm]

/-- Pairs that follow one another alternate: every one begins with the same level and ends with the other. -/
theorem pulsePairs_alternate (P : Protocol) (unit : Nat) (rs : List Ratio) :
    (rs.flatMap (pulsePair P unit)).IsChain (fun x y => x.level ≠ y.level) := by
  obtain ⟨_, _, hne, hpair⟩ := exists_pulsePair P unit
  induction rs with
  | nil => simp
  | cons r rest ih =>
    cases rest with
    | nil => simp [hpair, hne]
    | cons r' rest =>
      simp only [List.flatMap_cons, hpair, List.cons_append, List.nil_append, List.isChain_cons_cons] at ih ⊢
      exact ⟨hne, hne.symm, ih⟩

/-- The durations of a train are its ratios' parts, whatever the levels (R154). -/
theorem durations_eq_flatMap (code : BitVec 32) (L : Nat) (P : Protocol) (unit reps : Nat) :
    durations code L P unit reps =
      (trainRatios code L P reps).flatMap fun r => [unit * r.high.toNat, unit * r.low.toNat] := by
  obtain ⟨_, _, _, hpair⟩ := exists_pulsePair P unit
  rw [durations, train_eq_flatMap, List.map_flatMap]
  simp [hpair]

/-- Settles O24: a train is the pairs of its `reps * (L + 2)` ratios, which the inversion does not touch (R151 to R154). -/
theorem trainsAlternateAndHaveTheirLength : Obligations.TrainsAlternateAndHaveTheirLength := by
  intro code L P unit reps
  refine ⟨?_, ?_, ?_⟩
  · rw [train_eq_flatMap, pulsePairs_length, trainRatios_length, Nat.mul_assoc]
  · intro k x y hx hy
    obtain ⟨_, hx⟩ := List.getElem?_eq_some_iff.mp hx
    obtain ⟨hk, hy⟩ := List.getElem?_eq_some_iff.mp hy
    have halternate := pulsePairs_alternate P unit (trainRatios code L P reps)
    rw [← train_eq_flatMap, List.isChain_iff_getElem] at halternate
    exact hx ▸ hy ▸ halternate k hk
  · rw [durations_eq_flatMap, durations_eq_flatMap]
    rfl

end Sys2Proof.Machine
end

section
/-! PROOFS. Ideal trains fed to a decoder: what a run of samples can answer, the window of a repetition and its match, and what a train answers and leaves behind. -/

namespace Sys2Proof.Machine

/-! ### Runs of samples (R46, R117, R130) -/

theorem EdgeFrame.refl (b : Band) (s : State) : EdgeFrame b s s :=
  ⟨rfl, fun _ _ => rfl, fun _ _ => rfl, rfl, rfl, rfl, rfl, rfl, fun _ _ => rfl, rfl⟩

/-- A run of samples completes, and leaves the other agents alone. -/
theorem execAll_feeds_frame (b : Band) (ds : List Nat) (s : State) :
    ∃ t, execAll (feeds b ds) s = .next t ∧ EdgeFrame b s t := by
  induction ds generalizing s with
  | nil => exact ⟨s, rfl, EdgeFrame.refl b s⟩
  | cons d ds ih =>
    obtain ⟨t, hrun, hframe⟩ := ih (feed b (BitVec.ofNat 32 d) s)
    exact ⟨t, hrun, (feed_frame b _ s).trans hframe⟩

/-- The last sample of a run is a `FEED` at the state that the others leave. -/
theorem execAll_feeds_concat {b : Band} {ds : List Nat} {d : Nat} {s t : State}
    (h : execAll (feeds b (ds ++ [d])) s = .next t) :
    ∃ u, EdgeFrame b s u ∧ t = feed b (BitVec.ofNat 32 d) u := by
  obtain ⟨u, hrun, hframe⟩ := execAll_feeds_frame b ds s
  have hlast : execAll (feeds b [d]) u = .next (feed b (BitVec.ofNat 32 d) u) := rfl
  rw [execAll_feeds_append hrun hlast] at h
  cases h
  exact ⟨u, hframe, rfl⟩

/-- The response to a run's last sample stands at the port after the run. -/
theorem FeedAnswers.last {s t : State} {b : Band} {ds : List Nat} {n : Nat} {r : Option DecodeResult}
    (h : FeedAnswers s b ds n r) (hlast : n + 1 = ds.length) (hrun : execAll (feeds b ds) s = .next t) :
    t.ports.edgeOut.get b = some (edgeResponse r) := by
  obtain ⟨-, u, hu, hout⟩ := h
  rw [hlast, List.take_length, hrun] at hu
  cases hu
  exact hout

/-- A run that ends in a gap leaves the window that the gap opens (R115). -/
theorem cc_after_gap {b : Band} {ds : List Nat} {d : Nat} {s t : State}
    (h : execAll (feeds b (ds ++ [d])) s = .next t) (hgap : s.cfg.separationLimitUs < (BitVec.ofNat 32 d).toNat) :
    (t.dec.get b).cc = 1 := by
  obtain ⟨u, hframe, rfl⟩ := execAll_feeds_concat h
  rw [feed_dec_get, feedDecoder_of_gap (hframe.cfg ▸ hgap)]
  rfl

/-- A result answers a duration that is a gap, and is the table's match of some window (R114, R117). -/
theorem FeedAnswers.of_some {s : State} {b : Band} {ds : List Nat} {n : Nat} {r : DecodeResult}
    (h : FeedAnswers s b ds n (some r)) :
    (∃ d ∈ ds, s.cfg.separationLimitUs < (BitVec.ofNat 32 d).toNat) ∧ ∃ w, matchAll s.cfg w = some r := by
  obtain ⟨hn, t, hrun, hout⟩ := h
  rw [List.take_succ_eq_append_getElem hn] at hrun
  obtain ⟨u, hframe, rfl⟩ := execAll_feeds_concat hrun
  obtain ⟨-, -, -, -, -, hports⟩ := feed_fields b (BitVec.ofNat 32 ds[n]) u
  rw [hports, PerBand.get_set_same, Option.some.injEq] at hout
  obtain ⟨hgap, -, -, hmatch⟩ := feedResult_eq_some_iff.mp (edgeResponse_inj hout)
  rw [hframe.cfg] at hgap hmatch
  exact ⟨⟨_, List.getElem_mem hn, hgap⟩, _, hmatch⟩

/-! ### The window of a repetition (R155) -/

theorem syncPulses_eq_max (P : Protocol) : syncPulses P = max (longSync P) (shortSync P) := by
  cases hinv : P.inverted
  · simp [syncPulses, longSync, shortSync, hinv]
  · simp [syncPulses, longSync, shortSync, hinv, max_comm]

/-- Where the trains fit, the long part of the sync is the longer one. -/
theorem TrainFits.syncPulses_eq {c : Config} {P : Protocol} {unit : BitVec 16} {L : Nat} (h : TrainFits c P unit L) :
    syncPulses P = longSync P := by
  have hlt : shortSync P < longSync P := Nat.lt_of_mul_lt_mul_left (Nat.lt_of_le_of_lt h.short h.gap)
  rw [syncPulses_eq_max, max_eq_left hlt.le]

theorem TrainFits.syncPulses_ne_zero {c : Config} {P : Protocol} {unit : BitVec 16} {L : Nat}
    (h : TrainFits c P unit L) : syncPulses P ≠ 0 := by
  intro hzero
  have hgap := h.gap
  rw [← h.syncPulses_eq, hzero, Nat.mul_zero] at hgap
  exact Nat.not_lt_zero _ hgap

/-- An ideal window in the form of the matcher's statement: the short part of the sync is the entry that is skipped or
the one that is left over. -/
theorem idealWindow_eq (code : BitVec 32) (L : Nat) (P : Protocol) (unit : BitVec 16) :
    ∃ skipped tail : List Duration,
      skipped.length = (if P.inverted then 1 else 0) ∧ tail.length ≤ 1 ∧
      idealWindow code L P unit = BitVec.ofNat 32 (unit.toNat * longSync P) ::
        (skipped ++ dataDurations code L P unit.toNat ++ tail) := by
  cases hinv : P.inverted
  · exact ⟨[], [BitVec.ofNat 32 (unit.toNat * shortSync P)], rfl, le_refl 1, by simp [idealWindow, hinv]⟩
  · exact ⟨[BitVec.ofNat 32 (unit.toNat * shortSync P)], [], rfl, Nat.zero_le 1, by simp [idealWindow, hinv]⟩

section ideal

variable {c : Config} {P : Protocol} {unit : BitVec 16} {L : Nat} {code : BitVec 32}

/-- A protocol accepts its own ideal window (R155, R156). -/
theorem tryMatch_idealWindow (hfits : TrainFits c P unit L) (hmin : c.minPairs < L) (hL : L ≤ 32)
    (hcode : code.toNat < 2 ^ L) (hapart : SymbolsApart c P unit.toNat) :
    tryMatch c (idealWindow code L P unit) P = some (idealResult code L P unit) := by
  obtain ⟨skipped, tail, hskipped, htail, hwindow⟩ := idealWindow_eq code L P unit
  have hunit : unit.toNat ≤ 0xFFFF := by
    have := unit.isLt
    omega
  rw [hwindow, ← hfits.syncPulses_eq, idealWindowIsRecovered c P unit.toNat L code skipped tail
    hfits.syncPulses_ne_zero hunit hmin hL hcode hapart hskipped htail, BitVec.ofNat_toNat, BitVec.setWidth_eq]
  rfl

/-- So the table answers it, where no lower id accepts it first (R119). -/
theorem matchAll_idealWindow {k : Nat} (hP : c.pt[k]? = some P) (hfits : TrainFits c P unit L)
    (hmin : c.minPairs < L) (hL : L ≤ 32) (hcode : code.toNat < 2 ^ L) (hapart : SymbolsApart c P unit.toNat)
    (hbefore : ∀ j Q, j < k → c.pt[j]? = some Q → tryMatch c (idealWindow code L P unit) Q = none) :
    matchAll c (idealWindow code L P unit) = some (idealResult code L P unit) :=
  (findSome_first _ _ _).mpr ⟨k, P, hP, tryMatch_idealWindow hfits hmin hL hcode hapart, hbefore⟩

end ideal

/-! ### Trains (R152, R154, R155) -/

/-- What an ideal train answers, and what it leaves behind: the last match pending, or what was pending before if there
is no repetition. -/
theorem exec_train {b : Band} {P : Protocol} {unit : BitVec 16} {L : Nat} (code : BitVec 32) (reps : Nat)
    {s : State} (hsized : s.cfg.Sized) (hhunts : (s.dec.get b).rc = 0) (hfits : TrainFits s.cfg P unit L) :
    (∀ n, n < 2 * reps * (L + 2) → FeedAnswers s b (durations code L P unit.toNat reps) n
      (if n % (2 * (L + 2)) = closingIndex P L then matchAll s.cfg (idealWindow code L P unit) else none)) ∧
    ∃ t, execAll (feeds b (durations code L P unit.toNat reps)) s = .next t ∧ (t.dec.get b).rc = 0 ∧
      (∀ r, matchAll s.cfg (idealWindow code L P unit) = some r →
        1 ≤ reps ∨ s.hand.get b = { rdy := true, shadow := r } → t.hand.get b = { rdy := true, shadow := r }) ∧
      EdgeFrame b s t := by
  induction reps generalizing s with
  | zero => exact ⟨by simp, s, rfl, hhunts, fun r _ hr => by simpa using hr, EdgeFrame.refl b s⟩
  | succ reps ih =>
    obtain ⟨t, hrun, hframe, hrc, hanswers, hpending⟩ := exec_repetition code hsized hhunts hfits
    obtain ⟨hrest, u, hrun', hrc', hpending', hframe'⟩ :=
      ih (s := t) (hframe.cfg ▸ hsized) hrc (hframe.cfg ▸ hfits)
    rw [hframe.cfg] at hrest hpending'
    rw [durations_succ]
    refine ⟨fun n hn => ?_, u, execAll_feeds_append hrun hrun', hrc',
      fun r hr _ => hpending' r hr (.inr (hpending r hr)), hframe.trans hframe'⟩
    by_cases hfirst : n < 2 * (L + 2)
    · rw [Nat.mod_eq_of_lt hfirst]
      exact (hanswers n hfirst).left _
    · obtain ⟨m, rfl⟩ := Nat.exists_eq_add_of_le (Nat.not_lt.mp hfirst)
      have hm : m < 2 * reps * (L + 2) := by
        have hsplit : 2 * (reps + 1) * (L + 2) = 2 * (L + 2) + 2 * reps * (L + 2) := by ring
        omega
      rw [Nat.add_mod_left]
      simpa only [durations_length] using FeedAnswers.right hrun (hrest m hm)

/-- Settles O48, by induction on the repetitions: each closes one window, and the decoder hunts again after it (R155). -/
theorem everyRepetitionClosesItsWindow : Obligations.EveryRepetitionClosesItsWindow := by
  intro s b P unit L code reps hsized hhunts hfits
  obtain ⟨hanswers, t, hrun, hrc, hpending, hframe⟩ := exec_train code reps hsized hhunts hfits
  exact ⟨hanswers, t, hrun, hrc, fun hreps r hr => hpending r hr (.inl hreps), hframe⟩

/-- Of the train of one repetition, one sample is answered with the table's match of the window, and no other with a
result. -/
theorem one_repetition_answers {s : State} {b : Band} {P : Protocol} {unit : BitVec 16} {L : Nat} (code : BitVec 32)
    (hsized : s.cfg.Sized) (hhunts : (s.dec.get b).rc = 0) (hfits : TrainFits s.cfg P unit L) {n : Nat}
    {r : DecodeResult} (h : FeedAnswers s b (durations code L P unit.toNat 1) n (some r)) :
    matchAll s.cfg (idealWindow code L P unit) = some r := by
  obtain ⟨_, _, _, _, hanswers, _⟩ := exec_repetition code hsized hhunts hfits
  have hn : n < 2 * (L + 2) := by
    obtain ⟨hn, -⟩ := h
    rwa [durations_length] at hn
  have hresult := h.unique (hanswers n hn)
  split at hresult
  · exact hresult.symm
  · cases hresult

theorem closingIndex_lt (P : Protocol) (L : Nat) : closingIndex P L < 2 * (L + 2) := by
  unfold closingIndex
  split <;> omega

/-- A train ends with the low part of its sync (R152). -/
theorem durations_end (code : BitVec 32) (L : Nat) (P : Protocol) (unit : Nat) :
    ∃ ds, durations code L P unit 1 = ds ++ [unit * P.sync.low.toNat] := by
  rw [durations_one]
  exact ⟨_, (List.append_assoc _ [unit * P.sync.high.toNat] [unit * P.sync.low.toNat]).symm⟩

/-- Settles O23: the train closes the ideal window at its last sample, and the table answers that window (R155, R156). -/
theorem idealFrameIsDecoded : Obligations.IdealFrameIsDecoded := by
  intro s b k P unit L code hinv hhunts hP hplain hsync hgap hshort hdata hmin hL hroom hcode hapart hbefore
  have hlow : longSync P = P.sync.low.toNat := by simp [longSync, hplain]
  have hhigh : shortSync P = P.sync.high.toNat := by simp [shortSync, hplain]
  have hfits : TrainFits s.cfg P unit L := ⟨hlow ▸ hgap, hhigh ▸ hshort, hdata, hroom⟩
  have hwindow : idealWindow code L P unit = BitVec.ofNat 32 (unit.toNat * P.sync.low.toNat) ::
      (dataDurations code L P unit.toNat ++ [BitVec.ofNat 32 (unit.toNat * P.sync.high.toNat)]) := by
    simp [idealWindow, hplain, hlow, hhigh]
  have hmatch := matchAll_idealWindow hP hfits hmin hL hcode hapart (hwindow ▸ hbefore)
  obtain ⟨t, hrun, hframe, hrc, hanswers, hpending⟩ := exec_repetition code hinv.sized hhunts hfits
  refine ⟨t, _, rfl, hrun, hpending _ hmatch, ?_, ?_, hrc, hframe⟩
  · have hanswer := hanswers (closingIndex P L) (closingIndex_lt P L)
    rw [if_pos rfl, hmatch] at hanswer
    refine hanswer.last ?_ hrun
    rw [durations_length, closingIndex, hplain]
    simp only [Bool.false_eq_true, if_false]
    omega
  · obtain ⟨ds, hds⟩ := durations_end code L P unit.toNat
    rw [hds] at hrun
    refine cc_after_gap hrun ?_
    rwa [symbol_small unit.toNat (Nat.le_of_lt_succ unit.isLt)]

end Sys2Proof.Machine
end

section
/-! PROOFS. The round trip of R156: the tables for which it holds, and the two for which it fails. -/

namespace Sys2Proof.Machine

/-- The reset state of a configuration meets what the round trip asks of its states. -/
theorem roundTripOf_reset {c : Config} {P : Protocol} {unit : BitVec 16} (h : RoundTripOf c P unit) (code : BitVec 32)
    (hcode : code.toNat < 2 ^ 24) :
    ∃ n, FeedAnswers (State.resetWith c) .b433 (durations code 24 P unit.toNat 1) n
      (some (idealResult code 24 P unit)) :=
  h (State.resetWith c) .b433 code 1 rfl rfl hcode (le_refl 1)

/-- Settles O49: the one result of a train is the table's match of its window, at the closing gap (R155, R156). -/
theorem roundTripIsACheckOfTheTable : Obligations.RoundTripIsACheckOfTheTable := by
  intro c P unit hsized hfits
  constructor
  · intro htrip code hcode
    obtain ⟨n, hanswer⟩ := roundTripOf_reset htrip code hcode
    exact one_repetition_answers (s := State.resetWith c) code hsized rfl hfits hanswer
  · rintro hmatch s b code reps rfl hreset hcode hreps
    have hhunts : (s.dec.get b).rc = 0 := by rw [hreset]; rfl
    obtain ⟨hanswers, -⟩ := exec_train code reps hsized hhunts hfits
    have hfirst := closingIndex_lt P 24
    refine ⟨closingIndex P 24, ?_⟩
    have hanswer := hanswers (closingIndex P 24) (by omega)
    rwa [Nat.mod_eq_of_lt hfirst, if_pos rfl, hmatch code hcode] at hanswer

/-- Settles O50: the table's first match of an ideal window is its own entry's (R119, R156). -/
theorem separatedTableRoundTrips : Obligations.SeparatedTableRoundTrips := by
  intro c unit hsized hmin htable P hP
  obtain ⟨k, hk⟩ := List.mem_iff_getElem?.mp hP
  obtain ⟨hfits, hapart, hbefore⟩ := htable k P hk
  refine (roundTripIsACheckOfTheTable c P (unit P) hsized hfits).mpr fun code hcode => ?_
  exact matchAll_idealWindow hk hfits hmin (by omega) hcode hapart fun j Q => hbefore code j Q hcode

/-- Entries with the same ratios read the same bits. -/
theorem classifyAll_congr {P Q : Protocol} (hzero : Q.zero = P.zero) (hone : Q.one = P.one) (ud tol : Nat)
    (pairs : List (Duration × Duration)) : classifyAll Q ud tol pairs = classifyAll P ud tol pairs := by
  induction pairs with
  | nil => rfl
  | cons pair rest ih => simp only [classifyAll, classify, hzero, hone, ih]

/-- Entries with the same ratios accept the same windows (R120 to R125). -/
theorem tryMatch_eq_none_of_same_ratios {c : Config} {P Q : Protocol} {w : List Duration}
    (hsync : Q.sync = P.sync) (hzero : Q.zero = P.zero) (hone : Q.one = P.one) (hinv : Q.inverted = P.inverted)
    (h : tryMatch c w Q = none) : tryMatch c w P = none := by
  have hpulses : syncPulses Q = syncPulses P := by rw [syncPulses, syncPulses, hsync]
  have hfirst : firstData Q = firstData P := by rw [firstData, firstData, hinv]
  cases w with
  | nil => rfl
  | cons gap rest =>
    rw [Option.eq_none_iff_forall_ne_some] at h ⊢
    intro r hr
    obtain ⟨hne, hud, bits, hbits, hmin, -⟩ := (tryMatch_cons_eq_some_iff rfl).mp hr
    rw [← hpulses, ← hfirst, ← classifyAll_congr hzero hone] at hbits
    rw [← hpulses] at hne hud
    exact h _ ((tryMatch_cons_eq_some_iff rfl).mpr ⟨hne, hud, bits, hbits, hmin, rfl⟩)

/-- A result with an entry's id is that entry's own, and the entries before it rejected the window (R43, R119). -/
theorem matchAll_of_protocolId {c : Config} (htable : c.TableOk) {w : List Duration} {r : DecodeResult} {k : Nat}
    {P : Protocol} (hmatch : matchAll c w = some r) (hP : c.pt[k]? = some P) (hid : r.protocolId = P.id) :
    tryMatch c w P = some r ∧ ∀ j Q, j < k → c.pt[j]? = some Q → tryMatch c w Q = none := by
  obtain ⟨i, R, hR, hr, hbefore⟩ := (findSome_first _ _ _).mp hmatch
  obtain rfl : i = k := by
    have hi := tryMatch_protocolId htable hR hr
    have hk := htable.ids k P hP
    rw [hid] at hi
    omega
  rw [hR, Option.some.injEq] at hP
  exact ⟨hP ▸ hr, hbefore⟩

/-- With a lower id of the same ratios, no result carries the entry's id. -/
theorem not_roundTripOf_of_same_ratios {c : Config} {unit : BitVec 16} {j k : Nat} {P Q : Protocol}
    (htable : c.TableOk) (hjk : j < k) (hQ : c.pt[j]? = some Q) (hP : c.pt[k]? = some P) (hsync : Q.sync = P.sync)
    (hzero : Q.zero = P.zero) (hone : Q.one = P.one) (hinv : Q.inverted = P.inverted) : ¬ RoundTripOf c P unit := by
  intro htrip
  obtain ⟨n, hanswer⟩ := roundTripOf_reset htrip 0 (by decide)
  obtain ⟨-, w, hmatch⟩ := hanswer.of_some
  obtain ⟨haccepts, hrejects⟩ := matchAll_of_protocolId htable hmatch hP rfl
  rw [tryMatch_eq_none_of_same_ratios hsync hzero hone hinv (hrejects j Q hjk hQ)] at haccepts
  cases haccepts

/-- The durations of a train are those of its sync and of its symbols (R152, R154). -/
theorem durations_le {P : Protocol} {unit limit : Nat} (hsync : unit * syncPulses P ≤ limit)
    (hdata : ∀ bit, unit * (symbol P bit).high.toNat ≤ limit ∧ unit * (symbol P bit).low.toNat ≤ limit)
    (code : BitVec 32) (L reps : Nat) : ∀ d ∈ durations code L P unit reps, d ≤ limit := by
  intro d hd
  rw [durations_eq_flatMap] at hd
  obtain ⟨r, hr, hd⟩ := List.mem_flatMap.mp hd
  have hratio : unit * r.high.toNat ≤ limit ∧ unit * r.low.toNat ≤ limit := by
    rcases mem_trainRatios hr with rfl | ⟨bit, rfl⟩
    · exact ⟨(Nat.mul_le_mul_left unit (le_max_right _ _)).trans hsync,
        (Nat.mul_le_mul_left unit (le_max_left _ _)).trans hsync⟩
    · exact hdata bit
  rcases List.mem_pair.mp hd with rfl | rfl
  · exact hratio.1
  · exact hratio.2

/-- A train without a gap is answered without a result (R112, R117). -/
theorem not_roundTripOf_of_no_gap {c : Config} {P : Protocol} {unit : BitVec 16}
    (hsync : unit.toNat * syncPulses P ≤ c.separationLimitUs)
    (hdata : ∀ bit, unit.toNat * (symbol P bit).high.toNat ≤ c.separationLimitUs ∧
      unit.toNat * (symbol P bit).low.toNat ≤ c.separationLimitUs) : ¬ RoundTripOf c P unit := by
  intro htrip
  obtain ⟨n, hanswer⟩ := roundTripOf_reset htrip 0 (by decide)
  obtain ⟨⟨d, hd, hgap⟩, -⟩ := hanswer.of_some
  rw [BitVec.toNat_ofNat] at hgap
  have hle : d % 2 ^ 32 ≤ c.separationLimitUs := (Nat.mod_le _ _).trans (durations_le hsync hdata 0 24 1 d hd)
  exact Nat.not_lt.mpr hle hgap

/-- Settles O51: the lower of two ids with the same ratios takes every window, and without a gap there is no window. -/
theorem roundTripFailsWhereTheSpecSays : Obligations.RoundTripFailsWhereTheSpecSays := by
  constructor
  · intro c unit j k P Q htable hjk hQ hP hsync hzero hone hinv htrip
    exact not_roundTripOf_of_same_ratios htable hjk hQ hP hsync hzero hone hinv (htrip P (List.mem_of_getElem? hP))
  · intro c unit P hP _ hsync hdata htrip
    exact not_roundTripOf_of_no_gap hsync hdata (htrip P hP)

end Sys2Proof.Machine
end

section
/-! PROOFS. The commands of the capture sequencer: an idle poll, the transmit requests handed out, arming and disarming, and the counters and registers read and cleared. -/

namespace Sys2Proof.Machine

/-! ### POLL while idle (R166 to R168) -/

/-- What a `POLL` that delivers does while idle; a result's signal has no name, so the answer carries none. -/
theorem exec_poll_received {b : Band} {s : State} (hready : (s.hand.get b).rdy = true) (hidle : s.seq.capMode = false) :
    exec (.poll b) s =
      .next (((s.setHand b { (s.hand.get b) with rdy := false }).setSeq
        (recordReceived (signalOf (s.hand.get b).shadow b) s.seq)).respond
        { status := .received, w0 := packSig (signalOf (s.hand.get b).shadow b) }) := by
  rw [exec_poll_ready hready, onDecoded_idle _ (s := s.setHand b _) hidle, sigResponse_noname _ _ (signalOf_name _ b),
    State.setHand_seq]

/-- Settles O26: the signal received is `SignalOf` of the pending result, and the count saturates. -/
theorem idlePollReceives : Obligations.IdlePollReceives := by
  intro s b hready hidle
  have hexec := exec_poll_received hready hidle
  have hframe := exec_command_frame (i := .poll b) nofun hexec
  exact ⟨_, signalOf (s.hand.get b).shadow b, hexec, signalOf_address _ b, rfl, rfl, rfl, rfl, rfl, rfl, rfl,
    satInc_toNat s.seq.receiveCount, hidle, rfl, rfl, rfl, rfl, hframe⟩

/-! ### SENDS and SENDR (R88, R171 to R173) -/

theorem exec_sends (address : BitVec 24) (key : BitVec 8) (band : Band) (p : BitVec 8) (unit : BitVec 16) (s : State) :
    exec (.sends address key band p unit) s = .next (sendTx (makeTx s.cfg address band p unit) s) := rfl

/-- `TXW` of the request that `MakeTx` builds, as a number (R88, R173). -/
theorem packTx_makeTx_toNat (c : Config) (address : BitVec 24) (band : Band) (p : BitVec 8) (unit : BitVec 16) :
    (packTx (makeTx c address band p unit)).toNat =
      address.toNat + 24 * 2 ^ 32 + p.toNat * 2 ^ 40 + unit.toNat * 2 ^ 48 := by
  have hcode : (address.setWidth 32).toNat = address.toNat := BitVec.toNat_setWidth_of_le (by decide)
  have hbits : (Config.txBits).toNat = 24 := rfl
  rw [packTx_toNat, makeTx, hcode, hbits]
  ring

/-- The band code as the response's `flags` (R88). -/
theorem band_flags (band : Band) : band.code.setWidth 8 = if band = .b315 then (1 : BitVec 8) else 0 := by
  cases band <;> rfl

/-- An operation that hands out the request of `MakeTx` counts it, answers `TX` with it, and does nothing else. -/
theorem sendTx_makeTx_hands_out {i : Instr} {s : State} {address : BitVec 24} {band : Band} {p : BitVec 8}
    {unit : BitVec 16} (h : exec i s = .next (sendTx (makeTx s.cfg address band p unit) s)) :
    ∃ t r, exec i s = .next t ∧
      t.seq.sendCount.toNat = min (s.seq.sendCount.toNat + 1) (2 ^ 32 - 1) ∧
      t.seq = { s.seq with sendCount := t.seq.sendCount } ∧ t.store = s.store ∧ t.hand = s.hand ∧ CommandFrame s t ∧
      t.ports.cmdOut = some r ∧
      r.w0.toNat = address.toNat + 24 * 2 ^ 32 + p.toNat * 2 ^ 40 + unit.toNat * 2 ^ 48 ∧
      r = { status := .tx, idx := s.cfg.defaultRepeat, flags := if band = .b315 then 1 else 0, w0 := r.w0 } := by
  refine ⟨_, _, h, satInc_toNat s.seq.sendCount, rfl, rfl, rfl, ⟨rfl, rfl, rfl, rfl, rfl, rfl⟩, sendTx_cmdOut _ s,
    packTx_makeTx_toNat s.cfg address band p unit, ?_⟩
  rw [← band_flags]
  rfl

/-- Settles O31: both are one handing out, `SENDR` with the band's default protocol and unit. -/
theorem sendsHandOutTheRequest : Obligations.SendsHandOutTheRequest :=
  fun s address key band p unit =>
    ⟨sendTx_makeTx_hands_out (exec_sends address key band p unit s),
      sendTx_makeTx_hands_out (exec_sendr address key band s)⟩

/-! ### CAPEN, CAPDIS and CTRRST (R169, R170, R177) -/

/-- Settles O29: each command is its one write of the sequencer and the answer `OK`, by computation. -/
theorem armingAndDisarming : Obligations.ArmingAndDisarming :=
  fun _ => ⟨rfl, rfl⟩

/-- Settles O33: the command is its one write of the sequencer and the answer `OK`, by computation. -/
theorem counterResetClearsBothCounters : Obligations.CounterResetClearsBothCounters :=
  fun _ => rfl

/-! ### RDCTR, RDLRX and RDLCAP (R174 to R176) -/

theorem flag0_eq (b : Bool) : flag0 b = if b then 1 else 0 := by cases b <;> rfl

theorem exec_rdctr (s : State) :
    exec .rdctr s = .next (s.respond
      { status := .ok, flags := flag0 s.seq.capMode, c0 := s.seq.sendCount, c1 := s.seq.receiveCount }) := rfl

theorem exec_rdlrx (s : State) : exec .rdlrx s = .next (s.respond (optionResponse s.seq.lastReceived)) := rfl

theorem exec_rdlcap (s : State) : exec .rdlcap s = .next (s.respond (optionResponse s.seq.lastCaptured)) := rfl

/-- A register that holds a signal without a name is answered without one. -/
theorem optionResponse_noname {sig : Signal} (h : sig.name = none) :
    optionResponse (some sig) = { status := .ok, w0 := packSig sig } :=
  sigResponse_noname .ok 0 h

/-- Settles O32: the registers' signals have no name by the sequencer's invariant. -/
theorem readoutsAnswerTheRegisters : Obligations.ReadoutsAnswerTheRegisters := by
  intro s
  refine ⟨?rdctr, ?receivedNone, ?received, ?capturedNone, ?captured⟩
  case rdctr =>
    rw [exec_rdctr, flag0_eq]
    rfl
  case receivedNone =>
    intro hnone
    rw [exec_rdlrx, hnone]
    rfl
  case received =>
    intro sig hsig hinv
    rw [exec_rdlrx, hsig, optionResponse_noname (hinv.received sig hsig)]
    rfl
  case capturedNone =>
    intro hnone
    rw [exec_rdlcap, hnone]
    rfl
  case captured =>
    intro sig hsig hinv
    rw [exec_rdlcap, hsig, optionResponse_noname (hinv.captured sig hsig)]
    rfl

end Sys2Proof.Machine
end

section
/-! PROOFS. The commands of the signal store that scan and shift nothing: STAT, the index check of GET, REMOVE and RENAME, and CLEAR. -/

namespace Sys2Proof.Machine

/-! ### STAT (R27, R210) -/

/-- A number that fits the response's index field is read back from it (R92). -/
theorem indexField_toNat {n : Nat} (h : n ≤ 255) : (indexField n).toNat = n :=
  Nat.mod_eq_of_lt (Nat.lt_succ_of_le h)

theorem flag0_full (maxSlots : Nat) (st : Store) :
    flag0 (full maxSlots st) = if st.count = maxSlots then 1 else 0 := by
  simp only [flag0_eq, full, decide_eq_true_eq]

/-- Settles O44: `count` fits the index field, for it is at most `MAX`, which is at most 255 (R8, R32). -/
theorem statAnswersCountAndFull : Obligations.StatAnswersCountAndFull := by
  intro s hsized hinv
  have hcount : s.store.count ≤ 255 := hinv.count_le.trans hsized.max_le
  refine ⟨_, exec_stat_next s, indexField_toNat hcount, ?_⟩
  rw [flag0_full]

/-! ### The index check of GET, REMOVE and RENAME (R201, R242) -/

theorem validIndex_eq_false {st : Store} {u : Nat} (h : u = 0 ∨ st.count < u) : validIndex st u = false := by
  rw [← Bool.not_eq_true, validIndex_iff]
  omega

/-- Settles O45: the index is not valid, so each command answers the error and keeps the store. -/
theorem badIndexChangesNothing : Obligations.BadIndexChangesNothing := by
  intro s u name i hbad hi
  have hinvalid : validIndex s.store u.toNat = false := validIndex_eq_false hbad
  obtain rfl | rfl | rfl := hi
  case inl =>
    rw [exec_get_next, hinvalid]
    rfl
  case inr.inl =>
    rw [exec_remove_next, hinvalid]
    rfl
  case inr.inr =>
    rw [exec_rename_next, hinvalid]
    rfl

/-! ### CLEAR (R209) -/

/-- No signal is live in a store with `count` 0 (R32). -/
theorem live_eq_nil {maxSlots : Nat} {st : Store} (h : st.count = 0) : live maxSlots st = [] :=
  List.eq_nil_of_length_eq_zero ((live_length maxSlots st).trans h)

/-- Settles O43: the command is its one write of the store, of `widx` and `count`, and the answer `OK`. -/
theorem clearLeavesNoLiveSignal : Obligations.ClearLeavesNoLiveSignal := by
  intro s
  have hexec := exec_clear_next s
  exact ⟨_, hexec, rfl, rfl, live_eq_nil rfl, fun _ => rfl, rfl, rfl, rfl, exec_command_frame (i := .clear) nofun hexec⟩

end Sys2Proof.Machine
end

section
/-! PROOFS. The exceptions of FIND and POLL: a name that no live signal carries, and both bands pending while armed. -/

namespace Sys2Proof.Machine

/-! ### FIND (R208, R215, R243) -/

theorem live_getElem?_eq_some_iff {M : Nat} {st : Store} {k : Nat} {x : Signal} :
    (live M st)[k]? = some x ↔ k < st.count ∧ signalAt M st (k + 1) = x := by
  rw [live_getElem?, Option.ite_none_right_eq_some, Option.some_inj]

/-- The scan of `FIND` stops at the first live signal of that name; list positions start at 0, ages at 1. -/
theorem findName_eq_some {M : Nat} {st : Store} {name : Name} {u : Nat} {x : Signal}
    (hx : (live M st)[u]? = some x) (hname : x.name = some name)
    (hleast : ∀ v y, v < u → (live M st)[v]? = some y → y.name ≠ some name) :
    findName M st name = some (u + 1) := by
  obtain ⟨hu, rfl⟩ := live_getElem?_eq_some_iff.mp hx
  refine find_ages (Nat.le_add_left 1 u) hu (beq_iff_eq.mpr hname) fun v hv hlt => beq_eq_false_iff_ne.mpr ?_
  have hlive : (live M st)[v - 1]? = some (signalAt M st v) :=
    live_getElem?_eq_some_iff.mpr ⟨by omega, by rw [Nat.sub_add_cancel hv]⟩
  exact hleast (v - 1) _ (by omega) hlive

/-- The scan of `FIND` passes over every live signal when none carries the name. -/
theorem findName_eq_none {M : Nat} {st : Store} {name : Name} (h : ∀ x ∈ live M st, x.name ≠ some name) :
    findName M st name = none := by
  refine List.find?_eq_none.mpr fun u hu => ?_
  obtain ⟨hge, hle⟩ := mem_ages.mp hu
  simpa using h _ (mem_live.mpr ⟨u, hge, hle, rfl⟩)

/-- A signal with a name is answered with it (R89). -/
theorem sigResponse_named (status : Status) (idx : BitVec 8) {sig : Signal} {name : Name} (h : sig.name = some name) :
    sigResponse status idx sig =
      { status := status, idx := idx, w0 := packSig sig, nlen := BitVec.ofNat 8 name.length,
        nbytes := packName name } := by
  simp only [sigResponse, nameField, h, Option.getD_some]

/-- Settles O42: the answer is that of the scan, which stops at the oldest signal of that name or at none. -/
theorem findAnswersTheOldestOfThatName : Obligations.FindAnswersTheOldestOfThatName := by
  intro s name
  refine ⟨?found, ?notFound⟩
  case found =>
    intro u x hx hname hleast
    have hscan := findName_eq_some hx hname hleast
    obtain ⟨-, rfl⟩ := live_getElem?_eq_some_iff.mp hx
    rw [exec_find_next, hscan]
    simp only [sigResponse_named _ _ hname]
    rfl
  case notFound =>
    intro hnone
    rw [exec_find_next, findName_eq_none hnone]
    rfl

/-! ### POLL while armed, and both bands pending (R167, R168, R254) -/

/-- What a `POLL` that delivers does while armed. -/
theorem exec_poll_captured {b : Band} {s : State} (hready : (s.hand.get b).rdy = true) (harmed : s.seq.capMode = true) :
    exec (.poll b) s =
      .next ((((s.setHand b { (s.hand.get b) with rdy := false }).setSeq
        (recordCaptured (signalOf (s.hand.get b).shadow b)
          (recordReceived (signalOf (s.hand.get b).shadow b) s.seq))).setStore
        (appendSignal s.cfg.maxSlots (signalOf (s.hand.get b).shadow b) s.store).store).respond
        (capturedResponse (signalOf (s.hand.get b).shadow b)
          (appendSignal s.cfg.maxSlots (signalOf (s.hand.get b).shadow b) s.store))) := by
  rw [exec_poll_ready hready, onDecoded_armed _ (s := s.setHand b _) harmed, State.setHand_seq, State.setHand_cfg,
    State.setHand_store]

/-- Settles O28: the first `POLL` disarms and leaves the other band's handoff, so the second is an idle one. -/
theorem firstPolledBandTakesTheCapture : Obligations.FirstPolledBandTakesTheCapture := by
  intro s b b' hne hready hready' harmed
  obtain ⟨t, hfirst, hhand, hstore, hseq⟩ : ∃ t, exec (.poll b) s = .next t ∧
      t.hand = s.hand.set b { (s.hand.get b) with rdy := false } ∧
      t.store = (appendSignal s.cfg.maxSlots (signalOf (s.hand.get b).shadow b) s.store).store ∧
      t.seq = recordCaptured (signalOf (s.hand.get b).shadow b)
        (recordReceived (signalOf (s.hand.get b).shadow b) s.seq) :=
    ⟨_, exec_poll_captured hready harmed, rfl, rfl, rfl⟩
  have hother : t.hand.get b' = s.hand.get b' := by rw [hhand, PerBand.get_set_other _ _ hne.symm]
  have hidle : t.seq.capMode = false := by rw [hseq]; rfl
  have hsecond := exec_poll_received (hother ▸ hready') hidle
  rw [hother] at hsecond
  refine ⟨_, _, (execAll_cons_next hfirst).trans (execAll_cons_next hsecond), exec_append_next _ s, hstore, ?captured,
    rfl, hidle, ?first, ?second, rfl⟩
  case captured =>
    show t.seq.lastCaptured = _
    rw [hseq]
    rfl
  case first => simp [hhand, hne]
  case second => simp

end Sys2Proof.Machine
end

section
/-! PROOFS. The values after reset (R271 to R274). -/

namespace Sys2Proof

/-- A pair of equal halves reads the same at either band. -/
@[simp] theorem PerBand.get_diag {α : Type} (v : α) (b : Band) : (PerBand.mk v v).get b = v := by
  cases b <;> rfl

namespace Machine

/-- Either band's decoder starts alike, whatever the configuration (R271). -/
@[simp] theorem State.resetWith_dec_get (c : Config) (b : Band) : (State.resetWith c).dec.get b = Decoder.reset :=
  PerBand.get_diag _ b

/-- Either band's handoff starts alike, whatever the configuration (R274). -/
@[simp] theorem State.resetWith_hand_get (c : Config) (b : Band) : (State.resetWith c).hand.get b = Handoff.reset :=
  PerBand.get_diag _ b

/-- Settles O13: each band's decoder and handoff are the reset ones; the store's and the sequencer's values are their
definitions'. -/
theorem resetValuesAreTheSpecs : Obligations.ResetValuesAreTheSpecs := by
  intro c b
  rw [State.resetWith_dec_get, State.resetWith_hand_get]
  exact ⟨rfl, rfl, rfl, rfl, rfl, rfl, rfl, rfl, rfl, rfl⟩

end Machine
end Sys2Proof
end

section
/-! PROOFS. The encodings: a legal transaction is the command that its words name, decoding undoes encoding, and what is decoded is well-formed. -/

namespace Sys2Proof

/-! ### Which transactions are commands (R83, R84, R93) -/

/-- The decoder reads an instruction exactly from a legal transaction of a known command (R93, R94). -/
theorem decodeCommand_eq_ok_iff {nameMax : Nat} {t : Transaction} {i : Instr} :
    decodeCommand nameMax t = .ok i ↔
      ∃ op, Opcode.ofCode (opField t.cw) = some op ∧ illegalCause nameMax op t = none ∧ instrOf op t = i := by
  unfold decodeCommand
  cases hop : Opcode.ofCode (opField t.cw) with
  | none => simp
  | some op => cases hcause : illegalCause nameMax op t <;> simp [hcause]

/-- A transaction with a command's word, whose fields pass the tests (b) to (e), is that command (R83, R84, R93). -/
theorem decode_commandWord {nameMax : Nat} {op : Opcode} {arg : BitVec 8} {t : Transaction}
    (hcw : t.cw = commandWord op arg) (harg : op.argMustBeZero = true → arg = 0)
    (hpoll : op = .poll → arg.extractLsb' 1 7 = 0) (hsigw : sigReserved t.sigw = 0)
    (hname : op.usesName t.sigw = true → t.nlen.toNat ≤ nameMax) :
    decode nameMax (.command t) = .ok (instrOf op t) := by
  have hop : Opcode.ofCode (opField t.cw) = some op := by rw [hcw, opField_commandWord, Opcode.ofCode_code]
  refine decodeCommand_eq_ok_iff.mpr ⟨op, hop, illegalCause_eq_none_iff.mpr ?_, rfl⟩
  rw [hcw, argField_commandWord]
  rintro (⟨hzero, hne⟩ | ⟨rfl, hne⟩ | ⟨-, hne⟩ | ⟨huses, hlt⟩)
  · exact hne (harg hzero)
  · exact hne (hpoll rfl)
  · exact hne hsigw
  · exact absurd (hname huses) (Nat.not_le.mpr hlt)

/-! ### The three shapes of a command's transaction (R83 to R86) -/

theorem sigReserved_zero : sigReserved 0 = 0 := by decide

/-- A transaction with no operand is the command of its word (R83). -/
theorem decode_plainCommand (nameMax : Nat) (op : Opcode) (arg : BitVec 8) (harg : op.argMustBeZero = true → arg = 0)
    (hpoll : op = .poll → arg.extractLsb' 1 7 = 0) :
    decode nameMax (plainCommand op arg) =
      .ok (instrOf op { cw := commandWord op arg, sigw := 0, nlen := 0, nbytes := 0 }) :=
  decode_commandWord rfl harg hpoll sigReserved_zero fun _ => Nat.zero_le _

/-- A transaction with a signal operand and no name is the command of its word (R85). -/
theorem decode_sigwCommand (nameMax : Nat) (op : Opcode) {sigw : BitVec 64} (hsigw : sigReserved sigw = 0) :
    decode nameMax (sigwCommand op sigw) =
      .ok (instrOf op { cw := commandWord op 0, sigw := sigw, nlen := 0, nbytes := 0 }) :=
  decode_commandWord rfl (fun _ => rfl) (fun _ => rfl) hsigw fun _ => Nat.zero_le _

/-- A transaction with a name that fits the operand is the command of its word (R86). -/
theorem decode_nameCommand {nameMax : Nat} (op : Opcode) (arg : BitVec 8) {sigw : BitVec 64} {name : Name}
    (harg : op.argMustBeZero = true → arg = 0) (hpoll : op = .poll → arg.extractLsb' 1 7 = 0)
    (hsigw : sigReserved sigw = 0) (hname : nameFits nameMax name = true) :
    decode nameMax (nameCommand op arg sigw name) =
      .ok (instrOf op { cw := commandWord op arg, sigw := sigw, nlen := BitVec.ofNat 8 name.length,
                        nbytes := packName name }) :=
  decode_commandWord rfl harg hpoll hsigw fun _ => (Nat.mod_le _ _).trans (of_decide_eq_true hname)

/-! ### The operands read back (R85, R86, R91) -/

/-- A name of at most 255 bytes is read back from its length and its packed bytes (R86). -/
theorem name_of_packName {name : Name} (h : name.length ≤ 255) (cw : BitVec 16) (sigw : BitVec 64) :
    Transaction.name { cw := cw, sigw := sigw, nlen := BitVec.ofNat 8 name.length, nbytes := packName name } = name := by
  have hlen : (BitVec.ofNat 8 name.length).toNat = name.length := Nat.mod_eq_of_lt (Nat.lt_succ_of_le h)
  rw [Transaction.name, hlen, unpackName_packName]

/-- A signal is read back from its `SIGW` when the name operand holds its name (R85, R91). -/
theorem signal_of_packSig {t : Transaction} {sig : Signal} (hsigw : t.sigw = packSig sig)
    (hname : ∀ name, sig.name = some name → t.name = name) : t.signal = sig := by
  obtain ⟨address, key, band, p, unit, name⟩ := sig
  simp only [Transaction.signal, hsigw, packSig, sigAddress_pack, sigKey_pack, sigBand_pack, sigProtocol_pack,
    sigUnit_pack, sigNameValid_pack]
  cases name with
  | none => rfl
  | some name => rw [hname name rfl]; rfl

theorem sigReserved_packSig (sig : Signal) : sigReserved (packSig sig) = 0 := sigReserved_pack ..

/-- A poll's band is read back from its argument (R84). -/
theorem band_of_pollArg (b : Band) : Band.ofCode ((b.code.setWidth 8).extractLsb' 0 1) = b := by
  cases b <;> rfl

/-- Settles O1: each command's transaction has one of three shapes, and each operand is read back from its field. -/
theorem decodeReadsBackEveryEncoding : Obligations.DecodeReadsBackEveryEncoding := by
  intro nameMax i hmax hwf
  have hlen {name : Name} (h : nameFits nameMax name = true) : name.length ≤ 255 := (of_decide_eq_true h).trans hmax
  cases i with
  | feed b d => rfl
  | append sig =>
    cases hname : sig.name with
    | none =>
      simp only [encode, hname]
      rw [decode_sigwCommand nameMax .append (sigReserved_packSig sig), instrOf, signal_of_packSig rfl (by simp [hname])]
    | some name =>
      simp only [wellFormed, hname] at hwf
      simp only [encode, hname]
      rw [decode_nameCommand .append 0 (fun _ => rfl) nofun (sigReserved_packSig sig) hwf, instrOf,
        signal_of_packSig rfl]
      rintro _ h
      obtain rfl : name = _ := Option.some_inj.mp (hname.symm.trans h)
      exact name_of_packName (hlen hwf) _ _
  | get u => rw [encode, decode_plainCommand nameMax .get u nofun nofun, instrOf, argField_commandWord]
  | remove u => rw [encode, decode_plainCommand nameMax .remove u nofun nofun, instrOf, argField_commandWord]
  | rename u name =>
    rw [encode, decode_nameCommand .rename u nofun nofun sigReserved_zero hwf, instrOf, argField_commandWord,
      name_of_packName (hlen hwf)]
  | find name =>
    rw [encode, decode_nameCommand .find 0 (fun _ => rfl) nofun sigReserved_zero hwf, instrOf,
      name_of_packName (hlen hwf)]
  | poll b =>
    rw [encode, decode_plainCommand nameMax .poll _ nofun fun _ => by cases b <;> rfl, instrOf, argField_commandWord,
      band_of_pollArg]
  | sends address key band p unit =>
    rw [encode, decode_sigwCommand nameMax .sends (sigReserved_pack ..), instrOf, sigAddress_pack, sigKey_pack,
      sigBand_pack, sigProtocol_pack, sigUnit_pack]
  | sendr address key band =>
    rw [encode, decode_sigwCommand nameMax .sendr (sigReserved_pack ..), instrOf, sigAddress_pack, sigKey_pack,
      sigBand_pack]
  | clear | stat | capen | capdis | rdctr | rdlrx | rdlcap | ctrrst =>
    exact decode_plainCommand nameMax _ 0 (fun _ => rfl) nofun

/-! ### What is decoded (R83, R84, R86) -/

/-- A legal command is well-formed: a name operand that it uses is no longer than `NAME_MAX` (R93 (e)). -/
theorem wellFormed_instrOf {nameMax : Nat} {op : Opcode} {t : Transaction}
    (hname : op.usesName t.sigw = true → t.nlen.toNat ≤ nameMax) : wellFormed nameMax (instrOf op t) = true := by
  have hfits (h : t.nlen.toNat ≤ nameMax) : nameFits nameMax t.name = true :=
    decide_eq_true ((unpackName_length _ _).trans_le h)
  cases op with
  | append =>
    cases hvalid : sigNameValid t.sigw with
    | false => simp [instrOf, wellFormed, Transaction.signal, hvalid]
    | true => simpa [instrOf, wellFormed, Transaction.signal, hvalid] using hfits (hname hvalid)
  | rename | find => exact hfits (hname rfl)
  | _ => rfl

/-- An argument with its upper seven bits 0 is the band it stands for (R84). -/
theorem pollArg_of_band {arg : BitVec 8} (h : arg.extractLsb' 1 7 = 0) :
    (Band.ofCode (arg.extractLsb' 0 1)).code.setWidth 8 = arg := by
  have hlt : arg.toNat < 2 := by rw [pollArg_eq_zero_iff] at h; omega
  obtain h | h : arg = 0 ∨ arg = 1 := by
    obtain h | h : arg.toNat = 0 ∨ arg.toNat = 1 := by omega
    · exact .inl (BitVec.eq_of_toNat_eq h)
    · exact .inr (BitVec.eq_of_toNat_eq h)
  all_goals subst h; rfl

/-- The command word of a legal command's encoding (R83, R84). -/
theorem encode_instrOf {op : Opcode} {t : Transaction} (harg : op.argMustBeZero = true → argField t.cw = 0)
    (hpoll : op = .poll → (argField t.cw).extractLsb' 1 7 = 0) :
    ∃ t', encode (instrOf op t) = .command t' ∧ t'.cw = commandWord op (argField t.cw) := by
  cases op with
  | get | remove | rename => exact ⟨_, rfl, rfl⟩
  | poll => exact ⟨_, rfl, by rw [pollArg_of_band (hpoll rfl)]⟩
  | append =>
    rw [harg rfl]
    cases hname : t.signal.name <;> simp only [instrOf, encode, hname] <;> exact ⟨_, rfl, rfl⟩
  | _ => rw [harg rfl]; exact ⟨_, rfl, rfl⟩

/-- Settles O2: a decoded command passed the tests of R93, and its word is made of its opcode and argument again. -/
theorem decodedInstructionsAreWellFormed : Obligations.DecodedInstructionsAreWellFormed := by
  intro nameMax r i hdec
  cases r with
  | edge b w =>
    obtain rfl : Instr.feed b w = i := Except.ok.inj hdec
    exact ⟨rfl, fun _ _ _ => rfl, nofun⟩
  | command t =>
    obtain ⟨op, hop, hlegal, rfl⟩ := decodeCommand_eq_ok_iff.mp hdec
    simp only [illegalCause_eq_none_iff, not_or, not_and, not_not, Nat.not_lt] at hlegal
    obtain ⟨harg, hpoll, -, hname⟩ := hlegal
    refine ⟨wellFormed_instrOf hname, nofun, ?_⟩
    rintro _ ⟨⟩
    obtain ⟨t', henc, hcw⟩ := encode_instrOf harg hpoll
    refine ⟨t', henc, ?_⟩
    rw [hcw, commandWord, Opcode.ofCode_eq_some hop, commandWord_fields]

/-- Settles O3: each word is read by computation. -/
theorem writtenOutWordsDecode : Obligations.WrittenOutWordsDecode := by
  unfold Obligations.WrittenOutWordsDecode
  decide

end Sys2Proof
end

section
/-! PROOFS. Records as numbers, a name byte by byte, and the hexadecimal text of an address and a key. -/

namespace Sys2Proof

/-! ### Records at their bits (R85 to R87, R92) -/

/-- `SIGW` of a signal as a sum of its fields at their bits (R85). -/
theorem packSig_toNat (s : Signal) :
    (packSig s).toNat =
      s.address.toNat + s.key.toNat * 2 ^ 24 + s.protocolId.toNat * 2 ^ 32 + s.unitDelayUs.toNat * 2 ^ 40
        + (if s.band = .b315 then 2 ^ 56 else 0) + (if s.name = none then 0 else 2 ^ 57) := by
  have hband : s.band.code.toNat = if s.band = .b315 then 1 else 0 := by cases s.band <;> rfl
  have hname : (bit1 s.name.isSome).toNat = if s.name = none then 0 else 1 := by cases s.name <;> rfl
  rw [packSig, packSigFields_toNat, hband, hname]
  split_ifs <;> ring

/-- `RESW` as a sum of its fields at their bits (R87). -/
theorem packResult_toNat (r : DecodeResult) :
    (packResult r).toNat =
      r.code.toNat + r.bitLength.toNat * 2 ^ 32 + r.protocolId.toNat * 2 ^ 40 + r.unitDelayUs.toNat * 2 ^ 48 := by
  simp only [packResult, toNat_append_add]
  ring

/-- Byte `k` of a packed name stands at bits `8k+7:8k`; above the name's own bytes there is 0 (R86). -/
theorem packName_byte (name : Name) (k : Nat) : packName name / 2 ^ (8 * k) % 256 = (name.getD k 0).toNat := by
  induction name generalizing k with
  | nil => simp [packName]
  | cons b rest ih =>
    have hb := b.isLt
    cases k with
    | zero =>
      simp only [packName, Nat.mul_zero, pow_zero, Nat.div_one, List.getD_cons_zero]
      omega
    | succ k =>
      have hpow : 2 ^ (8 * (k + 1)) = 256 * 2 ^ (8 * k) := by ring
      have hshift : (b.toNat + 256 * packName rest) / 256 = packName rest := by omega
      rw [packName, hpow, ← Nat.div_div_eq_div_mul, hshift, ih, List.getD_cons_succ]

/-- Settles O4: each record is a concatenation, read as a number. -/
theorem recordsArePackedAtTheirBits : Obligations.RecordsArePackedAtTheirBits := by
  refine ⟨packSig_toNat, fun st idx s hname => ?_, packResult_toNat, packName_byte⟩
  rw [Machine.sigResponse_noname st idx hname]
  exact ⟨rfl, rfl⟩

namespace Machine

/-! ### Hexadecimal text (R16) -/

theorem hexValue_hexDigit {n : Nat} (h : n < 16) : hexValue (hexDigit n) = some n := by
  have hall : ∀ k : Fin 16, hexValue (hexDigit k) = some k.val := by decide
  exact hall ⟨n, h⟩

@[simp] theorem hexText_length (k n : Nat) : (hexText k n).length = k := by
  induction k generalizing n with
  | zero => rfl
  | succ k ih => simp [hexText, ih]

/-- The last digit of a text is read after the number before it. -/
theorem numberFrom_concat {digit : Char → Option Nat} {base acc v w : Nat} {text : List Char} {c : Char}
    (htext : numberFrom digit base acc text = some v) (hc : digit c = some w) :
    numberFrom digit base acc (text ++ [c]) = some (base * v + w) := by
  induction text generalizing acc with
  | nil =>
    obtain rfl : acc = v := Option.some_inj.mp htext
    simp only [List.nil_append, numberFrom, hc]
  | cons d rest ih =>
    simp only [List.cons_append, numberFrom] at htext ⊢
    cases hd : digit d with
    | none => simp [hd] at htext
    | some x =>
      simp only [hd] at htext ⊢
      exact ih htext

/-- The low `k` digits of a number stand for its remainder by `16 ^ k`. -/
theorem numberFrom_hexText (k n : Nat) : numberFrom hexValue 16 0 (hexText k n) = some (n % 16 ^ k) := by
  induction k generalizing n with
  | zero => simp [hexText, numberFrom, Nat.mod_one]
  | succ k ih =>
    rw [hexText, numberFrom_concat (ih (n / 16)) (hexValue_hexDigit (Nat.mod_lt n (by decide))), pow_succ',
      Nat.mod_mul, Nat.add_comm]

/-- Text of enough digits for a word reads back as the word. -/
theorem hexOf_hexText {k w : Nat} (hk : 0 < k) (hw : 2 ^ w ≤ 16 ^ k) (x : BitVec w) :
    hexOf k w (hexText k x.toNat) = some x := by
  have hnumber : numberFrom hexValue 16 0 (hexText k x.toNat) = some x.toNat := by
    rw [numberFrom_hexText, Nat.mod_eq_of_lt (x.isLt.trans_le hw)]
  have hne : hexText k x.toNat ≠ [] := List.ne_nil_of_length_pos (by simpa using hk)
  rw [hexOf, if_pos (hexText_length k _)]
  unfold numberOf
  split
  · contradiction
  · rw [hnumber]
    simp [x.isLt]

/-- Settles O5: six digits are enough for 24 bits and two for 8. -/
theorem addressAndKeyTextReadsBack : Obligations.AddressAndKeyTextReadsBack :=
  ⟨hexOf_hexText (by decide) (by decide), hexOf_hexText (by decide) (by decide)⟩

end Machine

end Sys2Proof
end

section
/-! PROOFS. The step: what the agent whose turn it is takes, a request just presented, and that every operation and every step answers a next state. -/

namespace Sys2Proof

/-! ### Taking a request (R71, R72) -/

namespace Machine

section taken

variable {s : State} {b : Band} {w : BitVec 32} {turns : List Port} {more : List (BitVec 32)}

/-- What an edge agent's turn takes. -/
theorem fetch_edge (hturn : s.ports.schedule = .edge b :: turns) (hreq : s.ports.edgeIn.get b = w :: more) :
    fetch s = (some (.edge b w),
      { s with ports := { s.ports with schedule := turns, edgeIn := s.ports.edgeIn.set b more } }) := by
  simp only [fetch, hturn, hreq]

theorem fetch_no_turn (hturn : s.ports.schedule = []) : fetch s = (none, s) := by
  simp only [fetch, hturn]

theorem fetch_edge_idle (hturn : s.ports.schedule = .edge b :: turns) (hreq : s.ports.edgeIn.get b = []) :
    fetch s = (none, { s with ports := { s.ports with schedule := turns } }) := by
  simp only [fetch, hturn, hreq]

theorem fetch_command_idle (hturn : s.ports.schedule = .command :: turns) (hreq : s.ports.cmdIn = []) :
    fetch s = (none, { s with ports := { s.ports with schedule := turns } }) := by
  simp only [fetch, hturn, hreq]

/-- With nothing taken a step does what the taking did (log 4). -/
theorem step_of_fetch_none {t : State} (h : fetch s = (none, t)) : step s = .next t := by
  simp only [step, h]

/-- With a request taken that is an instruction, a step is that instruction (R66). -/
theorem step_of_fetch_some {t : State} {r : Request} {i : Instr} (h : fetch s = (some r, t))
    (hdec : decode s.cfg.nameMax r = .ok i) : step s = exec i t := by
  simp only [step, h, hdec]

end taken

/-- Settles O6: the taken request is decoded and executed, and every word on an edge port is a `FEED`. -/
theorem stepRunsTheDecodedOperation : Obligations.StepRunsTheDecodedOperation :=
  ⟨fun _ _ _ _ _ hturn hreq => step_of_fetch_some (fetch_edge hturn hreq) rfl,
    fun _ _ _ _ _ hturn hreq hdec => step_of_fetch_some (fetch_command hturn hreq) hdec⟩

/-- Settles O7: nothing is taken, so the step is what is left of the turns. -/
theorem nothingPresentedChangesNothing : Obligations.NothingPresentedChangesNothing :=
  ⟨fun _ hturn => step_of_fetch_none (fetch_no_turn hturn),
    fun _ _ _ hturn hreq => step_of_fetch_none (fetch_edge_idle hturn hreq),
    fun _ _ hturn hreq => step_of_fetch_none (fetch_command_idle hturn hreq)⟩

end Machine

/-! ### A table word presented (log 8, log 9) -/

/-- What is legal for one `NAME_MAX` is read the same for every larger one (R93 (e)). -/
theorem decode_mono {n m : Nat} (hle : n ≤ m) {r : Request} {i : Instr} (h : decode n r = .ok i) :
    decode m r = .ok i := by
  cases r with
  | edge b w => exact h
  | command t =>
    obtain ⟨op, hop, hlegal, hi⟩ := decodeCommand_eq_ok_iff.mp h
    refine decodeCommand_eq_ok_iff.mpr ⟨op, hop, ?_, hi⟩
    rw [illegalCause_eq_none_iff] at hlegal ⊢
    -- only the test of the name's length reads `NAME_MAX`
    exact fun hcause => hlegal (hcause.imp_right (Or.imp_right (Or.imp_right (And.imp_right hle.trans_lt))))

theorem decodeTableWord_eq_some {nbits w : Nat} {i : Instr} (h : decodeTableWord nbits w = some i) :
    decode 0 (Request.ofWord nbits w) = .ok i := by
  unfold decodeTableWord at h
  split at h
  next j hj => rw [hj, Option.some_inj.mp h]
  next => cases h

namespace Machine

/-- Presenting a request leaves the configuration alone. -/
@[simp] theorem present_cfg (s : State) (r : Request) : (present s r).cfg = s.cfg := by
  cases r <;> rfl

/-- Settles O9: taking the presented word gives the state back, and the word is read the same for every `NAME_MAX`. -/
theorem presentedTableWordRunsNext : Obligations.PresentedTableWordRunsNext := by
  intro s nbits w i hword
  have hdec : decode s.cfg.nameMax (Request.ofWord nbits w) = .ok i :=
    decode_mono (Nat.zero_le _) (decodeTableWord_eq_some hword)
  exact step_of_fetch_some (fetch_present s (Request.ofWord nbits w)) (by rwa [State.withFetchWord, present_cfg])

/-! ### Every operation and every step completes (R255, R283) -/

theorem exec_completes (i : Instr) (s : State) : ∃ t, exec i s = .next t := by
  by_cases hfeed : ∃ b x, i = .feed b x
  · obtain ⟨b, x, rfl⟩ := hfeed
    exact ⟨_, exec_feed b x s⟩
  · obtain ⟨f, hf⟩ := exec_command i fun b x h => hfeed ⟨b, x, h⟩
    exact ⟨_, hf s⟩

/-- Settles O10: a step is nothing, the answer to an illegal transaction, or an operation, and each completes. -/
theorem everyOperationAndStepCompletes : Obligations.EveryOperationAndStepCompletes := by
  refine ⟨exec_completes, fun s => ?_⟩
  obtain ⟨-, hstep⟩ | ⟨_, _, -, -, hstep⟩ | ⟨_, i, -, -, hstep⟩ := step_cases s
  · exact ⟨_, hstep⟩
  · exact ⟨_, hstep⟩
  · rw [hstep]
    exact exec_completes i _

end Machine

end Sys2Proof
end

section
/-! PROOFS. What each operation writes: the store and the sequencer after a command, the ways a `POLL` ends, and one inversion lemma over all operations. -/

namespace Sys2Proof

/-- An operation that touches no handoff: every command but `POLL` (R46). -/
def Instr.LeavesHandoffs (i : Instr) : Prop := (∀ b x, i ≠ .feed b x) ∧ ∀ b, i ≠ .poll b

namespace Machine

/-- The store after a command that touches no handoff (R204 to R209). -/
def storeAfter (c : Config) (st : Store) : Instr → Store
  | .append sig => (appendSignal c.maxSlots sig st).store
  | .remove u => if validIndex st u.toNat then removeSignal c.maxSlots u.toNat st else st
  | .rename u name => if validIndex st u.toNat then renameSignal c.maxSlots u.toNat name st else st
  | .clear => { st with widx := 0, count := 0 }
  | _ => st

/-- The sequencer after a command that touches no handoff (R169 to R172, R177). -/
def seqAfter (q : Sequencer) : Instr → Sequencer
  | .capen => { q with capMode := true, lastCaptured := none }
  | .capdis => { q with capMode := false }
  | .sends _ _ _ _ _ => { q with sendCount := satInc q.sendCount }
  | .sendr _ _ _ => { q with sendCount := satInc q.sendCount }
  | .ctrrst => { q with sendCount := 0, receiveCount := 0 }
  | _ => q

/-- A command that touches no handoff writes the store and the sequencer and answers; the answer depends on the
configuration, the store and the sequencer alone (R46). -/
theorem exec_of_leavesHandoffs {i : Instr} (h : i.LeavesHandoffs) :
    ∃ r : Config → Store → Sequencer → CmdResponse, ∀ s : State, exec i s =
      .next (((s.setStore (storeAfter s.cfg s.store i)).setSeq (seqAfter s.seq i)).respond
        (r s.cfg s.store s.seq)) := by
  cases i with
  | feed b x => exact absurd rfl (h.1 b x)
  | poll b => exact absurd rfl (h.2 b)
  | append sig =>
    exact ⟨fun c st _ => { status := (appendSignal c.maxSlots sig st).status,
                           idx := indexField (appendSignal c.maxSlots sig st).index }, exec_append_next sig⟩
  | get u =>
    exact ⟨fun c st _ => if validIndex st u.toNat then sigResponse .ok u (signalAt c.maxSlots st u.toNat)
      else { status := .indexOutOfRange }, exec_get_next u⟩
  | remove u =>
    exact ⟨fun _ st _ => { status := if validIndex st u.toNat then .ok else .indexOutOfRange }, exec_remove_next u⟩
  | rename u name =>
    exact ⟨fun _ st _ => { status := if validIndex st u.toNat then .ok else .indexOutOfRange },
      exec_rename_next u name⟩
  | find name =>
    exact ⟨fun c st _ => match findName c.maxSlots st name with
      | some u => sigResponse .ok (indexField u) (signalAt c.maxSlots st u)
      | none => { status := .nameNotFound }, exec_find_next name⟩
  | clear | capen | capdis | ctrrst => exact ⟨fun _ _ _ => { status := .ok }, fun _ => rfl⟩
  | stat =>
    exact ⟨fun c st _ => { status := .ok, idx := indexField st.count, flags := flag0 (full c.maxSlots st) },
      exec_stat_next⟩
  | sends address key band p unit =>
    exact ⟨fun c _ _ => txResponse (makeTx c address band p unit), exec_sends address key band p unit⟩
  | sendr address key band =>
    exact ⟨fun c _ _ => txResponse (makeTx c address band (c.defaultProto.get band) (c.defaultUnit.get band)),
      exec_sendr address key band⟩
  | rdctr =>
    exact ⟨fun _ _ q => { status := .ok, flags := flag0 q.capMode, c0 := q.sendCount, c1 := q.receiveCount },
      exec_rdctr⟩
  | rdlrx => exact ⟨fun _ _ q => optionResponse q.lastReceived, exec_rdlrx⟩
  | rdlcap => exact ⟨fun _ _ q => optionResponse q.lastCaptured, exec_rdlcap⟩

/-- The handoffs after a result is delivered (R167): the sequencer writes none. -/
theorem onDecoded_hand (sig : Signal) (s : State) : (onDecoded sig s).hand = s.hand := by
  unfold onDecoded
  simp only
  split <;> rfl

/-- The ways a `POLL` ends: nothing was pending, or the pending result was taken and delivered (R167, R168). -/
theorem exec_poll_cases {b : Band} {s t : State} (h : exec (.poll b) s = .next t) :
    ((s.hand.get b).rdy = false ∧ t = s.respond { status := .none }) ∨
    ((s.hand.get b).rdy = true ∧ t.hand = s.hand.set b { (s.hand.get b) with rdy := false } ∧
      ∃ sig, sig.name = none ∧
        t.store = (if s.seq.capMode then (appendSignal s.cfg.maxSlots sig s.store).store else s.store) ∧
        t.seq = if s.seq.capMode then recordCaptured sig (recordReceived sig s.seq) else recordReceived sig s.seq) := by
  cases hready : (s.hand.get b).rdy with
  | false =>
    rw [exec_poll_idle hready] at h
    cases h
    exact .inl ⟨rfl, rfl⟩
  | true =>
    rw [exec_poll_ready hready] at h
    cases h
    exact .inr ⟨rfl, onDecoded_hand _ _, _, signalOf_name _ b, onDecoded_store _ _, onDecoded_seq _ _⟩

/-- What any operation does: a sample, a poll, or a command that writes the store and the sequencer at most. -/
theorem exec_cases {i : Instr} {s t : State} (h : exec i s = .next t) :
    (∃ b x, i = .feed b x ∧ t = feed b x s) ∨ (∃ b, i = .poll b) ∨
    (i.LeavesHandoffs ∧ ∃ r, t = ((s.setStore (storeAfter s.cfg s.store i)).setSeq (seqAfter s.seq i)).respond r) := by
  by_cases hfeed : ∃ b x, i = .feed b x
  · obtain ⟨b, x, rfl⟩ := hfeed
    cases h
    exact .inl ⟨b, x, rfl, rfl⟩
  by_cases hpoll : ∃ b, i = .poll b
  · exact .inr (.inl hpoll)
  have hi : i.LeavesHandoffs := ⟨fun b x h => hfeed ⟨b, x, h⟩, fun b h => hpoll ⟨b, h⟩⟩
  obtain ⟨r, hr⟩ := exec_of_leavesHandoffs hi
  rw [hr] at h
  cases h
  exact .inr (.inr ⟨hi, _, rfl⟩)

end Machine

end Sys2Proof
end

section
/-! PROOFS. The invariants: they hold after reset, every operation that a request can carry keeps them, and so does every step. -/

namespace Sys2Proof

/-- A value per band keeps a property when the value set has it. -/
theorem PerBand.forall_get_set {α : Type} {p : α → Prop} {x : PerBand α} {b : Band} {v : α} (hv : p v)
    (hx : ∀ b', p (x.get b')) (b' : Band) : p ((x.set b v).get b') := by
  rw [PerBand.get_set]
  split
  · exact hv
  · exact hx b'

/-- A well-formed `APPEND` carries a name that fits, if it carries one (R86). -/
theorem name_length_of_wellFormed_append {nameMax : Nat} {sig : Signal}
    (h : wellFormed nameMax (.append sig) = true) : ∀ name, sig.name = some name → name.length ≤ nameMax := by
  intro name hname
  simp only [wellFormed, hname] at h
  exact of_decide_eq_true h

namespace Machine

/-! ### The store and the sequencer (R32, R166, R167, R169) -/

/-- Without live signals the invariants are about the slots alone (R32). -/
theorem store_inv_of_count_eq_zero {c : Config} {st : Store} (hmax : 1 ≤ c.maxSlots) (hwidx : st.widx = 0)
    (hcount : st.count = 0) (hnames : ∀ p ∈ st.slots, ∀ name, p.2.name = some name → name.length ≤ c.nameMax)
    (hcanonical : st.slots.wf = true) (hinside : st.slots.Below c.maxSlots) : st.Inv c where
  widx_lt := by omega
  count_le := by omega
  written := by omega
  distinct := by omega
  names := hnames
  canonical := hcanonical
  inside := hinside

/-- Every well-formed command keeps the invariants of the store. -/
theorem storeAfter_inv {c : Config} {st : Store} {i : Instr} (h : st.Inv c) (hmax : 1 ≤ c.maxSlots)
    (hwf : wellFormed c.nameMax i = true) : (storeAfter c st i).Inv c := by
  cases i with
  | append sig => exact append_inv h hmax (name_length_of_wellFormed_append hwf)
  | remove u =>
    rw [storeAfter]
    split
    next hvalid =>
      obtain ⟨hu, hle⟩ := validIndex_iff.mp hvalid
      exact remove_inv h hu hle
    next => exact h
  | rename u name =>
    rw [storeAfter]
    split
    next hvalid =>
      obtain ⟨hu, hle⟩ := validIndex_iff.mp hvalid
      exact rename_inv h hu hle (of_decide_eq_true hwf)
    next => exact h
  | clear => exact store_inv_of_count_eq_zero hmax rfl rfl h.names h.canonical h.inside
  | _ => exact h

/-- Every command that touches no handoff keeps the invariants of the sequencer; `CAPEN` forgets what was captured. -/
theorem seqAfter_inv {q : Sequencer} (h : q.Inv) (i : Instr) : (seqAfter q i).Inv := by
  cases i with
  | capen => exact ⟨h.received, nofun, fun _ => rfl⟩
  | capdis => exact ⟨h.received, h.captured, nofun⟩
  | sends | sendr | ctrrst => exact ⟨h.received, h.captured, h.armed⟩
  | _ => exact h

theorem recordReceived_inv {q : Sequencer} (h : q.Inv) {sig : Signal} (hname : sig.name = none) :
    (recordReceived sig q).Inv :=
  ⟨fun _ hsig => Option.some_inj.mp hsig ▸ hname, h.captured, h.armed⟩

theorem recordCaptured_inv {q : Sequencer} (h : q.Inv) {sig : Signal} (hname : sig.name = none) :
    (recordCaptured sig q).Inv :=
  ⟨h.received, fun _ hsig => Option.some_inj.mp hsig ▸ hname, nofun⟩

/-- A handoff with nothing pending meets the invariants. -/
theorem handoff_inv_of_not_rdy {c : Config} {h : Handoff} (hrdy : h.rdy = false) : h.Inv c :=
  have himp {p : Prop} (hr : h.rdy = true) : p := absurd hr (by simp [hrdy])
  ⟨himp, himp, himp⟩

/-! ### The operations -/

/-- A state whose parts are those of a state that meets the invariants meets them; the ports take no part. -/
theorem State.Inv.congr {s t : State} (h : s.Inv) (hcfg : t.cfg = s.cfg) (hdec : t.dec = s.dec)
    (hhand : t.hand = s.hand) (hstore : t.store = s.store) (hseq : t.seq = s.seq) : t.Inv := by
  obtain ⟨hsized, hdecs, hhands, hstores, hseqs⟩ := h
  refine ⟨?_, ?_, ?_, ?_, ?_⟩
  all_goals simpa only [hcfg, hdec, hhand, hstore, hseq]

/-- A sample keeps the invariants: it writes its band's decoder and handoff at most. -/
theorem feed_inv {s : State} (h : s.Inv) (b : Band) (x : Duration) : (feed b x s).Inv := by
  obtain ⟨hcfg, hdec, hhand, hstore, hseq, -⟩ := feed_fields b x s
  refine ⟨hcfg ▸ h.sized, ?decoders, ?handoffs, ?store, hseq ▸ h.seq⟩
  case decoders =>
    rw [hcfg, hdec]
    exact PerBand.forall_get_set (feed_dec_inv h.sized (h.dec b)) h.dec
  case handoffs =>
    rw [hcfg, hhand]
    cases hresult : feedResult s.cfg b (s.dec.get b) x with
    | none => exact h.hand
    | some r => exact PerBand.forall_get_set (feed_hand_inv h.sized (h.dec b) hresult) h.hand
  case store =>
    rw [hcfg, hstore]
    exact h.store

/-- A poll keeps the invariants: a received signal has no name, and a capture disarms. -/
theorem poll_inv {s t : State} {b : Band} (h : s.Inv) (ht : exec (.poll b) s = .next t) : t.Inv := by
  obtain ⟨-, rfl⟩ | ⟨-, hhand, sig, hname, hstore, hseq⟩ := exec_poll_cases ht
  · exact h.congr rfl rfl rfl rfl rfl
  have hframe := exec_command_frame (i := .poll b) nofun ht
  refine ⟨hframe.cfg ▸ h.sized, ?decoders, ?handoffs, ?store, ?sequencer⟩
  case decoders =>
    rw [hframe.cfg, hframe.dec]
    exact h.dec
  case handoffs =>
    rw [hframe.cfg, hhand]
    exact PerBand.forall_get_set (handoff_inv_of_not_rdy rfl) h.hand
  case store =>
    rw [hframe.cfg, hstore]
    split
    · exact append_inv h.store h.sized.max_ge (by simp [hname])
    · exact h.store
  case sequencer =>
    have hreceived := recordReceived_inv h.seq hname
    rw [hseq]
    split
    · exact recordCaptured_inv hreceived hname
    · exact hreceived

/-- Every well-formed operation keeps the invariants. -/
theorem exec_inv {i : Instr} {s t : State} (h : s.Inv) (hwf : wellFormed s.cfg.nameMax i = true)
    (ht : exec i s = .next t) : t.Inv := by
  obtain ⟨b, x, -, rfl⟩ | ⟨b, rfl⟩ | ⟨-, r, rfl⟩ := exec_cases ht
  · exact feed_inv h b x
  · exact poll_inv h ht
  · exact ⟨h.sized, h.dec, h.hand, storeAfter_inv h.store h.sized.max_ge hwf, seqAfter_inv h.seq i⟩

/-- Settles O11: taking a request and refusing it write no part of the invariants, and a decoded operation is
well-formed. -/
theorem stepKeepsTheInvariants : Obligations.StepKeepsTheInvariants := by
  intro s t h ht
  obtain ⟨hcfg, hdec, hhand, hstore, hseq, -, -⟩ := fetch_frame s
  have htaken : (fetch s).2.Inv := h.congr hcfg hdec hhand hstore hseq
  obtain ⟨-, hstep⟩ | ⟨_, _, -, -, hstep⟩ | ⟨r, i, -, hdecode, hstep⟩ := step_cases s
  · cases hstep.symm.trans ht
    exact htaken
  · cases hstep.symm.trans ht
    exact htaken.congr rfl rfl rfl rfl rfl
  · have hwf := (decodedInstructionsAreWellFormed _ _ _ hdecode).1
    exact exec_inv htaken (hcfg ▸ hwf) (hstep.symm.trans ht)

/-! ### The platform's configuration (R6, R8, R43) -/

theorem platform_sized : Config.platform.Sized where
  cap_ge := by decide
  cap_le := by decide
  max_ge := by decide
  max_le := by decide
  tolerance_le := by decide
  separation_lt := by decide
  sync_lt := by decide
  minPairs_le := by decide
  nameMax_le := Nat.le_of_lt_succ Config.openNameMax.isLt

@[simp] theorem openTable_length : Config.openTable.length = Config.openLast.val + 1 := by
  simp [Config.openTable]

/-- A positive 16-bit number, cut into two bytes, has a byte that is not 0 (R43). -/
theorem openProtocol_sync (k : Nat) :
    1 ≤ max (Config.openProtocol k).sync.high.toNat (Config.openProtocol k).sync.low.toNat := by
  have hlt := (Config.openSync k).isLt
  simp only [Config.openProtocol, BitVec.toNat_ofNat]
  omega

theorem platform_tableOk : Config.platform.TableOk where
  size_ge := openTable_length.ge.trans' (Nat.le_add_left 1 _)
  size_le := openTable_length.trans_le Config.openLast.isLt
  ids := by
    intro k P hP
    have hlast := Config.openLast.isLt
    obtain ⟨hk, rfl⟩ : k < Config.openLast.val + 1 ∧ Config.openProtocol k = P := by
      simpa [Config.platform, Config.openTable, List.getElem?_eq_some_iff] using hP
    exact Nat.mod_eq_of_lt (by omega)
  sync := by
    intro P hP
    obtain ⟨k, -, rfl⟩ := List.mem_map.mp hP
    exact openProtocol_sync k

/-- A default id of the platform is an id of its table (R6). -/
theorem openDefaultId_toNat (b : Band) : (Config.openDefaultId b).toNat = (Config.openDefaultProto b).val + 1 := by
  have hlast := Config.openLast.isLt
  have hdefault := (Config.openDefaultProto b).isLt
  exact Nat.mod_eq_of_lt (by omega)

theorem openDefaultId_in_table (b : Band) :
    1 ≤ (Config.openDefaultId b).toNat ∧ (Config.openDefaultId b).toNat ≤ Config.openTable.length := by
  rw [openDefaultId_toNat, openTable_length]
  exact ⟨Nat.le_add_left 1 _, (Config.openDefaultProto b).isLt⟩

/-- Settles O52: the open parameters meet the constraints by their types. -/
theorem resetConfigurationIsLegal : Obligations.ResetConfigurationIsLegal where
  sized := platform_sized
  table := platform_tableOk
  defaults :=
    { b433_ge := (openDefaultId_in_table .b433).1
      b433_le := (openDefaultId_in_table .b433).2
      b315_ge := (openDefaultId_in_table .b315).1
      b315_le := (openDefaultId_in_table .b315).2 }

/-! ### Reset (R270 to R277) -/

/-- An empty decoder meets the invariants. -/
theorem decoder_reset_inv {c : Config} (h : c.Sized) : Decoder.reset.Inv c where
  cc_lt := (Nat.zero_lt_two).trans_le h.cap_ge
  rc_le := Nat.zero_le _
  gap := nofun
  written := nofun
  canonical := rfl
  inside := nofun

theorem resetWith_inv {c : Config} (h : c.Sized) : (State.resetWith c).Inv where
  sized := h
  dec b := by rw [State.resetWith_dec_get]; exact decoder_reset_inv h
  hand b := by rw [State.resetWith_hand_get]; exact handoff_inv_of_not_rdy rfl
  store := store_inv_of_count_eq_zero h.max_ge rfl rfl nofun rfl nofun
  seq := ⟨nofun, nofun, nofun⟩

/-- Settles O12: empty parts meet the invariants, and the platform's configuration is sized. -/
theorem resetMeetsTheInvariants : Obligations.ResetMeetsTheInvariants :=
  ⟨fun _ h => resetWith_inv h, resetWith_inv platform_sized⟩

end Machine

end Sys2Proof
end

section
/-! PROOFS. A sample as one update of its band's decoder, handoff and edge response, and how that update commutes with others. -/

namespace Sys2Proof.Machine

/-- Decoder `b` becomes `d`, handoff `b` becomes `h`, and edge port `b` answers `r`: all that a sample can write (R46). -/
def State.edgeWrite (s : State) (b : Band) (d : Decoder) (h : Handoff) (r : EdgeResponse) : State :=
  ((s.setDec b d).setHand b h).respondEdge b r

/-- A handoff after a sample: a result, if there is one, is published over what was pending (R117, R118). -/
def Handoff.afterResult (h : Handoff) : Option DecodeResult → Handoff
  | some r => { rdy := true, shadow := r }
  | none => h

/-- A sample is one such update (R111). -/
theorem feed_eq_edgeWrite (b : Band) (x : Duration) (s : State) :
    feed b x s = s.edgeWrite b (feedDecoder s.cfg b (s.dec.get b) x)
      ((s.hand.get b).afterResult (feedResult s.cfg b (s.dec.get b) x))
      (edgeResponse (feedResult s.cfg b (s.dec.get b) x)) := by
  obtain ⟨hcfg, hdec, -, hstore, hseq, hports⟩ := feed_fields b x s
  refine State.ext_fields hcfg hdec ?_ hstore hseq hports
  rw [feed, State.respondEdge_hand, deliver_hand_set]
  rfl

section other

variable {b a : Band} {d : Decoder} {h : Handoff} {r : EdgeResponse} (s : State) (d' : Decoder) (hne : b ≠ a)
include hne

theorem State.edgeWrite_dec_other : (s.edgeWrite a d h r).dec.get b = s.dec.get b :=
  PerBand.get_set_other _ _ hne

theorem State.edgeWrite_hand_other : (s.edgeWrite a d h r).hand.get b = s.hand.get b :=
  PerBand.get_set_other _ _ hne

theorem State.setDec_edgeWrite_other : (s.setDec b d').edgeWrite a d h r = (s.edgeWrite a d h r).setDec b d' :=
  State.ext_fields rfl (PerBand.set_comm _ _ _ hne) rfl rfl rfl rfl

theorem State.edgeWrite_edgeWrite_other (h' : Handoff) (r' : EdgeResponse) :
    (s.edgeWrite b d' h' r').edgeWrite a d h r = (s.edgeWrite a d h r).edgeWrite b d' h' r' :=
  State.ext_fields rfl (PerBand.set_comm _ _ _ hne) (PerBand.set_comm _ _ _ hne) rfl rfl
    (congrArg (fun out => { s.ports with edgeOut := out }) (PerBand.set_comm _ _ _ hne))

end other

/-- The update overwrites what the band's decoder was. -/
theorem State.setDec_edgeWrite_same (s : State) (b : Band) (d' d : Decoder) (h : Handoff) (r : EdgeResponse) :
    (s.setDec b d').edgeWrite b d h r = s.edgeWrite b d h r :=
  State.ext_fields rfl (PerBand.set_set _ _ _ _) rfl rfl rfl rfl

/-- Overwriting the band's decoder afterwards is the update with that decoder. -/
theorem State.edgeWrite_setDec_same (s : State) (b : Band) (d' d : Decoder) (h : Handoff) (r : EdgeResponse) :
    (s.edgeWrite b d h r).setDec b d' = s.edgeWrite b d' h r :=
  State.ext_fields rfl (PerBand.set_set _ _ _ _) rfl rfl rfl rfl

end Sys2Proof.Machine
end

section
/-! PROOFS. Entries of a timing buffer outside the capture window: no sample reads one, and no command reads a decoder. -/

namespace Sys2Proof.Machine

/-! ### One decoder (R24, R49) -/

section stale

variable {c : Config} {b : Band} {d : Decoder} {m : Memory Duration}

/-- An entry of the window reads the same in a buffer that agrees on the window. -/
theorem timingAt_of_agree (hm : ∀ i, i < d.cc → m.read? i = d.timing.read? i) {i : Nat} (hi : i < d.cc) :
    timingAt b { d with timing := m } i = timingAt b d i := by
  rw [timingAt, timingAt, hm i hi]

theorem window_of_agree (hm : ∀ i, i < d.cc → m.read? i = d.timing.read? i) :
    window b { d with timing := m } = window b d :=
  List.map_congr_left fun _ hi => timingAt_of_agree hm (List.mem_range.mp hi)

variable (hinv : d.Inv c) (hm : ∀ i, i < d.cc → m.read? i = d.timing.read? i)
include hinv hm

/-- A gap is compared with entry 0 only while synced, and then entry 0 is in the window (R23 (c), R113). -/
theorem gapCounts_of_agree (x : Duration) : gapCounts c b { d with timing := m } x = gapCounts c b d x := by
  obtain hrc | hrc : d.rc = 0 ∨ d.rc = 1 := by have := hinv.rc_le; omega
  · simp [gapCounts, hrc]
  · have hzero : timingAt b { d with timing := m } 0 = timingAt b d 0 := timingAt_of_agree hm (hinv.gap hrc).1
    simp only [gapCounts, hzero]

theorem gapCloses_of_agree (x : Duration) : gapCloses c b { d with timing := m } x = gapCloses c b d x := by
  simp only [gapCloses, gapCounts_of_agree hinv hm]

theorem gapRepeat_of_agree (x : Duration) : gapRepeat c b { d with timing := m } x = gapRepeat c b d x := by
  simp only [gapRepeat, gapCloses_of_agree hinv hm, gapCounts_of_agree hinv hm]

theorem feedResult_of_agree (x : Duration) : feedResult c b { d with timing := m } x = feedResult c b d x := by
  simp only [feedResult, gapCloses_of_agree hinv hm, window_of_agree hm]

/-- After a sample the two decoders again differ outside the window at most: a gap starts a window of its own entry, and
a data edge writes the entry after the window (R115, R116). -/
theorem feedDecoder_of_agree (x : Duration) :
    ∃ m', feedDecoder c b { d with timing := m } x = { feedDecoder c b d x with timing := m' } ∧
      ∀ i, i < (feedDecoder c b d x).cc → m'.read? i = (feedDecoder c b d x).timing.read? i := by
  obtain hgap | hdata := Nat.lt_or_ge c.separationLimitUs x.toNat
  · rw [feedDecoder_of_gap hgap, feedDecoder_of_gap hgap]
    refine ⟨m.write 0 x, by simp only [gapStep, gapRepeat_of_agree hinv hm], fun i hi => ?_⟩
    obtain rfl : i = 0 := Nat.lt_one_iff.mp hi
    simp only [gapStep, Memory.read?_write_same]
  · rw [feedDecoder_of_data hdata, feedDecoder_of_data hdata]
    refine ⟨m.write d.cc x, rfl, fun i hi => ?_⟩
    have hle : i ≤ d.cc := by simp only [dataStep] at hi; split at hi <;> omega
    simp only [dataStep, Memory.read?_write]
    split
    · rfl
    · exact hm i (by omega)

end stale

/-! ### The operations (R49) -/

/-- The other state of `SameWindow`: decoder `b` with another timing buffer. -/
def State.withTiming (s : State) (b : Band) (m : Memory Duration) : State :=
  s.setDec b { s.dec.get b with timing := m }

@[simp] theorem State.withTiming_dec_same (s : State) (b : Band) (m : Memory Duration) :
    (s.withTiming b m).dec.get b = { s.dec.get b with timing := m } := PerBand.get_set_same _ _ _

/-- A sample of another band does not see the buffer. -/
theorem feed_withTiming_other {b a : Band} (h : b ≠ a) (x : Duration) (s : State) (m : Memory Duration) :
    feed a x (s.withTiming b m) = (feed a x s).withTiming b m := by
  have hget : (s.withTiming b m).dec.get a = s.dec.get a := PerBand.get_set_other _ _ (Ne.symm h)
  rw [feed_eq_edgeWrite, feed_eq_edgeWrite, hget, State.withTiming, State.withTiming, State.edgeWrite_dec_other _ h]
  exact State.setDec_edgeWrite_other s _ h

/-- A sample of the band itself reads the window alone. -/
theorem feed_withTiming_same {b : Band} {s : State} (hinv : (s.dec.get b).Inv s.cfg) (x : Duration)
    {m : Memory Duration} (hm : ∀ i, i < (s.dec.get b).cc → m.read? i = (s.dec.get b).timing.read? i) :
    SameWindow b (feed b x s) (feed b x (s.withTiming b m)) := by
  obtain ⟨m', hfeed, hm'⟩ := feedDecoder_of_agree (b := b) hinv hm x
  refine ⟨m', ?_, by rwa [feed_dec_get]⟩
  have hcfg : (s.withTiming b m).cfg = s.cfg := rfl
  have hhand : (s.withTiming b m).hand = s.hand := rfl
  rw [feed_eq_edgeWrite b x (s.withTiming b m), hcfg, hhand, State.withTiming_dec_same, hfeed,
    feedResult_of_agree hinv hm, State.withTiming, State.setDec_edgeWrite_same, feed_dec_get, feed_eq_edgeWrite,
    State.edgeWrite_setDec_same]

/-- No command reads or writes a decoder (R46). -/
theorem exec_command_withTiming {i : Instr} (hi : ∀ b x, i ≠ .feed b x) {s t : State} (ht : exec i s = .next t)
    (b : Band) (m : Memory Duration) : exec i (s.withTiming b m) = .next (t.withTiming b m) := by
  obtain ⟨f, hf⟩ := exec_command i hi
  rw [hf] at ht ⊢
  cases ht
  rfl

/-- Settles O21: a sample of the band reads its window alone, one of the other band and a command no entry at all. -/
theorem entriesOutsideTheWindowNeverMatter : Obligations.EntriesOutsideTheWindowNeverMatter := by
  rintro b i s _ t t' hinv ⟨m, rfl, hm⟩ ht ht'
  by_cases hfeed : ∃ a x, i = .feed a x
  · obtain ⟨a, x, rfl⟩ := hfeed
    cases ht
    cases ht'
    by_cases hab : a = b
    · subst hab
      exact feed_withTiming_same (hinv.dec a) x hm
    · refine ⟨m, feed_withTiming_other (Ne.symm hab) x s m, ?_⟩
      rwa [(feed_frame a x s).dec b (Ne.symm hab)]
  · have hcommand : ∀ b x, i ≠ .feed b x := fun b x h => hfeed ⟨b, x, h⟩
    have hdec : t.dec = s.dec := (exec_command_frame hcommand ht).dec
    cases (exec_command_withTiming hcommand ht b m).symm.trans ht'
    exact ⟨m, rfl, by rwa [hdec]⟩

end Sys2Proof.Machine
end

section
/-! PROOFS. Operations of different agents commute: two samples of different bands, and a sample with every command that does not take the handoff it publishes to. -/

namespace Sys2Proof.Machine

/-- Two operations, each of which answers a next state. -/
theorem execAll_pair {i j : Instr} {s t u : State} (hi : exec i s = .next t) (hj : exec j t = .next u) :
    execAll [i, j] s = .next u :=
  (execAll_cons_next hi).trans (execAll_cons_next hj)

/-- A sample writes the same wherever the configuration and its band's decoder and handoff are the same. -/
theorem feed_eq_edgeWrite_of_same {b : Band} {s t : State} (x : Duration) (hcfg : t.cfg = s.cfg)
    (hdec : t.dec.get b = s.dec.get b) (hhand : t.hand.get b = s.hand.get b) :
    feed b x t = t.edgeWrite b (feedDecoder s.cfg b (s.dec.get b) x)
      ((s.hand.get b).afterResult (feedResult s.cfg b (s.dec.get b) x))
      (edgeResponse (feedResult s.cfg b (s.dec.get b) x)) := by
  rw [feed_eq_edgeWrite, hcfg, hdec, hhand]

/-- Samples of different bands commute (R73). -/
theorem feed_feed_other {a b : Band} (hne : a ≠ b) (x y : Duration) (s : State) :
    feed b y (feed a x s) = feed a x (feed b y s) := by
  have ha := feed_frame a x s
  have hb := feed_frame b y s
  rw [feed_eq_edgeWrite_of_same y ha.cfg (ha.dec b hne.symm) (ha.hand b hne.symm), feed_eq_edgeWrite a x s,
    feed_eq_edgeWrite_of_same x hb.cfg (hb.dec a hne) (hb.hand a hne), feed_eq_edgeWrite b y s,
    State.edgeWrite_edgeWrite_other _ _ hne]

/-! ### A sample and a command (R73, R253) -/

/-- Delivering a result and the update of a sample commute. -/
theorem onDecoded_edgeWrite (sig : Signal) (s : State) (b : Band) (d : Decoder) (h : Handoff) (r : EdgeResponse) :
    onDecoded sig (s.edgeWrite b d h r) = (onDecoded sig s).edgeWrite b d h r := by
  cases hmode : s.seq.capMode with
  | false => rw [onDecoded_idle sig hmode, onDecoded_idle sig (s := s.edgeWrite b d h r) hmode]; rfl
  | true => rw [onDecoded_armed sig hmode, onDecoded_armed sig (s := s.edgeWrite b d h r) hmode]; rfl

/-- Taking another band's result and the update of a sample commute. -/
theorem edgeWrite_setHand_other {a b : Band} (hne : b ≠ a) (s : State) (d : Decoder) (h h' : Handoff)
    (r : EdgeResponse) : (s.edgeWrite b d h r).setHand a h' = (s.setHand a h').edgeWrite b d h r :=
  State.ext_fields rfl rfl (PerBand.set_comm _ _ _ hne) rfl rfl rfl

/-- A poll of another band does the same after the update of a sample. -/
theorem exec_poll_edgeWrite {a b : Band} (hne : b ≠ a) {s t : State} (ht : exec (.poll a) s = .next t) (d : Decoder)
    (h : Handoff) (r : EdgeResponse) : exec (.poll a) (s.edgeWrite b d h r) = .next (t.edgeWrite b d h r) := by
  have hhand : (s.edgeWrite b d h r).hand.get a = s.hand.get a := State.edgeWrite_hand_other s (Ne.symm hne)
  cases hready : (s.hand.get a).rdy with
  | false =>
    cases (exec_poll_idle hready).symm.trans ht
    exact exec_poll_idle (hhand ▸ hready)
  | true =>
    cases (exec_poll_ready hready).symm.trans ht
    rw [exec_poll_ready (hhand ▸ hready), hhand, edgeWrite_setHand_other hne, onDecoded_edgeWrite]

/-- Every command but the band's `POLL` does the same after the update of a sample. -/
theorem exec_edgeWrite {i : Instr} {b : Band} (hcommand : ∀ a x, i ≠ .feed a x) (hpoll : i ≠ .poll b) {s t : State}
    (ht : exec i s = .next t) (d : Decoder) (h : Handoff) (r : EdgeResponse) :
    exec i (s.edgeWrite b d h r) = .next (t.edgeWrite b d h r) := by
  by_cases hother : ∃ a, i = .poll a
  · obtain ⟨a, rfl⟩ := hother
    exact exec_poll_edgeWrite (fun hba => hpoll (congrArg _ hba.symm)) ht d h r
  · obtain ⟨answer, hexec⟩ := exec_of_leavesHandoffs ⟨hcommand, fun a ha => hother ⟨a, ha⟩⟩
    cases (hexec s).symm.trans ht
    exact hexec _

/-- A command writes no handoff but that of the band it polls (R46). -/
theorem exec_command_hand {i : Instr} {b : Band} (hcommand : ∀ a x, i ≠ .feed a x) (hpoll : i ≠ .poll b) {s t : State}
    (ht : exec i s = .next t) : t.hand.get b = s.hand.get b := by
  obtain ⟨a, x, rfl, -⟩ | ⟨a, rfl⟩ | ⟨-, r, rfl⟩ := exec_cases ht
  · exact absurd rfl (hcommand a x)
  · obtain ⟨-, rfl⟩ | ⟨-, hhand, -⟩ := exec_poll_cases ht
    · rfl
    · rw [hhand, PerBand.get_set_other _ _ fun hba => hpoll (congrArg _ hba.symm)]
  · rfl

/-- A sample without a result leaves the handoff alone. -/
theorem feed_of_no_result {b : Band} {x : Duration} {s t : State} (hcfg : t.cfg = s.cfg) (hdec : t.dec = s.dec)
    (h : feedResult s.cfg b (s.dec.get b) x = none) :
    feed b x t = (t.setDec b (feedDecoder s.cfg b (s.dec.get b) x)).respondEdge b (edgeResponse none) := by
  simp only [feed, hcfg, hdec, h, deliver_none]

/-- No command, not even the band's `POLL`, reads or writes what such a sample writes (R46). -/
theorem exec_command_setDec_respondEdge {i : Instr} (hcommand : ∀ a x, i ≠ .feed a x) {s t : State}
    (ht : exec i s = .next t) (b : Band) (d : Decoder) (r : EdgeResponse) :
    exec i ((s.setDec b d).respondEdge b r) = .next ((t.setDec b d).respondEdge b r) := by
  obtain ⟨f, hf⟩ := exec_command i hcommand
  cases (hf s).symm.trans ht
  exact hf _

/-- An edge response without a result says so. -/
theorem edgeResponse_not_valid {o : Option DecodeResult} (h : (edgeResponse o).valid = false) : o = none := by
  cases o with
  | none => rfl
  | some r => cases h

/-- Settles O20: a sample is one update of parts that the other operation neither reads nor writes; without a result the
handoff is not among them. -/
theorem operationsOfDifferentAgentsCommute : Obligations.OperationsOfDifferentAgentsCommute := by
  refine ⟨?feeds, ?commands, ?silent⟩
  case feeds =>
    intro s x y
    rw [execAll_pair (exec_feed .b433 x s) (exec_feed .b315 y _), feed_feed_other (a := .b433) (b := .b315) nofun x y s]
    exact (execAll_pair (exec_feed .b315 y s) (exec_feed .b433 x _)).symm
  case commands =>
    intro s b x i hcommand hpoll
    obtain ⟨t, ht⟩ := exec_completes i s
    have hframe := exec_command_frame hcommand ht
    have hafter := exec_edgeWrite hcommand hpoll ht (feedDecoder s.cfg b (s.dec.get b) x)
      ((s.hand.get b).afterResult (feedResult s.cfg b (s.dec.get b) x))
      (edgeResponse (feedResult s.cfg b (s.dec.get b) x))
    rw [← feed_eq_edgeWrite, ← feed_eq_edgeWrite_of_same x hframe.cfg (by rw [hframe.dec])
      (exec_command_hand hcommand hpoll ht)] at hafter
    rw [execAll_pair (exec_feed b x s) hafter, execAll_pair ht (exec_feed b x t)]
  case silent =>
    rintro s _ b x ⟨⟩ hquiet _
    have hnone : feedResult s.cfg b (s.dec.get b) x = none := by
      obtain ⟨-, -, -, -, -, hports⟩ := feed_fields b x s
      rw [hports, PerBand.get_set_same] at hquiet
      exact edgeResponse_not_valid (congrArg EdgeResponse.valid (Option.some_inj.mp hquiet))
    obtain ⟨u, hu⟩ := exec_completes (.poll b) s
    have hframe := exec_command_frame (i := .poll b) nofun hu
    have hafter := exec_command_setDec_respondEdge (i := .poll b) nofun hu b (feedDecoder s.cfg b (s.dec.get b) x)
      (edgeResponse none)
    rw [← feed_of_no_result rfl rfl hnone, ← feed_of_no_result hframe.cfg hframe.dec hnone] at hafter
    rw [execAll_pair (exec_feed b x s) hafter, execAll_pair hu (exec_feed b x u)]

end Sys2Proof.Machine
end

section
/-! PROOFS. Who writes what: a command's writes register by register, and the statements over all operations about the capture mode, the counters, the reading commands and ownership. -/

namespace Sys2Proof.Machine

/-! ### What a command that touches no handoff writes (R46) -/

theorem storeAfter_ne {c : Config} {st : Store} {i : Instr} (h : storeAfter c st i ≠ st) :
    (∃ sig, i = .append sig) ∨ (∃ u, i = .remove u) ∨ (∃ u name, i = .rename u name) ∨ i = .clear := by
  cases i with
  | append sig => exact .inl ⟨sig, rfl⟩
  | remove u => exact .inr (.inl ⟨u, rfl⟩)
  | rename u name => exact .inr (.inr (.inl ⟨u, name, rfl⟩))
  | clear => exact .inr (.inr (.inr rfl))
  | _ => exact absurd rfl h

@[simp] theorem seqAfter_lastReceived (q : Sequencer) (i : Instr) : (seqAfter q i).lastReceived = q.lastReceived := by
  cases i <;> rfl

theorem seqAfter_lastCaptured_ne {q : Sequencer} {i : Instr} (h : (seqAfter q i).lastCaptured ≠ q.lastCaptured) :
    i = .capen := by
  cases i with
  | capen => rfl
  | _ => exact absurd rfl h

theorem seqAfter_sendCount_ne {q : Sequencer} {i : Instr} (h : (seqAfter q i).sendCount ≠ q.sendCount) :
    i = .ctrrst ∨ (∃ a k b p u, i = .sends a k b p u) ∨ ∃ a k b, i = .sendr a k b := by
  cases i with
  | ctrrst => exact .inl rfl
  | sends a k b p u => exact .inr (.inl ⟨a, k, b, p, u, rfl⟩)
  | sendr a k b => exact .inr (.inr ⟨a, k, b, rfl⟩)
  | _ => exact absurd rfl h

theorem seqAfter_receiveCount_ne {q : Sequencer} {i : Instr} (h : (seqAfter q i).receiveCount ≠ q.receiveCount) :
    i = .ctrrst := by
  cases i with
  | ctrrst => rfl
  | _ => exact absurd rfl h

theorem seqAfter_capMode_ne {q : Sequencer} {i : Instr} (h : (seqAfter q i).capMode ≠ q.capMode) :
    (i = .capen ∧ (seqAfter q i).capMode = true) ∨ (i = .capdis ∧ (seqAfter q i).capMode = false) := by
  cases i with
  | capen => exact .inl ⟨rfl, rfl⟩
  | capdis => exact .inr ⟨rfl, rfl⟩
  | _ => exact absurd rfl h

/-- A saturating count does not fall (R179). -/
theorem le_satInc (c : BitVec 32) : c.toNat ≤ (satInc c).toNat := by
  have := c.isLt
  rw [satInc_toNat]
  omega

theorem seqAfter_sendCount_le {i : Instr} (hi : i ≠ .ctrrst) (q : Sequencer) :
    q.sendCount.toNat ≤ (seqAfter q i).sendCount.toNat := by
  cases i with
  | ctrrst => exact absurd rfl hi
  | sends | sendr => exact le_satInc q.sendCount
  | _ => exact Nat.le_refl _

theorem seqAfter_receiveCount {i : Instr} (hi : i ≠ .ctrrst) (q : Sequencer) :
    (seqAfter q i).receiveCount = q.receiveCount :=
  by_contra fun h => hi (seqAfter_receiveCount_ne h)

/-! ### What a poll writes (R167, R168) -/

theorem poll_sendCount {b : Band} {s t : State} (ht : exec (.poll b) s = .next t) :
    t.seq.sendCount = s.seq.sendCount := by
  obtain ⟨-, rfl⟩ | ⟨-, -, sig, -, -, hseq⟩ := exec_poll_cases ht
  · rfl
  · rw [hseq]
    split <;> rfl

theorem poll_receiveCount_le {b : Band} {s t : State} (ht : exec (.poll b) s = .next t) :
    s.seq.receiveCount.toNat ≤ t.seq.receiveCount.toNat := by
  obtain ⟨-, rfl⟩ | ⟨-, -, sig, -, -, hseq⟩ := exec_poll_cases ht
  · exact Nat.le_refl _
  · rw [hseq]
    split <;> exact le_satInc s.seq.receiveCount

/-- A poll changes the capture mode only by delivering, and then it disarms (R178). -/
theorem poll_capMode_ne {b : Band} {s t : State} (ht : exec (.poll b) s = .next t)
    (h : t.seq.capMode ≠ s.seq.capMode) : (s.hand.get b).rdy = true ∧ t.seq.capMode = false := by
  obtain ⟨-, rfl⟩ | ⟨hready, -, sig, -, -, hseq⟩ := exec_poll_cases ht
  · exact absurd rfl h
  · refine ⟨hready, ?_⟩
    rw [hseq] at h ⊢
    split at h
    next harmed => rw [if_pos harmed]; rfl
    next => exact absurd rfl h

/-! ### The capture mode (R165, R178) -/

/-- The three operations that change the capture mode, and what they change it to. -/
theorem exec_capMode_ne {i : Instr} {s t : State} (ht : exec i s = .next t) (h : t.seq.capMode ≠ s.seq.capMode) :
    (i = .capen ∧ t.seq.capMode = true) ∨
    ((i = .capdis ∨ ∃ b, i = .poll b ∧ (s.hand.get b).rdy = true) ∧ t.seq.capMode = false) := by
  obtain ⟨b, x, -, rfl⟩ | ⟨b, rfl⟩ | ⟨-, r, rfl⟩ := exec_cases ht
  · exact absurd (congrArg Sequencer.capMode (feed_frame b x s).seq) h
  · obtain ⟨hready, hoff⟩ := poll_capMode_ne ht h
    exact .inr ⟨.inr ⟨b, rfl, hready⟩, hoff⟩
  · exact (seqAfter_capMode_ne h).imp_right (And.imp_left .inl)

/-- A sample does not read the sequencer (R165). -/
theorem feed_setSeq (b : Band) (x : Duration) (s : State) (q : Sequencer) :
    feed b x (s.setSeq q) = (feed b x s).setSeq q := by
  rw [feed_eq_edgeWrite, feed_eq_edgeWrite]
  rfl

/-- Settles O30: each of the operations that change the mode changes it one way. -/
theorem captureModeChangesOnlyAsTheSpecSays : Obligations.CaptureModeChangesOnlyAsTheSpecSays := by
  refine ⟨fun s t i ht => ⟨fun hoff hon => ?set, fun hon hoff => ?cleared⟩, ?decoders⟩
  case set =>
    obtain ⟨hi, -⟩ | ⟨-, hoff'⟩ := exec_capMode_ne ht (by simp [hoff, hon])
    · exact hi
    · simp [hon] at hoff'
  case cleared =>
    obtain ⟨-, hon'⟩ | ⟨hi, -⟩ := exec_capMode_ne ht (by simp [hoff, hon])
    · simp [hoff] at hon'
    · exact hi
  case decoders =>
    rintro s _ _ b x q ⟨⟩ ht'
    cases ((exec_feed b x (s.setSeq q)).trans (congrArg _ (feed_setSeq b x s q))).symm.trans ht'
    exact ⟨rfl, rfl, rfl⟩

/-! ### The counters (R33, R34, R179) -/

/-- Settles O34: a count is kept or saturates upwards. -/
theorem countersAreMonotonic : Obligations.CountersAreMonotonic := by
  intro s t i ht hi
  obtain ⟨b, x, -, rfl⟩ | ⟨b, rfl⟩ | ⟨-, r, rfl⟩ := exec_cases ht
  · rw [(feed_frame b x s).seq]
    exact ⟨Nat.le_refl _, Nat.le_refl _⟩
  · exact ⟨(congrArg BitVec.toNat (poll_sendCount ht)).ge, poll_receiveCount_le ht⟩
  · exact ⟨seqAfter_sendCount_le hi s.seq, (congrArg BitVec.toNat (seqAfter_receiveCount hi s.seq)).ge⟩

/-! ### The reading commands (R68) -/

/-- The reading commands write neither the store nor the sequencer. -/
theorem reading_writes_nothing {i : Instr}
    (h : (∃ u, i = .get u) ∨ (∃ name, i = .find name) ∨ i = .stat ∨ i = .rdctr ∨ i = .rdlrx ∨ i = .rdlcap) :
    i.LeavesHandoffs ∧ (∀ c st, storeAfter c st i = st) ∧ ∀ q, seqAfter q i = q := by
  obtain ⟨u, rfl⟩ | ⟨name, rfl⟩ | rfl | rfl | rfl | rfl := h
  all_goals exact ⟨⟨nofun, nofun⟩, fun _ _ => rfl, fun _ => rfl⟩

/-- Settles O35: the answer depends on parts of the state that the answer is not among. -/
theorem readingCommandsAreIdempotent : Obligations.ReadingCommandsAreIdempotent := by
  intro s t i hreading ht
  obtain ⟨hi, hstore, hseq⟩ := reading_writes_nothing hreading
  obtain ⟨r, hexec⟩ := exec_of_leavesHandoffs hi
  simp only [hstore, hseq] at hexec
  cases (hexec s).symm.trans ht
  exact ⟨rfl, hexec _⟩

/-! ### Ownership (R37, R38, R46, R63) -/

/-- A sample clears no pending result. -/
theorem afterResult_rdy {h : Handoff} (hrdy : h.rdy = true) (o : Option DecodeResult) :
    (h.afterResult o).rdy = true := by
  cases o with
  | none => exact hrdy
  | some r => rfl

theorem feed_rdy {b b' : Band} {s : State} (hrdy : (s.hand.get b').rdy = true) (x : Duration) :
    ((feed b x s).hand.get b').rdy = true := by
  by_cases hb : b' = b
  · subst hb
    rw [feed_eq_edgeWrite]
    exact (congrArg Handoff.rdy (PerBand.get_set_same _ _ _)).trans (afterResult_rdy hrdy _)
  · rw [(feed_frame b x s).hand b' hb]
    exact hrdy

/-- Settles O47: a sample, a poll and every other command, each with what it leaves alone. -/
theorem stateIsWrittenOnlyByItsOwner : Obligations.StateIsWrittenOnlyByItsOwner := by
  intro s t i ht
  obtain ⟨b, x, rfl, rfl⟩ | ⟨b, rfl⟩ | ⟨hi, r, rfl⟩ := exec_cases ht
  · have hframe := feed_frame b x s
    have hown {b' : Band} {p : Prop} (hne : ¬ p) (hother : b' ≠ b → p) : b' = b := by_contra fun h => hne (hother h)
    exact ⟨hframe.cfg, fun b' h => ⟨x, by rw [hown h (hframe.dec b')]⟩,
      fun b' h => .inl ⟨x, by rw [hown h (hframe.hand b')]⟩, fun b' h h' => absurd ((feed_rdy h x).symm.trans h') nofun,
      absurd hframe.store, absurd (congrArg Sequencer.lastReceived hframe.seq),
      absurd (congrArg Sequencer.lastCaptured hframe.seq), absurd (congrArg Sequencer.sendCount hframe.seq),
      absurd (congrArg Sequencer.receiveCount hframe.seq), hframe.schedule, hframe.edgeIn, hframe.cmdIn,
      fun b' h => ⟨x, by rw [hown h (hframe.edgeOut b')]⟩, absurd hframe.cmdOut⟩
  · have hframe := exec_command_frame (i := .poll b) nofun ht
    have hown {b' : Band} (h : t.hand.get b' ≠ s.hand.get b') : Instr.poll b = .poll b' :=
      by_contra fun hne => h (exec_command_hand (i := .poll b) nofun hne ht)
    exact ⟨hframe.cfg, fun b' h => absurd (by rw [hframe.dec]) h, fun b' h => .inr (hown h),
      fun b' h h' => hown fun heq => absurd (h.symm.trans ((congrArg Handoff.rdy heq).symm.trans h')) nofun,
      fun _ => .inr (.inr (.inr (.inr ⟨b, rfl⟩))), fun _ => ⟨b, rfl⟩, fun _ => .inr ⟨b, rfl⟩,
      absurd (poll_sendCount ht), fun _ => .inr ⟨b, rfl⟩, hframe.schedule, hframe.edgeIn, hframe.cmdIn,
      fun b' h => absurd (by rw [hframe.edgeOut]) h, fun _ _ _ => nofun⟩
  · exact ⟨rfl, fun _ => absurd rfl, fun _ => absurd rfl, fun _ h h' => absurd (h.symm.trans h') nofun,
      fun h => (storeAfter_ne h).imp_right (Or.imp_right (Or.imp_right .inl)), absurd (seqAfter_lastReceived _ _), fun h => .inl (seqAfter_lastCaptured_ne h), seqAfter_sendCount_ne,
      fun h => .inl (seqAfter_receiveCount_ne h), rfl, rfl, rfl, fun _ => absurd rfl, fun _ => hi.1⟩

end Sys2Proof.Machine
end

section
/-! PROOFS. A poll with nothing pending, and a poll that captures. -/

namespace Sys2Proof.Machine

/-- Settles O25: nothing pending is answered `NONE` and nothing else is written. -/
theorem pollWithNothingPendingAnswersNone : Obligations.PollWithNothingPendingAnswersNone :=
  fun _ _ hidle => exec_poll_idle hidle

/-- The answer of a capture: a result's signal has no name, and the append's status fills `c0` (R89, R167). -/
theorem capturedResponse_noname {sig : Signal} (h : sig.name = none) (o : AppendOutcome) :
    capturedResponse sig o = { status := .captured, idx := indexField o.index, w0 := packSig sig,
                               c0 := BitVec.ofNat 32 o.status.code.toNat } := by
  rw [capturedResponse, sigResponse_noname _ _ h, BitVec.ofNat_toNat]

/-- Settles O27: the store and the answer are those of `APPEND` of the result's signal on the same state. -/
theorem armedPollCaptures : Obligations.ArmedPollCaptures := by
  intro s b hready harmed
  have hexec := exec_poll_captured hready harmed
  have hframe := exec_command_frame (i := .poll b) nofun hexec
  refine ⟨_, signalOf (s.hand.get b).shadow b, _, _, hexec, signalOf_address _ b, rfl, rfl, rfl, rfl, rfl, rfl, rfl,
    rfl, rfl, satInc_toNat s.seq.receiveCount, rfl, exec_append_next _ s, rfl, rfl, ?_, hframe⟩
  exact congrArg some (capturedResponse_noname (signalOf_name _ b) _)

end Sys2Proof.Machine
end

section
/-! PROOFS. The signal store as a list of live signals, oldest first: how an index moves, and what APPEND, GET, REMOVE and RENAME make of the list. -/

namespace Sys2Proof.Machine

/-! ### The index translation (R32, R62, R200) -/

/-- The next index is the next slot around the ring. -/
theorem slot_succ {M : Nat} {st : Store} {u : Nat} (hcount : st.count ≤ M) (hu : 1 ≤ u) (hle : u + 1 ≤ st.count) :
    slot M st (u + 1) = (slot M st u + 1) % M := by
  have hnext : st.widx + M - 1 - (st.count - (u + 1)) = st.widx + M - 1 - (st.count - u) + 1 := by omega
  rw [slot, slot, Nat.mod_add_mod, hnext]

theorem slot_newest (M : Nat) (st : Store) : slot M st st.count = (st.widx + M - 1) % M := by
  rw [slot, Nat.sub_self, Nat.sub_zero]

theorem slot_oldest {M : Nat} {st : Store} (h : 1 ≤ st.count) : slot M st 1 = (st.widx + M - st.count) % M := by
  have : st.widx + M - 1 - (st.count - 1) = st.widx + M - st.count := by omega
  rw [slot, this]

/-- Settles O36: the translation is one remainder, and two indexes of one slot are equal. -/
theorem slotsFollowAge : Obligations.SlotsFollowAge := by
  intro M st u v hwidx hcount hu hule hv hvle
  exact ⟨slot_newest M st, slot_oldest (hu.trans hule), slot_succ hcount hu,
    slot_lt st u (Nat.zero_lt_of_lt hwidx), slot_inj hwidx hcount hu hule hv hvle⟩

/-! ### APPEND (R202 to R204) -/

/-- The live signals that a successful append keeps: all, or all but the oldest when the store is full (R204, R213). -/
def survivors (M : Nat) (st : Store) : List Signal := if st.count = M then (live M st).tail else live M st

theorem survivors_length {M : Nat} {st : Store} (hM : 1 ≤ M) (hcount : st.count ≤ M) :
    (survivors M st).length + 1 = if st.count < M then st.count + 1 else st.count := by
  unfold survivors
  split
  · rw [List.length_tail, live_length, if_neg (by omega)]
    omega
  · rw [live_length, if_pos (by omega)]

theorem survivors_getElem? {M : Nat} {st : Store} {k : Nat} (hcount : st.count ≤ M)
    (hk : k + 1 < if st.count < M then st.count + 1 else st.count) :
    (survivors M st)[k]? = some (signalAt M st (if st.count < M then k + 1 else k + 1 + 1)) := by
  unfold survivors
  split
  next hfull =>
    rw [if_neg (by omega)] at hk ⊢
    rw [List.getElem?_tail, live_getElem?, if_pos hk]
  next =>
    rw [if_pos (by omega)] at hk ⊢
    rw [live_getElem?, if_pos (by omega)]

/-- The live signals after a successful append: those that are kept, and the new one (R204). -/
theorem live_append {M : Nat} {st : Store} {sig : Signal} (hwidx : st.widx < M) (hcount : st.count ≤ M) {n : Nat}
    (hn : n = if st.count < M then st.count + 1 else st.count) :
    live M { slots := st.slots.write st.widx sig, widx := (st.widx + 1) % M, count := n } =
      survivors M st ++ [sig] := by
  have hlen : (survivors M st).length + 1 = n := (survivors_length (Nat.zero_lt_of_lt hwidx) hcount).trans hn.symm
  apply live_eq_of_signalAt
  · rw [List.length_append, List.length_singleton, hlen]
  · intro k hk
    replace hk : k < n := hk
    rw [signalAt_append hwidx hcount hn (Nat.le_add_left 1 k) hk]
    obtain hlast | hlt := Nat.eq_or_lt_of_le hk
    · obtain rfl : k = (survivors M st).length := by omega
      rw [if_pos hlen, List.getElem?_concat_length]
    · rw [if_neg hlt.ne, List.getElem?_append_left (by omega), survivors_getElem? hcount (hn ▸ hlt)]

/-- Settles O37: no live signal is a duplicate, so the body writes `S[widx]` and advances. -/
theorem appendMakesTheNewestSignal : Obligations.AppendMakesTheNewestSignal := by
  intro s sig _ hinv hnew
  have hexec := exec_append_next sig s
  have hframe := exec_command_frame (i := .append sig) nofun hexec
  have hcount := hinv.count_le
  obtain ⟨u, hdup, -⟩ | ⟨-, hbody⟩ := appendSignal_cases s.cfg.maxSlots sig s.store
  · rw [findDup_eq_none.mpr hnew] at hdup
    cases hdup
  rw [hbody] at hexec hframe
  refine ⟨_, hexec, live_append hinv.widx_lt hcount rfl, ?count, rfl, ?slots, rfl, rfl, rfl, hframe⟩
  case count =>
    simp only [State.respond_store, State.setStore_store]
    split <;> omega
  case slots =>
    exact fun k => slotAt_write s.store s.store.slots _ _ _ _ _ rfl

/-- The scan for a duplicate stops at the one live signal of that identity (R32 (d), R202). -/
theorem findDup_of_sameId {c : Config} {st : Store} (h : st.Inv c) {sig : Signal} {u : Nat} (hu : 1 ≤ u)
    (hle : u ≤ st.count) (hsame : sameId (signalAt c.maxSlots st u) sig = true) :
    findDup c.maxSlots st sig = some u := by
  refine find_ages hu hle hsame fun v hv hlt => ?_
  rw [sameId_comm, ← sameId_trans_left hsame, sameId_comm]
  exact h.distinct v u hv hlt hle

/-- Settles O38: the scan finds the live signal of that identity, and the body leaves the store. -/
theorem appendRefusesADuplicate : Obligations.AppendRefusesADuplicate := by
  intro s sig x u hinv hu hx haddress hkey hband
  obtain ⟨hlt, rfl⟩ := live_getElem?_eq_some_iff.mp hx
  rw [Nat.sub_add_cancel hu] at haddress hkey hband
  have hdup := findDup_of_sameId hinv hu (by omega) (sameId_iff.mpr ⟨haddress, hkey, hband⟩)
  have hbody : appendSignal s.cfg.maxSlots sig s.store = { status := .duplicate, index := u, store := s.store } := by
    simp only [appendSignal, hdup]
  rw [exec_append_next, hbody]
  rfl

/-! ### GET (R205, R212) -/

/-- Settles O39: an index with a live signal is valid. -/
theorem getAnswersTheSignalOfThatAge : Obligations.GetAnswersTheSignalOfThatAge := by
  intro s u x hu hx
  obtain ⟨hlt, rfl⟩ := live_getElem?_eq_some_iff.mp hx
  have hvalid : validIndex s.store u.toNat = true := validIndex_iff.mpr ⟨hu, by omega⟩
  rw [exec_get_next, if_pos hvalid, Nat.sub_add_cancel hu]
  rfl

/-! ### REMOVE (R206) -/

section remove

variable {M : Nat} {st : Store} {u : Nat} (hwidx : st.widx < M) (hcount : st.count ≤ M) (hu : 1 ≤ u)
  (hle : u ≤ st.count)
include hwidx hcount hu hle

/-- The signal at an index after a removal: from `u` on, that of the next index. -/
theorem signalAt_remove {k : Nat} (hk : 1 ≤ k) (hkle : k ≤ st.count - 1) :
    signalAt M (removeSignal M u st) k = signalAt M st (if k < u then k else k + 1) := by
  rw [signalAt, slot_remove hwidx hcount hk hkle]
  show slotAt { st with slots := shiftDown M st u } (slot M st k) = _
  split
  next hlt =>
    refine shiftDown_kept hwidx hcount hu hle fun j huj hj heq => ?_
    have := slot_inj hwidx hcount hk (by omega) (by omega) (by omega) heq
    omega
  next hge => exact shiftDown_moved hwidx hcount hu (by omega) (by omega)

/-- The live signals after a removal: the `u`-th is taken out and the others keep their order. -/
theorem live_remove : live M (removeSignal M u st) = (live M st).eraseIdx (u - 1) := by
  have hlen : (removeSignal M u st).count = st.count - 1 := rfl
  apply live_eq_of_signalAt
  · rw [hlen, List.length_eraseIdx, live_length, if_pos (by omega)]
  · intro k hk
    rw [hlen] at hk
    rw [signalAt_remove hwidx hcount hu hle (Nat.le_add_left 1 k) (by omega), List.getElem?_eraseIdx, live_getElem?,
      live_getElem?]
    by_cases hlt : k + 1 < u
    · simp [show k < u - 1 by omega, show k < st.count by omega, hlt]
    · simp [show ¬ k < u - 1 by omega, show k + 1 < st.count by omega, hlt]

end remove

/-- Settles O40: the index is valid, and the shift moves each later signal one index down. -/
theorem removeTakesOneSignalOut : Obligations.RemoveTakesOneSignalOut := by
  intro s u hinv hu hle
  have hvalid : validIndex s.store u.toNat = true := validIndex_iff.mpr ⟨hu, hle⟩
  have hexec := exec_remove_next u s
  have hframe := exec_command_frame (i := .remove u) nofun hexec
  rw [hvalid] at hexec hframe
  have hwidx := hinv.widx_lt
  have hcount := hinv.count_le
  exact ⟨_, hexec, live_remove hwidx hcount hu hle, rfl, rfl, fun k hk hkle => slot_remove hwidx hcount hk hkle,
    fun a ha => shiftDown_kept hwidx hcount hu hle ha, rfl, rfl, rfl, hframe⟩

/-! ### RENAME (R207) -/

/-- A slot after a renaming. -/
theorem slotAt_rename (M : Nat) (u : Nat) (name : Name) (st : Store) (a : Nat) :
    slotAt (renameSignal M u name st) a =
      if a = slot M st u then { signalAt M st u with name := some name } else slotAt st a :=
  slotAt_write st st.slots _ _ _ _ _ rfl

section rename

variable {M : Nat} {st : Store} {u : Nat} (hwidx : st.widx < M) (hcount : st.count ≤ M) (hu : 1 ≤ u)
  (hle : u ≤ st.count) (name : Name)
include hwidx hcount hu hle

/-- The signal at an index after a renaming: different indexes have different slots. -/
theorem signalAt_rename {k : Nat} (hk : 1 ≤ k) (hkle : k ≤ st.count) :
    signalAt M (renameSignal M u name st) k =
      if k = u then { signalAt M st u with name := some name } else signalAt M st k := by
  have hslot : slot M st k = slot M st u ↔ k = u :=
    ⟨slot_inj hwidx hcount hk hkle hu hle, fun h => by rw [h]⟩
  show slotAt (renameSignal M u name st) (slot M st k) = _
  simp only [slotAt_rename, hslot]
  rfl

/-- The live signals after a renaming: the `u`-th has the name. -/
theorem live_rename :
    live M (renameSignal M u name st) = (live M st).modify (u - 1) fun x => { x with name := some name } := by
  apply live_eq_of_signalAt
  · rw [List.length_modify, live_length]
    rfl
  · intro k hk
    replace hk : k < st.count := hk
    have hindex : k + 1 = u ↔ u - 1 = k := by omega
    rw [List.getElem?_modify, live_getElem?, if_pos hk,
      signalAt_rename hwidx hcount hu hle name (Nat.le_add_left 1 k) hk, Option.map_eq_map, Option.map_some]
    by_cases h : u - 1 = k
    · rw [if_pos h, if_pos (hindex.mpr h), hindex.mpr h]
    · rw [if_neg h, if_neg (mt hindex.mp h)]

end rename

/-- Settles O41: the index is valid, and its slot is the one written. -/
theorem renameSetsOneName : Obligations.RenameSetsOneName := by
  intro s u name hinv hu hle
  have hvalid : validIndex s.store u.toNat = true := validIndex_iff.mpr ⟨hu, hle⟩
  have hexec := exec_rename_next u name s
  have hframe := exec_command_frame (i := .rename u name) nofun hexec
  rw [hvalid] at hexec hframe
  exact ⟨_, hexec, live_rename hinv.widx_lt hinv.count_le hu hle name,
    fun a ha => (slotAt_rename _ _ _ _ a).trans (if_neg ha), rfl, rfl, rfl, rfl, rfl, hframe⟩

/-! ### Restoring (R212, R213, R278) -/

/-- The last `M` elements of a list with one more at the end: that one, after the last `M` before it, without the first of
them when there were `M`. -/
theorem drop_length_concat {α : Type} {M : Nat} (hM : 1 ≤ M) (xs : List α) (x : α) :
    (xs ++ [x]).drop ((xs ++ [x]).length - M) =
      (if min xs.length M = M then (xs.drop (xs.length - M)).tail else xs.drop (xs.length - M)) ++ [x] := by
  rw [List.length_append, List.length_singleton]
  split
  next hfull =>
    have hshift : xs.length + 1 - M = xs.length - M + 1 := by omega
    rw [hshift, List.tail_drop, List.drop_append_of_le_length (by omega)]
  next hroom =>
    have hall : xs.length + 1 - M = 0 := by omega
    have hall' : xs.length - M = 0 := by omega
    rw [hall, hall', List.drop_zero, List.drop_zero]

/-- Restoring one signal more is an `APPEND` after the others. -/
theorem execAll_restore_concat {s t u : State} {signals : List Signal} {sig : Signal}
    (ht : execAll (restore signals) s = .next t) (hu : exec (.append sig) t = .next u) :
    execAll (restore (signals ++ [sig])) s = .next u := by
  rw [restore, List.map_append, execAll_append, ← restore, ht]
  exact execAll_cons_next hu

/-- The state after restoring into an empty store, and that its store meets the invariants again. -/
theorem execAll_restore {s : State} (hsized : s.cfg.Sized) (hinv : s.store.Inv s.cfg) (hempty : s.store.count = 0)
    (signals : List Signal) (hdistinct : signals.Pairwise fun x y => sameId x y = false)
    (hwf : ∀ x ∈ signals, wellFormed s.cfg.nameMax (.append x) = true) :
    ∃ t, execAll (restore signals) s = .next t ∧
      live s.cfg.maxSlots t.store = signals.drop (signals.length - s.cfg.maxSlots) ∧
      t.store.count = min signals.length s.cfg.maxSlots ∧
      t.store.Inv s.cfg ∧ t.seq = s.seq ∧ t.hand = s.hand ∧ CommandFrame s t := by
  induction signals using List.reverseRecOn with
  | nil =>
    exact ⟨s, rfl, (live_eq_nil hempty).trans List.drop_nil.symm, hempty.trans (Nat.zero_min _).symm, hinv, rfl, rfl,
      .refl s⟩
  | append_singleton xs x ih =>
    obtain ⟨hxs, -, hlast⟩ := List.pairwise_append.mp hdistinct
    obtain ⟨t, ht, hlive, hcount, hinvt, hseq, hhand, hframe⟩ :=
      ih hxs fun y hy => hwf y (List.mem_append_left _ hy)
    have hcfg := hframe.cfg
    have hnew : ∀ y ∈ live s.cfg.maxSlots t.store, sameId y x = false := by
      rw [hlive]
      exact fun y hy => hlast y (List.mem_of_mem_drop hy) x (List.mem_singleton_self x)
    rw [← hcfg] at hsized hinvt hnew
    obtain ⟨u, hu, hliveu, hcountu, -, -, -, hsequ, hhandu, hframeu⟩ :=
      appendMakesTheNewestSignal t x hsized hinvt hnew
    have hstoreu : u.store = (appendSignal t.cfg.maxSlots x t.store).store := by
      cases (exec_append_next x t).symm.trans hu
      rfl
    have hnames := name_length_of_wellFormed_append (hwf x (List.mem_append_right _ (List.mem_singleton_self x)))
    rw [← hcfg] at hnames
    refine ⟨u, execAll_restore_concat ht hu, ?live, ?count, ?inv, hsequ.trans hseq, hhandu.trans hhand,
      hframe.trans hframeu⟩
    case live =>
      rw [← hcfg, drop_length_concat hsized.max_ge, hliveu, hcfg, hlive, hcount]
    case count =>
      rw [hcountu, hcfg, hcount, List.length_append, List.length_singleton]
      omega
    case inv =>
      rw [hstoreu, ← hcfg]
      exact append_inv hinvt hsized.max_ge hnames

/-- Settles O46: each `APPEND` is of a new identity, by induction on the signals from the newest back. -/
theorem appendsKeepTheNewest : Obligations.AppendsKeepTheNewest := by
  intro s signals hsized hinv hempty hdistinct hwf
  obtain ⟨t, ht, hlive, hcount, -, hseq, hhand, hframe⟩ := execAll_restore hsized hinv hempty signals hdistinct hwf
  exact ⟨t, ht, hlive, hcount, hseq, hhand, hframe⟩

end Sys2Proof.Machine
end
